-- ==== Sys2Proof/Word.lean ====
section
/-! DEFINITION. The bit-vector types of the sensor-link block. -/

namespace Sys2Proof

/-- A byte is 8 bits (20_memory.md R28). -/
abbrev Byte := BitVec 8

/-- The 32-bit result slot (10_state.md R18). -/
abbrev Word32 := BitVec 32

/-- The event set and its masks: `EVENT_W` = 32 bits (10_state.md R20, 00_scope.md R6). -/
abbrev EventMask := BitVec 32

/-- The 16-bit stimulus selector (30_encoding.md R43). -/
abbrev Selector := BitVec 16

/-- A two-wire device address: `TW_ADDR_W` = 7 bits (00_scope.md R6). -/
abbrev TwAddr := BitVec 7

end Sys2Proof
end

