-- ==== Sys2Proof/Config.lean ====
section
/-! DEFINITION. The configuration record `cfg` of 00_scope.md R6 and the constraints of R7. -/

namespace Sys2Proof

/-- The configuration record of 00_scope.md R6: what a build of the block fixes. `EVENT_W` = 32 and
`TW_ADDR_W` = 7 are the widths of `EventMask` and `TwAddr`. The record is carried in `State` and no
step changes it (log 1). -/
structure Config where
  /-- `N_DEPTHS`: how many sleep depths there are, 0 the shallowest. -/
  nDepths : Nat
  /-- `EM_CEILING`: a block count stays strictly below this. -/
  emCeiling : Nat
  /-- `CAPACITY`: the ring buffer's size in bytes. -/
  capacity : Nat
  /-- `SCRATCH_SIZE`: the size of the pop scratch buffer and of the inspection slot (D4, log 2). -/
  scratchSize : Nat
  /-- `TX_BUF_SIZE`: the size of the transmit text buffer (D5, log 2). -/
  txBufSize : Nat
  /-- `RX_BUF_SIZE`: the size of the receive buffer. -/
  rxBufSize : Nat
  /-- `RX_START_BYTE`. -/
  rxStartByte : Byte
  /-- `RX_SIG_BYTE`. -/
  rxSigByte : Byte
  /-- `TX_BLOCK_DEPTH`: the depth blocked while a transmit is in flight. -/
  txBlockDepth : Nat
  /-- `TW_BLOCK_DEPTH`: the depth blocked while a transaction is in flight. -/
  twBlockDepth : Nat
  /-- `EVT_TW_DONE`. -/
  evtTwDone : EventMask
  /-- `EVT_TX_DONE`. -/
  evtTxDone : EventMask
  /-- `EVT_RX_DONE`. -/
  evtRxDone : EventMask
  deriving DecidableEq, Repr

/-- "exactly one bit set" (00_scope.md R6, the three completion masks). -/
abbrev OneBit (m : EventMask) : Prop := m ≠ 0 ∧ m &&& (m - 1) = 0

/-- The constraints on a configuration: 00_scope.md R7, and the ranges and equalities of the table of R6.
`SCRATCH_SIZE = CAPACITY` and `TX_BUF_SIZE = SCRATCH_SIZE` (decisions D4, D5, log 2) imply R7's bounds on
the two sizes (`valid_sizes` of Laws/Ring.lean). A configuration that breaks a constraint is refused, not
given a meaning (log 3). -/
abbrev Config.Valid (c : Config) : Prop :=
  3 ≤ c.nDepths ∧ 2 ≤ c.emCeiling
  ∧ c.capacity ∈ [2, 4, 8, 16, 32, 64, 128, 256]
  ∧ c.scratchSize = c.capacity ∧ c.txBufSize = c.scratchSize
  ∧ 2 ≤ c.rxBufSize ∧ c.rxStartByte ≠ c.rxSigByte
  ∧ c.txBlockDepth < c.nDepths ∧ c.twBlockDepth < c.nDepths
  ∧ OneBit c.evtTwDone ∧ OneBit c.evtTxDone ∧ OneBit c.evtRxDone
  ∧ c.evtTwDone ≠ c.evtTxDone ∧ c.evtTwDone ≠ c.evtRxDone ∧ c.evtTxDone ≠ c.evtRxDone

/-- TC1, the test configuration of 00_scope.md R6 and 95_test_vectors.md. DESIGN CHOICE (log 1): it is
the configuration of `State.reset` only; it "is not a claim about the original hardware". -/
def Config.tc1 : Config where
  nDepths := 5
  emCeiling := 5
  capacity := 64
  scratchSize := 64
  txBufSize := 64
  rxBufSize := 16
  rxStartByte := 0x23
  rxSigByte := 0x21
  txBlockDepth := 3
  twBlockDepth := 2
  evtTwDone := 0x00000008
  evtTxDone := 0x00000010
  evtRxDone := 0x00000020

end Sys2Proof
end

