-- ==== Sys2Proof/Syntax.lean ====
section
/-! DEFINITION. The stimuli of the block: its whole "instruction set" (00_scope.md R2, 30_encoding.md R46). -/

namespace Sys2Proof

/-- Who issues a stimulus (00_scope.md R8): MAIN is the main context, the other three are the
environment agents, each an interrupt context (60_exceptions.md R117). -/
inductive Agent
  | main
  | serial
  | twoWire
  | timer
  deriving DecidableEq, Repr

/-- The 27 stimuli of 30_encoding.md R46, operands as R47 and R48 give them. An operand is as wide as
the operand tuple lets it be, so that a value outside the admitted range can be issued and meets the
outcome its rule gives it. -/
inductive Instr
  /-- `EM.OPEN` (R60) -/
  | emOpen
  /-- `EM.BLOCK d` (R61) -/
  | emBlock (d : Byte)
  /-- `EM.UNBLOCK d` (R62) -/
  | emUnblock (d : Byte)
  /-- `EM.FLOOR` (R63) -/
  | emFloor
  /-- `EM.SLEEP` (R64) -/
  | emSleep
  /-- `RB.INIT` (R68) -/
  | rbInit
  /-- `RB.SPACE` (R69) -/
  | rbSpace
  /-- `RB.PUSH payload` (R70) -/
  | rbPush (payload : List Byte)
  /-- `RB.POP t` (R71) -/
  | rbPop (t : Bool)
  /-- `TX.START text` (R74) -/
  | txStart (text : List Byte)
  /-- `TX.BUSY` (R75) -/
  | txBusy
  /-- `TX.TXBL` (R76) -/
  | txTxbl
  /-- `TX.TXC` (R77) -/
  | txTxc
  /-- `RX.OPEN` (R80) -/
  | rxOpen
  /-- `RX.LINE b` (R81) -/
  | rxLine (b : Byte)
  /-- `RX.STARTF` (R82) -/
  | rxStartf
  /-- `RX.RXDATAV b` (R83) -/
  | rxRxdatav (b : Byte)
  /-- `RX.SIGF` (R84) -/
  | rxSigf
  /-- `TW.START addr, cmd, rd, n` (R87) -/
  | twStart (addr : Nat) (cmd : Byte) (rd : Bool) (n : Nat)
  /-- `TW.ACK` (R88) -/
  | twAck
  /-- `TW.NACK` (R89) -/
  | twNack
  /-- `TW.RXDATAV b` (R90) -/
  | twRxdatav (b : Byte)
  /-- `TW.MSTOP` (R91) -/
  | twMstop
  /-- `SCH.OPEN` (R97) -/
  | schOpen
  /-- `SCH.ADD m` (R98) -/
  | schAdd (m : EventMask)
  /-- `SCH.REMOVE m` (R99) -/
  | schRemove (m : EventMask)
  /-- `SCH.GET` (R100) -/
  | schGet
  deriving DecidableEq, Repr

/-- The agents that may issue a stimulus: the column "agent" of 30_encoding.md R46. -/
def Instr.issuers : Instr → List Agent
  | .emOpen | .emBlock _ | .emUnblock _ | .emFloor | .emSleep => [.main]
  | .rbInit | .rbSpace | .rbPush _ | .rbPop _ => [.main]
  | .txStart _ | .txBusy => [.main]
  | .txTxbl | .txTxc => [.serial]
  | .rxOpen => [.main]
  | .rxLine _ | .rxStartf | .rxRxdatav _ | .rxSigf => [.serial]
  | .twStart _ _ _ _ => [.main]
  | .twAck | .twNack | .twRxdatav _ | .twMstop => [.twoWire]
  | .schOpen => [.main]
  | .schAdd _ => [.main, .timer]
  | .schRemove _ | .schGet => [.main]

/-- A stimulus as it is written down: the selector word and the operand tuple, which is not
bit-encoded (30_encoding.md R43). -/
structure Stimulus where
  sel : Selector
  ops : List Nat
  deriving DecidableEq, Repr

end Sys2Proof
end

