-- ==== Sys2Proof/WellFormed.lean ====
section
/-! DEFINITION. Operand ranges a stimulus must keep to be one the spec admits. -/

namespace Sys2Proof

/-- A string the block carries: each byte is in `0x01 .. 0xFF` (30_encoding.md R48). -/
abbrev NoZeroByte (p : List Byte) : Prop := ∀ b ∈ p, b ≠ 0

/-- The check of the admitted operand ranges of 30_encoding.md R47 and R48, and for `TW.START` of the
one form 44_two_wire.md R95 admits. A stimulus outside them still has its outcome in the machine: the
fault or the refusal its rule names. -/
def Instr.wellFormed (c : Config) : Instr → Bool
  | .emBlock d | .emUnblock d => decide (d.toNat < c.nDepths)
  | .rbPush p => decide (p.length + 2 ≤ c.capacity ∧ NoZeroByte p)
  | .txStart p => decide (p.length + 1 ≤ c.txBufSize ∧ NoZeroByte p)
  | .twStart addr _ rd n => decide (addr ≤ 0x7F ∧ rd = true ∧ n = 2)
  | .emOpen | .emFloor | .emSleep | .rbInit | .rbSpace | .rbPop _ | .txBusy | .txTxbl | .txTxc
  | .rxOpen | .rxLine _ | .rxStartf | .rxRxdatav _ | .rxSigf | .twAck | .twNack | .twRxdatav _
  | .twMstop | .schOpen | .schAdd _ | .schRemove _ | .schGet => true

end Sys2Proof
end

