-- ==== Sys2Proof/Decode.lean ====
section
/-! DEFINITION. The stimulus selector (30_encoding.md R43 to R49): the decoder, the encoder and the
table of R46. The selector is the spec's own label set (D20); the hardware decodes none of it. -/

namespace Sys2Proof

/-- Why a stimulus is no stimulus of the table (30_encoding.md R49). -/
inductive DecodeError
  /-- unit codes `0x6` to `0xF` -/
  | reservedUnit
  /-- an operation code past the last one of its unit -/
  | reservedOp
  /-- a non-zero `imm8` on an S or X row -/
  | immNotZero
  /-- `imm8[7:1]` of `RB.POP` not zero -/
  | popImmediate
  /-- an operand tuple that is not of the row's format (log 25) -/
  | operandTuple
  deriving DecidableEq, Repr

/-- `sel[15:12]`, the unit code (R43). -/
def Stimulus.unit (w : Stimulus) : Nat := (w.sel.extractLsb' 12 4).toNat

/-- `sel[11:8]`, the operation code (R43). -/
def Stimulus.op (w : Stimulus) : Nat := (w.sel.extractLsb' 8 4).toNat

/-- `sel[7:0]`, the immediate (R43). -/
def Stimulus.imm8 (w : Stimulus) : Byte := w.sel.extractLsb' 0 8

/-- Format S: `imm8` is zero and `ops` is empty (R44). -/
def decodeS (w : Stimulus) (i : Instr) : Except DecodeError Instr :=
  if w.imm8 ≠ 0 then .error .immNotZero
  else if w.ops ≠ [] then .error .operandTuple
  else .ok i

/-- Format B: `imm8` is the operand and `ops` is empty (R44). -/
def decodeB (w : Stimulus) (i : Byte → Instr) : Except DecodeError Instr :=
  if w.ops ≠ [] then .error .operandTuple else .ok (i w.imm8)

/-- `RB.POP t`: format B in which only bit 0 is an operand (R47). -/
def decodePop (w : Stimulus) : Except DecodeError Instr :=
  if w.imm8.extractLsb' 1 7 ≠ 0 then .error .popImmediate
  else if w.ops ≠ [] then .error .operandTuple
  else .ok (.rbPop (w.imm8.getLsbD 0))

/-- Format X: `imm8` is zero and `ops` carries the operands (R44); `read` reads the tuple (R48). -/
def decodeX (w : Stimulus) (read : List Nat → Option Instr) : Except DecodeError Instr :=
  if w.imm8 ≠ 0 then .error .immNotZero
  else match read w.ops with
    | some i => .ok i
    | none => .error .operandTuple

/-- A list of bytes out of an operand tuple; none if an element is no byte (R48). -/
def readBytes : List Nat → Option (List Byte)
  | [] => some []
  | n :: rest =>
    if n < 256 then (readBytes rest).map (BitVec.ofNat 8 n :: ·) else none

/-- The tuple `(addr, cmd, rd, n)` of `TW.START` (R48): `cmd` is 8 bits and `rd` 1 bit; `addr` is read
as a number, because one above `0x7F` is a stimulus that R87 refuses (`TW_ADDR_RANGE`). -/
def readTwStart : List Nat → Option Instr
  | [addr, cmd, rd, n] =>
    if cmd < 256 ∧ rd < 2 then some (.twStart addr (BitVec.ofNat 8 cmd) (rd == 1) n) else none
  | _ => none

/-- The one 32-bit mask of `SCH.ADD` and `SCH.REMOVE` (R48). -/
def readMask (i : EventMask → Instr) : List Nat → Option Instr
  | [m] => if m < 2 ^ 32 then some (i (BitVec.ofNat 32 m)) else none
  | _ => none

/-- The decoder: unit, operation, immediate and operand tuple to a stimulus of the table of
30_encoding.md R46, or the reason there is none (R49). Total. -/
def decode (w : Stimulus) : Except DecodeError Instr :=
  match w.unit, w.op with
  | 0x0, 0x0 => decodeS w .emOpen
  | 0x0, 0x1 => decodeB w .emBlock
  | 0x0, 0x2 => decodeB w .emUnblock
  | 0x0, 0x3 => decodeS w .emFloor
  | 0x0, 0x4 => decodeS w .emSleep
  | 0x0, _ => .error .reservedOp
  | 0x1, 0x0 => decodeS w .rbInit
  | 0x1, 0x1 => decodeS w .rbSpace
  | 0x1, 0x2 => decodeX w fun ops => (readBytes ops).map .rbPush
  | 0x1, 0x3 => decodePop w
  | 0x1, _ => .error .reservedOp
  | 0x2, 0x0 => decodeX w fun ops => (readBytes ops).map .txStart
  | 0x2, 0x1 => decodeS w .txBusy
  | 0x2, 0x2 => decodeS w .txTxbl
  | 0x2, 0x3 => decodeS w .txTxc
  | 0x2, _ => .error .reservedOp
  | 0x3, 0x0 => decodeS w .rxOpen
  | 0x3, 0x1 => decodeB w .rxLine
  | 0x3, 0x2 => decodeS w .rxStartf
  | 0x3, 0x3 => decodeB w .rxRxdatav
  | 0x3, 0x4 => decodeS w .rxSigf
  | 0x3, _ => .error .reservedOp
  | 0x4, 0x0 => decodeX w readTwStart
  | 0x4, 0x1 => decodeS w .twAck
  | 0x4, 0x2 => decodeS w .twNack
  | 0x4, 0x3 => decodeB w .twRxdatav
  | 0x4, 0x4 => decodeS w .twMstop
  | 0x4, _ => .error .reservedOp
  | 0x5, 0x0 => decodeS w .schOpen
  | 0x5, 0x1 => decodeX w (readMask .schAdd)
  | 0x5, 0x2 => decodeX w (readMask .schRemove)
  | 0x5, 0x3 => decodeS w .schGet
  | 0x5, _ => .error .reservedOp
  | _, _ => .error .reservedUnit

/-- The selector with the given unit code, operation code and immediate (R43). -/
def selector (unit op : BitVec 4) (imm8 : Byte) : Selector := unit ++ op ++ imm8

/-- The encoder: the selector and operand tuple of a stimulus, from the table of R46 and R48. -/
def encode : Instr → Stimulus
  | .emOpen => ⟨selector 0x0 0x0 0, []⟩
  | .emBlock d => ⟨selector 0x0 0x1 d, []⟩
  | .emUnblock d => ⟨selector 0x0 0x2 d, []⟩
  | .emFloor => ⟨selector 0x0 0x3 0, []⟩
  | .emSleep => ⟨selector 0x0 0x4 0, []⟩
  | .rbInit => ⟨selector 0x1 0x0 0, []⟩
  | .rbSpace => ⟨selector 0x1 0x1 0, []⟩
  | .rbPush p => ⟨selector 0x1 0x2 0, p.map BitVec.toNat⟩
  | .rbPop t => ⟨selector 0x1 0x3 (if t then 1 else 0), []⟩
  | .txStart p => ⟨selector 0x2 0x0 0, p.map BitVec.toNat⟩
  | .txBusy => ⟨selector 0x2 0x1 0, []⟩
  | .txTxbl => ⟨selector 0x2 0x2 0, []⟩
  | .txTxc => ⟨selector 0x2 0x3 0, []⟩
  | .rxOpen => ⟨selector 0x3 0x0 0, []⟩
  | .rxLine b => ⟨selector 0x3 0x1 b, []⟩
  | .rxStartf => ⟨selector 0x3 0x2 0, []⟩
  | .rxRxdatav b => ⟨selector 0x3 0x3 b, []⟩
  | .rxSigf => ⟨selector 0x3 0x4 0, []⟩
  | .twStart addr cmd rd n =>
    ⟨selector 0x4 0x0 0, [addr, cmd.toNat, if rd then 1 else 0, n]⟩
  | .twAck => ⟨selector 0x4 0x1 0, []⟩
  | .twNack => ⟨selector 0x4 0x2 0, []⟩
  | .twRxdatav b => ⟨selector 0x4 0x3 b, []⟩
  | .twMstop => ⟨selector 0x4 0x4 0, []⟩
  | .schOpen => ⟨selector 0x5 0x0 0, []⟩
  | .schAdd m => ⟨selector 0x5 0x1 0, [m.toNat]⟩
  | .schRemove m => ⟨selector 0x5 0x2 0, [m.toNat]⟩
  | .schGet => ⟨selector 0x5 0x3 0, []⟩

/-- One row of the stimulus table (30_encoding.md R46, opcode_table.json): a selector belongs to the
row when its bits under `mask` are `pattern`. -/
structure TableRow where
  mnemonic : String
  pattern : Selector
  mask : Selector
  deriving DecidableEq, Repr

/-- Rows of the units EM, RB and TX. -/
def tableLow : List TableRow :=
  [ ⟨"EM.OPEN", 0x0000, 0xFFFF⟩, ⟨"EM.BLOCK", 0x0100, 0xFF00⟩, ⟨"EM.UNBLOCK", 0x0200, 0xFF00⟩,
    ⟨"EM.FLOOR", 0x0300, 0xFFFF⟩, ⟨"EM.SLEEP", 0x0400, 0xFFFF⟩,
    ⟨"RB.INIT", 0x1000, 0xFFFF⟩, ⟨"RB.SPACE", 0x1100, 0xFFFF⟩, ⟨"RB.PUSH", 0x1200, 0xFFFF⟩,
    ⟨"RB.POP", 0x1300, 0xFFFE⟩,
    ⟨"TX.START", 0x2000, 0xFFFF⟩, ⟨"TX.BUSY", 0x2100, 0xFFFF⟩, ⟨"TX.TXBL", 0x2200, 0xFFFF⟩,
    ⟨"TX.TXC", 0x2300, 0xFFFF⟩ ]

/-- Rows of the units RX, TW and SCH. -/
def tableHigh : List TableRow :=
  [ ⟨"RX.OPEN", 0x3000, 0xFFFF⟩, ⟨"RX.LINE", 0x3100, 0xFF00⟩, ⟨"RX.STARTF", 0x3200, 0xFFFF⟩,
    ⟨"RX.RXDATAV", 0x3300, 0xFF00⟩, ⟨"RX.SIGF", 0x3400, 0xFFFF⟩,
    ⟨"TW.START", 0x4000, 0xFFFF⟩, ⟨"TW.ACK", 0x4100, 0xFFFF⟩, ⟨"TW.NACK", 0x4200, 0xFFFF⟩,
    ⟨"TW.RXDATAV", 0x4300, 0xFF00⟩, ⟨"TW.MSTOP", 0x4400, 0xFFFF⟩,
    ⟨"SCH.OPEN", 0x5000, 0xFFFF⟩, ⟨"SCH.ADD", 0x5100, 0xFFFF⟩, ⟨"SCH.REMOVE", 0x5200, 0xFFFF⟩,
    ⟨"SCH.GET", 0x5300, 0xFFFF⟩ ]

/-- The stimulus table: 27 rows (R46). -/
def stimulusTable : List TableRow := tableLow ++ tableHigh

/-- The selector belongs to the row (R49: the row's format bits, its unit and operation codes). -/
def TableRow.admits (r : TableRow) (sel : Selector) : Bool := sel &&& r.mask == r.pattern

/-- The mnemonic of a stimulus, as R46 and opcode_table.json spell it. -/
def Instr.mnemonic : Instr → String
  | .emOpen => "EM.OPEN"
  | .emBlock _ => "EM.BLOCK"
  | .emUnblock _ => "EM.UNBLOCK"
  | .emFloor => "EM.FLOOR"
  | .emSleep => "EM.SLEEP"
  | .rbInit => "RB.INIT"
  | .rbSpace => "RB.SPACE"
  | .rbPush _ => "RB.PUSH"
  | .rbPop _ => "RB.POP"
  | .txStart _ => "TX.START"
  | .txBusy => "TX.BUSY"
  | .txTxbl => "TX.TXBL"
  | .txTxc => "TX.TXC"
  | .rxOpen => "RX.OPEN"
  | .rxLine _ => "RX.LINE"
  | .rxStartf => "RX.STARTF"
  | .rxRxdatav _ => "RX.RXDATAV"
  | .rxSigf => "RX.SIGF"
  | .twStart _ _ _ _ => "TW.START"
  | .twAck => "TW.ACK"
  | .twNack => "TW.NACK"
  | .twRxdatav _ => "TW.RXDATAV"
  | .twMstop => "TW.MSTOP"
  | .schOpen => "SCH.OPEN"
  | .schAdd _ => "SCH.ADD"
  | .schRemove _ => "SCH.REMOVE"
  | .schGet => "SCH.GET"

/-- The operand tuple of zeros that goes with a selector (log 25): the least tuple of the row's shape,
so no byte for a payload or a text, four zeros for `TW.START`, one for a mask. -/
def zeroOperands (sel : Selector) : List Nat :=
  if sel = 0x4000 then [0, 0, 0, 0] else if sel = 0x5100 ∨ sel = 0x5200 then [0] else []

/-- The stimulus a table word stands for: the selector is the word, the operands are zeros (log 25). -/
def stimulusOfWord (w : Nat) : Stimulus :=
  ⟨BitVec.ofNat 16 w, zeroOperands (BitVec.ofNat 16 w)⟩

/-- The stimulus the decoder reads from a table word. Every stimulus is one 16-bit selector (R43): a
word with a bit above bit 15 is none. -/
def decodeTableWord (nbits w : Nat) : Option Instr :=
  if nbits ≤ 16 ∧ w < 2 ^ 16 then (decode (stimulusOfWord w)).toOption else none

/-- The agent a stimulus comes from when only its word is given: MAIN where MAIN may issue it, else its
peripheral; MAIN for a word that is none (log 4). -/
def Stimulus.agent (w : Stimulus) : Agent :=
  match decode w with
  | .ok i => i.issuers.headD .main
  | .error _ => .main

end Sys2Proof
end

