-- ==== Sys2Proof/Machine/State.lean ====
section
/-! DEFINITION. The machine's state as plain data (10_state.md R9 to R26), the ways a step can stop, and
the state after reset. -/

namespace Sys2Proof.Machine

/-- A byte store: the bytes written so far, addresses strictly rising. A byte that is not listed has
no value (log 12). -/
abbrev Memory := List Host.Cell

/-- The fatal assertions: the twelve codes of 60_exceptions.md R109, and one of the model's own. Each
halts the block for good (R108). -/
inductive Fault
  /-- Code 1, class 1; `TW.ACK` in a state that expects none (R88). Safe: the spec's own fault. -/
  | twAckState
  /-- Code 2, class 1; `TW.NACK` outside `WACK3` (R89). Safe: the spec's own fault. -/
  | twNackState
  /-- Code 3, class 1; `TW.RXDATAV` in a state that expects none (R90). Safe: the spec's own fault. -/
  | twRxdataState
  /-- Code 4, class 1; `TW.MSTOP` outside `END` (R91). Safe: the spec's own fault. -/
  | twMstopState
  /-- Code 5, class 3; `TW.START` while the bus is not idle (R87). Safe: the spec's own fault. -/
  | twBusNotIdle
  /-- Code 6, class 1; `TX.TXBL` outside `SEND_CHAR` (R76). Safe: the spec's own fault. -/
  | txTxblState
  /-- Code 7, class 1; `TX.TXC` outside `WAIT_TXC` (R77). Safe: the spec's own fault. -/
  | txTxcState
  /-- Code 8, class 2; `RB.PUSH` without room (R70). Safe: the spec's own fault. -/
  | rbOverflow
  /-- Code 9, class 2; `EM.BLOCK`, `TX.START`, `TW.START`, and `RB.POP` through `TX.START` (R61). Safe:
  the spec's own fault. -/
  | emCeilingHit
  /-- Code 10, class 2; `EM.UNBLOCK`, `TX.TXC`, `TW.MSTOP` (R62). Safe: the spec's own fault. -/
  | emUnderflow
  /-- Code 11, class 2; `RX.RXDATAV`, and `RX.LINE` through it (R83, D30). Safe: the spec's own fault. -/
  | rxOverflow
  /-- Code 12, no class; the self-tests, which are not modelled (R106, D43): no stimulus raises it
  (log 24). Safe: it is raised nowhere. -/
  | selftestFail
  /-- No code; the model's own (log 13): a store past the end of a byte store. `RB.PUSH`, `RX.STARTF`,
  `RX.RXDATAV`, `RX.SIGF` and `RX.LINE` raise it, only in states that no run from reset reaches. Safe:
  the machine stops. -/
  | indexRange
  deriving DecidableEq, Repr

/-- The refusals: the reasons of 60_exceptions.md R111, two of the model's own, and the mark of an
instruction without a meaning. A refused stimulus is given no meaning. -/
inductive Refusal
  /-- An instruction that has no meaning yet, by its mnemonic. No instruction is refused so. Safe. -/
  | notModelled (mnemonic : String)
  /-- `INVALID_SELECTOR`: the step, for a stimulus that matches no row (R49). Safe. -/
  | invalidSelector
  /-- `UNINITIALISED`: any rule that reads state whose reset value is unspecified before the operation
  that initialises it, and any read of a byte that nothing has written (R111, R125, log 12). Safe. -/
  | uninitialised
  /-- `EM_DEPTH_RANGE`: `EM.BLOCK`, `EM.UNBLOCK` (R61, R62). Safe. -/
  | emDepthRange
  /-- `PAYLOAD_HAS_ZERO_BYTE`: `RB.PUSH`, `TX.START` (R70, R74). Safe. -/
  | payloadHasZeroByte
  /-- `RB_HEADER_ZERO`: `RB.POP` (R71). Safe. -/
  | rbHeaderZero
  /-- `RB_FRAME_EXCEEDS_SCRATCH`: `RB.POP` (R71). Safe. -/
  | rbFrameExceedsScratch
  /-- `RB_FROM_ISR`: an RB operation issued by an environment agent (R35). Safe. -/
  | rbFromIsr
  /-- `TX_START_WHILE_BUSY`: `TX.START` (R74). Safe. -/
  | txStartWhileBusy
  /-- `TX_TEXT_TOO_LONG`: `TX.START` (R74). Safe. -/
  | txTextTooLong
  /-- `RX_START_IN_FRAME`: `RX.LINE` (R81). Safe. -/
  | rxStartInFrame
  /-- `RX_EVENT_GATE`: `RX.STARTF`, `RX.RXDATAV`, `RX.SIGF` (R82 to R84). Safe. -/
  | rxEventGate
  /-- `TW_ADDR_RANGE`: `TW.START` (R87). Safe. -/
  | twAddrRange
  /-- `TW_FORM_NOT_DESCRIBED`: `TW.START` (R87, R95). Safe. -/
  | twFormNotDescribed
  /-- `MAIN_ASLEEP`: any MAIN operation while `pwr.depth > 0` (R65). Safe. -/
  | mainAsleep
  /-- The model's own (log 7): a stimulus issued by an agent that R46 does not let issue it. Safe. -/
  | wrongAgent
  /-- The model's own (log 3): the step, under a configuration that breaks R7. Safe. -/
  | configInvalid
  deriving DecidableEq, Repr

/-- The result of `RB.POP` (30_encoding.md R57). -/
inductive PopResult
  | empty
  | notReady
  | consumed
  deriving DecidableEq, Repr

/-- The value a stimulus returns (R63, R69, R71, R75, R100). -/
inductive Ret
  | depth (d : Nat)
  | space (n : Nat)
  | popped (r : PopResult)
  | busy (b : Bool)
  | events (m : EventMask)
  deriving DecidableEq, Repr

/-- `tx.state` (10_state.md R13). -/
inductive TxState
  /-- `INITIALIZE` -/
  | initial
  | sendChar
  | waitTxc
  | finish
  deriving DecidableEq, Repr

/-- `rx.state` (10_state.md R15). -/
inductive RxState
  | init
  | idle
  | started
  | receiving
  | finished
  deriving DecidableEq, Repr

/-- `tw.state` (10_state.md R17). -/
inductive TwState
  | init
  | sendMeasure
  | sendRead
  | wack3
  | getMsb
  | getLsbStop
  | endState
  deriving DecidableEq, Repr

/-- One bus action issued to the two-wire peripheral (10_state.md R22). -/
inductive BusAction
  /-- `START` -/
  | start
  /-- `TX(b)` -/
  | tx (b : Byte)
  /-- `ACKCMD` -/
  | ackCmd
  /-- `NACKCMD` -/
  | nackCmd
  /-- `STOPCMD` -/
  | stopCmd
  deriving DecidableEq, Repr

/-- Unit EM (R9), with its ghost flag (R125). -/
structure EmUnit where
  /-- `em.count[d]` for each depth `d`. -/
  count : List Nat
  /-- the ghost flag "EM opened". -/
  opened : Bool
  deriving DecidableEq, Repr

/-- Unit RB (R11, R12), with its ghost flag (R125). -/
structure RbUnit where
  buf : Memory
  scratch : Memory
  testSlot : Memory
  capacity : Nat
  mask : Nat
  wr : Nat
  rd : Nat
  /-- the ghost flag "RB initialised". -/
  ready : Bool
  deriving DecidableEq, Repr

/-- Unit TX (R13, R14). -/
structure TxUnit where
  buf : Memory
  len : Nat
  idx : Nat
  state : TxState
  busy : Bool
  txblIen : Bool
  txcIen : Bool
  deriving DecidableEq, Repr

/-- Unit RX (R15, R16). -/
structure RxUnit where
  buf : Memory
  idx : Nat
  state : RxState
  startByte : Byte
  sigByte : Byte
  block : Bool
  deriving DecidableEq, Repr

/-- Unit TW (R17 to R19). -/
structure TwUnit where
  state : TwState
  addr : TwAddr
  cmd : Byte
  isRead : Bool
  nbytes : Nat
  result : Word32
  busBusy : Bool
  deriving DecidableEq, Repr

/-- The scheduled-event set SCH (R20), with its ghost flag (R125). -/
structure EvUnit where
  mask : EventMask
  /-- the ghost flag "SCH opened". -/
  opened : Bool
  deriving DecidableEq, Repr

/-- The outcome marks (R21). -/
structure SysMarks where
  fault : Option Fault
  refused : Option Refusal
  deriving DecidableEq, Repr

/-- One line of a stimulus script: who issues it, and the stimulus (log 4). -/
structure ScriptLine where
  agent : Agent
  stim : Stimulus
  deriving DecidableEq, Repr

/-- The state of the block. `cfg`, `script` and `ret` are the model's own fields (logs 1, 4, 10). -/
structure State where
  /-- the configuration record, which no step changes (log 1). -/
  cfg : Config
  /-- the stimuli still to be delivered, the next one first (log 4). -/
  script : List ScriptLine
  /-- the execution context: MAIN, or the peripheral whose event is being handled (R117, log 6). -/
  agent : Agent
  /-- `pwr.depth` (R10). -/
  pwrDepth : Nat
  em : EmUnit
  rb : RbUnit
  tx : TxUnit
  rx : RxUnit
  tw : TwUnit
  ev : EvUnit
  sys : SysMarks
  /-- `tx.line` (R22). -/
  txLine : List Byte
  /-- `tw.out` (R22). -/
  twOut : List BusAction
  /-- the value the last value-returning stimulus returned (log 10). -/
  ret : Option Ret
  deriving DecidableEq, Repr

/-- The state after reset under a configuration: 10_state.md R26. The values R26 gives: `pwrDepth`,
`tx.state`, `tx.busy`, both enables, `rx.state`, `tw.state`, `tw.busBusy`, the marks and the traces.
Everything else there is unspecified: DESIGN CHOICE (log 11), and guarded by the ghost flags and by
`rx.state = INIT` (R125); the byte stores list nothing (log 12). -/
def State.resetWith (c : Config) : State where
  cfg := c
  script := []
  agent := .main
  pwrDepth := 0
  em := { count := List.replicate c.nDepths 0, opened := false }
  rb := { buf := [], scratch := [], testSlot := [], capacity := 0, mask := 0, wr := 0, rd := 0,
          ready := false }
  tx := { buf := [], len := 0, idx := 0, state := .initial, busy := false, txblIen := false,
          txcIen := false }
  rx := { buf := [], idx := 0, state := .init, startByte := 0, sigByte := 0, block := false }
  tw := { state := .init, addr := 0, cmd := 0, isRead := false, nbytes := 0, result := 0,
          busBusy := false }
  ev := { mask := 0, opened := false }
  sys := { fault := none, refused := none }
  txLine := []
  twOut := []
  ret := none

/-- The state right after reset, in the configuration TC1 (log 1). -/
def State.reset : State := State.resetWith Config.tc1

/-- The outcome of one stimulus. -/
abbrev Result := Host.Outcome State Fault Refusal

end Sys2Proof.Machine
end

