-- ==== Sys2Proof/Machine/Flags.lean ====
section
/-! DEFINITION. Every flag computation: the event set (45_scheduler_and_externals.md R98, R99), the
transmitter's busy flag and enables (10_state.md R14), the receive gate (R16) and the bus state (R19). -/

namespace Sys2Proof.Machine

/-- `ev.mask | m` (R98). -/
def eventsAdd (mask m : EventMask) : EventMask := mask ||| m

/-- `ev.mask & ~m` (R99). -/
def eventsRemove (mask m : EventMask) : EventMask := mask &&& ~~~m

/-- The transmit flags after a start: busy, and the buffer-level interrupt enabled; the completion
enable is not written (R74). -/
def txFlagsStart (u : TxUnit) : TxUnit := { u with busy := true, txblIen := true }

/-- The transmit flags once the last byte has been handed over (R76). -/
def txFlagsHandedOver (u : TxUnit) : TxUnit := { u with txblIen := false, txcIen := true }

/-- The transmit flags once the transmit is complete (R77). -/
def txFlagsComplete (u : TxUnit) : TxUnit := { u with txcIen := false, busy := false }

/-- Receive-blocking: while it is set, bytes outside a frame are dropped (R16). -/
def rxFlagBlock (on : Bool) (u : RxUnit) : RxUnit := { u with block := on }

/-- The busy or idle bus state (R19). -/
def twFlagBusy (on : Bool) (u : TwUnit) : TwUnit := { u with busBusy := on }

end Sys2Proof.Machine
end

