-- ==== Sys2Proof/Machine/Operands.lean ====
section
/-! DEFINITION. Operand forms, addressing, the bytes and numbers a rule forms from its operands, and the
numeric values of the enumerations (30_encoding.md R47 to R57, 20_memory.md R29, 60_exceptions.md R109). -/

namespace Sys2Proof.Machine

/-- The depth operand of `EM.BLOCK` and `EM.UNBLOCK`: `imm8`, zero-extended (R47). -/
def depthOperand (d : Byte) : Nat := d.toNat

/-- The address byte on the two-wire bus: `tw.addr[6:0] ++ rw`, `rw` 0 for write-intent and 1 for
read-intent (R52; log 17). -/
def addressByte (addr : TwAddr) (read : Bool) : Byte := addr ++ BitVec.ofBool read

/-- The header of a ring frame: payload length plus one (R50). -/
def frameHeader (payload : List Byte) : Byte := BitVec.ofNat 8 (payload.length + 1)

/-- A ring cursor after one access: `(c + 1) & rb.mask` (R29). -/
def ringNext (mask c : Nat) : Nat := (c + 1) &&& mask

/-- `z & mask` in two's complement, `z` any integer: the bits of `-1 - n` are those `n` has not. -/
def maskInt (mask : Nat) : Int → Nat
  | .ofNat n => n &&& mask
  | .negSucc n => mask - (n &&& mask)

/-- `(rb.wr - rb.rd) & rb.mask`, the subtraction on integers and the AND in two's complement (R69; log
23). -/
def ringUsed (mask wr rd : Nat) : Nat := maskInt mask ((wr : Int) - rd)

/-- The result slot after the first data byte: `zext_32(b) << 8` (R90). -/
def resultMsb (b : Byte) : Word32 := b.setWidth 32 <<< 8

/-- The result slot after the second data byte: `tw.result | zext_32(b)` (R90). -/
def resultLsb (r : Word32) (b : Byte) : Word32 := r ||| b.setWidth 32

/-- The numbers of the results of `RB.POP` (R57). -/
def PopResult.code : PopResult → Nat
  | .empty => 0
  | .notReady => 1
  | .consumed => 2

/-- The numbers of `tx.state` (R56). -/
def TxState.code : TxState → Nat
  | .initial => 0
  | .sendChar => 1
  | .waitTxc => 2
  | .finish => 3

/-- The numbers of `rx.state` (R56). -/
def RxState.code : RxState → Nat
  | .init => 0
  | .idle => 1
  | .started => 2
  | .receiving => 3
  | .finished => 4

/-- The numbers of `tw.state` (R56). -/
def TwState.code : TwState → Nat
  | .init => 0
  | .sendMeasure => 1
  | .sendRead => 2
  | .wack3 => 3
  | .getMsb => 4
  | .getLsbStop => 5
  | .endState => 6

/-- The fault codes of R109; the model's own fault has none. -/
def Fault.code : Fault → Option Nat
  | .twAckState => some 1
  | .twNackState => some 2
  | .twRxdataState => some 3
  | .twMstopState => some 4
  | .twBusNotIdle => some 5
  | .txTxblState => some 6
  | .txTxcState => some 7
  | .rbOverflow => some 8
  | .emCeilingHit => some 9
  | .emUnderflow => some 10
  | .rxOverflow => some 11
  | .selftestFail => some 12
  | .indexRange => none

/-- The class of a fault: 1 protocol sequence, 2 resource exhaustion, 3 precondition (R109). -/
def Fault.faultClass : Fault → Option Nat
  | .twAckState | .twNackState | .twRxdataState | .twMstopState | .txTxblState | .txTxcState => some 1
  | .rbOverflow | .emCeilingHit | .emUnderflow | .rxOverflow => some 2
  | .twBusNotIdle => some 3
  | .selftestFail | .indexRange => none

end Sys2Proof.Machine
end

