-- ==== Sys2Proof/Machine/Ops.lean ====
section
/-! DEFINITION. The named operations over the byte stores and the state that the meanings share: stores,
contexts and the interrupt entry and return, the arbiter's and the event set's inner operations, raising
and keeping a fault, and taking the next line of the script. -/

namespace Sys2Proof.Machine

/-! ## Byte stores (20_memory.md R27 to R30, R42; log 12) -/

/-- The byte at an index, none if nothing has written it (R42). -/
def Memory.read : Memory → Nat → Option Byte
  | [], _ => none
  | (j, b) :: rest, i => if i = j then some b else Memory.read rest i

/-- Write one byte, keeping the addresses strictly rising. -/
def Memory.write (i : Nat) (b : Byte) : Memory → Memory
  | [] => [(i, b)]
  | (j, c) :: rest =>
    if i < j then (i, b) :: (j, c) :: rest
    else if i = j then (i, b) :: rest
    else (j, c) :: Memory.write i b rest

/-- The canonical form: addresses strictly rising. An unlisted address has no value, so no entry can
equal what it reads as. -/
def Memory.wf : Memory → Bool
  | [] => true
  | [_] => true
  | (i, _) :: (j, c) :: rest => decide (i < j) && Memory.wf ((j, c) :: rest)

/-- Every listed address is below the store's size (R27). -/
abbrev Memory.Below (size : Nat) (m : Memory) : Prop := ∀ cell ∈ m, cell.1 < size

/-- Write bytes at consecutive indices from `i` on, without wrap (R30). -/
def Memory.writeList : Nat → List Byte → Memory → Memory
  | _, [], m => m
  | i, b :: rest, m => Memory.writeList (i + 1) rest (Memory.write i b m)

/-- Store one byte in a store of the given size; none past its end (log 13). -/
def Memory.store (size i : Nat) (b : Byte) (m : Memory) : Option Memory :=
  if i < size then some (Memory.write i b m) else none

/-- Read `n` bytes from a ring cursor on: the bytes, and the cursor after them (R29). None if one of
them has never been written. -/
def ringRead (m : Memory) (mask : Nat) : Nat → Nat → Option (List Byte × Nat)
  | 0, c => some ([], c)
  | n + 1, c =>
    match Memory.read m c with
    | none => none
    | some b =>
      match ringRead m mask n (ringNext mask c) with
      | none => none
      | some (bs, c') => some (b :: bs, c')

/-- Write bytes from a ring cursor on: the store, and the cursor after them (R29). None if a cursor
lies past the store's end (log 13). -/
def ringWrite (size mask : Nat) : List Byte → Memory → Nat → Option (Memory × Nat)
  | [], m, c => some (m, c)
  | b :: rest, m, c =>
    match Memory.store size c b m with
    | none => none
    | some m' => ringWrite size mask rest m' (ringNext mask c)

/-! ## Outcomes, contexts, interrupt entry and return -/

/-- Go on from a next state; a fault or a refusal ends the step (60_exceptions.md R108, R111). -/
def andThen (r : Result) (k : State → Result) : Result :=
  match r with
  | .next s => k s
  | .fault c => .fault c
  | .refused c => .refused c

/-- Record the value a stimulus returns (log 10). -/
def State.setRet (s : State) (r : Ret) : State := { s with ret := some r }

/-- A MAIN operation: issued by MAIN, which has a step only while `pwr.depth = 0` (30_encoding.md R46,
40_energy_arbiter.md R65; logs 7, 8). -/
def asMain (s : State) (k : State → Result) : Result :=
  if s.agent ≠ .main then .refused .wrongAgent
  else if s.pwrDepth ≠ 0 then .refused .mainAsleep
  else k s

/-- A ring-buffer operation: MAIN's, and `RB_FROM_ISR` from any other agent (20_memory.md R35). -/
def asMainRing (s : State) (k : State → Result) : Result :=
  if s.agent ≠ .main then .refused .rbFromIsr else asMain s k

/-- Entering an interrupt wakes the processor: `pwr.depth <- 0` (40_energy_arbiter.md R65,
60_exceptions.md R115; log 15). Nothing is saved. -/
def State.wake (s : State) : State := { s with pwrDepth := 0 }

/-- Returning from an interrupt: the main context resumes, and there is nothing to restore
(60_exceptions.md R116; log 6). -/
def State.returnToMain (s : State) : State := { s with agent := .main }

/-- An event delivered by the agent `a`: its own rule, then the return to the main context (R115, R116).
The wake is part of the rule, because a dropped `RX.LINE` byte raises no interrupt (R65). -/
def asEvent (a : Agent) (s : State) (k : State → Result) : Result :=
  if s.agent ≠ a then .refused .wrongAgent else andThen (k s) fun t => .next t.returnToMain

/-! ## The arbiter's table (40_energy_arbiter.md R60 to R65) -/

/-- `em.count[d]` (log 26). -/
def State.countAt (s : State) (d : Nat) : Nat := s.em.count.getD d 0

/-- Write `em.count[d]`. -/
def State.setCount (s : State) (d n : Nat) : State :=
  { s with em := { s.em with count := s.em.count.set d n } }

/-- `EM.BLOCK(d)` as a part of a step (R61). -/
def blockDepth (d : Nat) (s : State) : Result :=
  if s.cfg.nDepths ≤ d then .refused .emDepthRange
  else if s.em.opened = false then .refused .uninitialised
  else if s.countAt d + 1 < s.cfg.emCeiling then .next (s.setCount d (s.countAt d + 1))
  else .fault .emCeilingHit

/-- `EM.UNBLOCK(d)` as a part of a step (R62). -/
def unblockDepth (d : Nat) (s : State) : Result :=
  if s.cfg.nDepths ≤ d then .refused .emDepthRange
  else if s.em.opened = false then .refused .uninitialised
  else if 1 ≤ s.countAt d then .next (s.setCount d (s.countAt d - 1))
  else .fault .emUnderflow

/-- `current_floor()`: the first depth with a non-zero count, the deepest depth if there is none
(R63). -/
def State.floor (s : State) : Nat :=
  (s.em.count.findIdx? (· ≠ 0)).getD (s.cfg.nDepths - 1)

/-- The depth `EM.SLEEP` enters: `max(0, floor - 1)` (R64; log 14). -/
def State.sleepTarget (s : State) : Nat := s.floor - 1

/-! ## The event set (45_scheduler_and_externals.md R98) -/

/-- `post(m)`: `SCH.ADD m` as a part of a step (R98). -/
def post (m : EventMask) (s : State) : Result :=
  if s.ev.opened = false then .refused .uninitialised
  else .next { s with ev := { s.ev with mask := eventsAdd s.ev.mask m } }

/-! ## Outputs (10_state.md R22) -/

/-- `emit tx.line, b`. -/
def State.emitLine (s : State) (b : Byte) : State := { s with txLine := s.txLine ++ [b] }

/-- `emit tw.out, ...`. -/
def State.emitBus (s : State) (acts : List BusAction) : State := { s with twOut := s.twOut ++ acts }

/-! ## Faults and refusals as marks (10_state.md R21, 60_exceptions.md R108, R111; log 9) -/

/-- The step in hand is an event step: its line comes from an environment agent. -/
def State.inEventStep (s : State) : Bool :=
  match s.script with
  | [] => false
  | line :: _ => line.agent != .main

/-- The state a `raise Fatal(code)` leaves: the fault is marked if none was, no other write is kept,
except that an event step has already woken the processor (R108). -/
def State.raiseFault (s : State) (c : Fault) : State :=
  let woken := if s.sys.fault = none ∧ s.inEventStep then s.wake else s
  { woken with sys := { s.sys with fault := s.sys.fault.or (some c) } }

/-- The state a `refuse(reason)` leaves: the reason is marked if none was, nothing else is written
(R111). -/
def State.markRefused (s : State) (c : Refusal) : State :=
  { s with sys := { s.sys with refused := s.sys.refused.or (some c) } }

/-- The state a step leaves, whatever its outcome (R108, R111; log 9). -/
def settle (s : State) : Result → State
  | .next t => t
  | .fault c => s.raiseFault c
  | .refused c => s.markRefused c

/-! ## Taking the next stimulus -/

/-- What keeps every agent from a step: a configuration that breaks 00_scope.md R7, a marked fault, a
marked refusal (10_state.md R21). -/
def State.stopped (s : State) : Option Result :=
  if ¬ s.cfg.Valid then some (.refused .configInvalid)
  else match s.sys.fault, s.sys.refused with
    | some c, _ => some (.fault c)
    | none, some c => some (.refused c)
    | none, none => none

/-- The next line of the script and the state in which it runs: the line is taken off the script and
its agent is the context (log 4, log 6). -/
def State.nextLine (s : State) : Option (Stimulus × State) :=
  match s.script with
  | [] => none
  | line :: rest => some (line.stim, { s with script := rest, agent := line.agent })

/-- Put a stimulus at the head of the script (log 4). -/
def State.deliver (s : State) (line : ScriptLine) : State := { s with script := line :: s.script }

end Sys2Proof.Machine
end

