-- ==== Sys2Proof/Machine/Em.lean ====
section
/-! DEFINITION. Unit EM, the energy-mode arbiter: the meanings of 40_energy_arbiter.md R60 to R64. -/

namespace Sys2Proof.Machine

/-- `EM.OPEN` (R60): zero all counts; the ghost flag "EM opened" is set (70_reset_and_hazards.md R125). -/
def execEmOpen (s : State) : Result :=
  asMain s fun s =>
    .next { s with em := { count := List.replicate s.cfg.nDepths 0, opened := true } }

/-- `EM.BLOCK d` (R61). -/
def execEmBlock (d : Byte) (s : State) : Result :=
  asMain s fun s => blockDepth (depthOperand d) s

/-- `EM.UNBLOCK d` (R62). -/
def execEmUnblock (d : Byte) (s : State) : Result :=
  asMain s fun s => unblockDepth (depthOperand d) s

/-- `EM.FLOOR` (R63): pure, returns a depth index. -/
def execEmFloor (s : State) : Result :=
  asMain s fun s =>
    if s.em.opened = false then .refused .uninitialised else .next (s.setRet (.depth s.floor))

/-- `EM.SLEEP` (R64): a target of 0 is a no-op, another is the depth entered. -/
def execEmSleep (s : State) : Result :=
  asMain s fun s =>
    if s.em.opened = false then .refused .uninitialised
    else if s.sleepTarget = 0 then .next s
    else .next { s with pwrDepth := s.sleepTarget }

end Sys2Proof.Machine
end

