-- ==== Sys2Proof/Machine/Tx.lean ====
section
/-! DEFINITION. Unit TX, the serial line transmitter: the meanings of 42_serial_tx.md R74 to R77. -/

namespace Sys2Proof.Machine

/-- `TX.START(text)` as a part of a step (R74): the refusals, the inner `EM.BLOCK`, then the writes. -/
def startTransmit (text : List Byte) (s : State) : Result :=
  if s.tx.busy then .refused .txStartWhileBusy
  else if s.cfg.txBufSize < text.length + 1 then .refused .txTextTooLong
  else if text.contains 0 then .refused .payloadHasZeroByte
  else andThen (blockDepth s.cfg.txBlockDepth s) fun s =>
    .next { s with
      tx := txFlagsStart { s.tx with
        buf := Memory.writeList 0 text s.tx.buf, len := text.length, idx := 0, state := .sendChar } }

/-- The byte `TX.TXBL` hands over, if one is left: it is emitted and the index advances (R76). None if
the byte at the index has never been written (log 12). -/
def transmitByte (s : State) : Option State :=
  if s.tx.idx < s.tx.len then
    match Memory.read s.tx.buf s.tx.idx with
    | none => none
    | some b => some ({ s with tx := { s.tx with idx := s.tx.idx + 1 } }.emitLine b)
  else some s

/-- The test made in the same service call, after the advance (R76; log 21). -/
def endOfText (s : State) : State :=
  if s.tx.idx = s.tx.len then
    { s with tx := txFlagsHandedOver { s.tx with state := .waitTxc } }
  else s

/-- `TX.START text` (R74). -/
def execTxStart (text : List Byte) (s : State) : Result :=
  asMain s fun s => startTransmit text s

/-- `TX.BUSY` (R75): pure, returns the busy flag. -/
def execTxBusy (s : State) : Result :=
  asMain s fun s => .next (s.setRet (.busy s.tx.busy))

/-- `TX.TXBL` (R76). The enable `tx.txbl_ien` gates the peripheral, not the rule (R78; log 18). -/
def execTxTxbl (s : State) : Result :=
  asEvent .serial s fun s =>
    if s.tx.state ≠ .sendChar then .fault .txTxblState
    else match transmitByte s.wake with
      | none => .refused .uninitialised
      | some t => .next (endOfText t)

/-- `TX.TXC` (R77). The enable `tx.txc_ien` gates the peripheral, not the rule (R78; log 18). -/
def execTxTxc (s : State) : Result :=
  asEvent .serial s fun s =>
    if s.tx.state ≠ .waitTxc then .fault .txTxcState
    else andThen (unblockDepth s.cfg.txBlockDepth { s.wake with tx := txFlagsComplete s.tx }) fun s =>
      andThen (post s.cfg.evtTxDone s) fun s =>
        .next { s with tx := { s.tx with state := .finish } }

end Sys2Proof.Machine
end

