-- ==== Sys2Proof/Machine/Rb.lean ====
section
/-! DEFINITION. Unit RB, the framed ring buffer: the meanings of 41_ring_buffer.md R68 to R71 and the
ghost functions of R69 and R72. -/

namespace Sys2Proof.Machine

/-- The ghost function `used` (R69). -/
def RbUnit.used (u : RbUnit) : Nat := ringUsed u.mask u.wr u.rd

/-- `space_available()`: `rb.capacity - used - 1` (R69; log 23). -/
def RbUnit.space (u : RbUnit) : Nat := u.capacity - u.used - 1

/-- The bytes between `rb.rd` and `rb.wr` in cursor order, none if one has never been written (R42). -/
def RbUnit.live (u : RbUnit) : Option (List Byte) := (ringRead u.buf u.mask u.used u.rd).map (·.1)

/-- Cut a list of bytes into frames: a header `h`, then `h - 1` payload bytes (R50). None if it is no
concatenation of whole frames. The first argument bounds the number of frames. -/
def cutFrames : Nat → List Byte → Option (List (List Byte))
  | _, [] => some []
  | 0, _ :: _ => none
  | fuel + 1, h :: rest =>
    if h = 0 ∨ rest.length < h.toNat - 1 then none
    else (cutFrames fuel (rest.drop (h.toNat - 1))).map (rest.take (h.toNat - 1) :: ·)

/-- The ghost function `frames`: the pending payloads, oldest first (R72). -/
def RbUnit.frames (u : RbUnit) : Option (List (List Byte)) :=
  match u.live with
  | none => none
  | some bytes => cutFrames bytes.length bytes

/-- The bytes of a frame: the header, then the payload (R50). -/
def frameBytes (payload : List Byte) : List Byte := frameHeader payload :: payload

/-- The frame at the read cursor: its payload and the cursor after it, or why there is none (R71). -/
def headFrame (s : State) : Except Refusal (List Byte × Nat) :=
  match Memory.read s.rb.buf s.rb.rd with
  | none => .error .uninitialised
  | some h =>
    if h = 0 then .error .rbHeaderZero
    else if s.cfg.scratchSize < h.toNat then .error .rbFrameExceedsScratch
    else match ringRead s.rb.buf s.rb.mask (h.toNat - 1) (ringNext s.rb.mask s.rb.rd) with
      | none => .error .uninitialised
      | some (payload, cursor) => .ok (payload, cursor)

/-- The ring after a pop of `payload`: the read cursor past the frame, and the scratch buffer holding
the payload and its terminator (R71). -/
def takeFrame (payload : List Byte) (cursor : Nat) (s : State) : State :=
  { s with rb := { s.rb with
      rd := cursor, scratch := Memory.writeList 0 (payload ++ [0]) s.rb.scratch } }

/-- Test mode: the terminated scratch buffer copied to the inspection slot (R71). -/
def copyToTestSlot (payload : List Byte) (s : State) : State :=
  { s with rb := { s.rb with testSlot := Memory.writeList 0 (payload ++ [0]) s.rb.testSlot } }

/-- `RB.INIT` (R68); the ghost flag "RB initialised" is set (70_reset_and_hazards.md R125). -/
def execRbInit (s : State) : Result :=
  asMainRing s fun s =>
    .next { s with rb := { s.rb with
      capacity := s.cfg.capacity, mask := s.cfg.capacity - 1, wr := 0, rd := 0, ready := true } }

/-- `RB.SPACE` (R69): pure, returns a number. -/
def execRbSpace (s : State) : Result :=
  asMainRing s fun s =>
    if s.rb.ready = false then .refused .uninitialised else .next (s.setRet (.space s.rb.space))

/-- `RB.PUSH payload` (R70). -/
def execRbPush (payload : List Byte) (s : State) : Result :=
  asMainRing s fun s =>
    if payload.contains 0 then .refused .payloadHasZeroByte
    else if s.rb.ready = false then .refused .uninitialised
    else if s.rb.space < payload.length + 1 then .fault .rbOverflow
    else match ringWrite s.cfg.capacity s.rb.mask (frameBytes payload) s.rb.buf s.rb.wr with
      | none => .fault .indexRange
      | some (buf, cursor) => .next { s with rb := { s.rb with buf := buf, wr := cursor } }

/-- `RB.POP t` (R71): the empty test, the busy test, then one frame to the inspection slot (test mode)
or to the transmitter (normal mode). -/
def execRbPop (t : Bool) (s : State) : Result :=
  asMainRing s fun s =>
    if s.rb.ready = false then .refused .uninitialised
    else if s.rb.wr = s.rb.rd then .next (s.setRet (.popped .empty))
    else if s.tx.busy then .next (s.setRet (.popped .notReady))
    else match headFrame s with
      | .error c => .refused c
      | .ok (payload, cursor) =>
        if t then .next ((copyToTestSlot payload (takeFrame payload cursor s)).setRet (.popped .consumed))
        else andThen (startTransmit payload (takeFrame payload cursor s)) fun s =>
          .next (s.setRet (.popped .consumed))

end Sys2Proof.Machine
end

