-- ==== Sys2Proof/Machine/Rx.lean ====
section
/-! DEFINITION. Unit RX, the serial line receiver: the meanings of 43_serial_rx.md R80 to R84. -/

namespace Sys2Proof.Machine

/-- What `RX.STARTF` does inside a step: the gate, the wake, the start byte stored at index 0 (R82). -/
def receiveStart (s : State) : Result :=
  if s.rx.state = .init then .refused .uninitialised
  else if s.rx.block = false then .refused .rxEventGate
  else match Memory.store s.cfg.rxBufSize 0 s.rx.startByte s.rx.buf with
    | none => .fault .indexRange
    | some buf =>
      .next { s.wake with rx := rxFlagBlock false { s.rx with buf := buf, idx := 1, state := .started } }

/-- What `RX.RXDATAV b` does inside a step: the gate, the wake, the overflow assertion, the byte stored
at the index, which advances (R83; log 20). -/
def receiveByte (b : Byte) (s : State) : Result :=
  if s.rx.state = .init then .refused .uninitialised
  else if s.rx.block then .refused .rxEventGate
  else if s.cfg.rxBufSize < s.rx.idx + 2 then .fault .rxOverflow
  else match Memory.store s.cfg.rxBufSize s.rx.idx b s.rx.buf with
    | none => .fault .indexRange
    | some buf =>
      .next { s.wake with rx := { s.rx with buf := buf, idx := s.rx.idx + 1, state := .receiving } }

/-- What `RX.SIGF` does inside a step: the gate, the wake, the terminator, the post, the receiver armed
again (R84). -/
def receiveSignal (s : State) : Result :=
  if s.rx.state = .init then .refused .uninitialised
  else if s.rx.block then .refused .rxEventGate
  else match Memory.store s.cfg.rxBufSize s.rx.idx 0 s.rx.buf with
    | none => .fault .indexRange
    | some buf =>
      andThen (post s.cfg.evtRxDone s.wake) fun t =>
        .next { t with rx := rxFlagBlock true { t.rx with buf := buf, idx := 0, state := .finished } }

/-- `RX.OPEN` (R80). -/
def execRxOpen (s : State) : Result :=
  asMain s fun s =>
    .next { s with rx := rxFlagBlock true { s.rx with
      startByte := s.cfg.rxStartByte, sigByte := s.cfg.rxSigByte, idx := 0, state := .idle } }

/-- `RX.LINE b` (R81): the hardware framing. A byte dropped while receive-blocking is on changes
nothing, raises no interrupt and does not wake (40_energy_arbiter.md R65). -/
def execRxLine (b : Byte) (s : State) : Result :=
  asEvent .serial s fun s =>
    if s.rx.state = .init then .refused .uninitialised
    else if s.rx.block then
      if b = s.rx.startByte then receiveStart s else .next s
    else if b = s.rx.sigByte then receiveSignal s
    else if b = s.rx.startByte then .refused .rxStartInFrame
    else receiveByte b s

/-- `RX.STARTF` (R82). -/
def execRxStartf (s : State) : Result := asEvent .serial s fun s => receiveStart s

/-- `RX.RXDATAV b` (R83). -/
def execRxRxdatav (b : Byte) (s : State) : Result := asEvent .serial s fun s => receiveByte b s

/-- `RX.SIGF` (R84). -/
def execRxSigf (s : State) : Result := asEvent .serial s fun s => receiveSignal s

end Sys2Proof.Machine
end

