-- ==== Sys2Proof/Machine/Sch.lean ====
section
/-! DEFINITION. The scheduled-event set SCH: the meanings of 45_scheduler_and_externals.md R97 to R100. -/

namespace Sys2Proof.Machine

/-- `SCH.OPEN` (R97): the boot reset of the event set; the ghost flag "SCH opened" is set
(70_reset_and_hazards.md R125). -/
def execSchOpen (s : State) : Result :=
  asMain s fun s => .next { s with ev := { mask := 0, opened := true } }

/-- `SCH.ADD m` (R98): by MAIN, or by the timer as an event step, which wakes first
(40_energy_arbiter.md R65, R102). -/
def execSchAdd (m : EventMask) (s : State) : Result :=
  match s.agent with
  | .timer => asEvent .timer s fun s => post m s.wake
  | _ => asMain s fun s => post m s

/-- `SCH.REMOVE m` (R99). -/
def execSchRemove (m : EventMask) (s : State) : Result :=
  asMain s fun s =>
    if s.ev.opened = false then .refused .uninitialised
    else .next { s with ev := { s.ev with mask := eventsRemove s.ev.mask m } }

/-- `SCH.GET` (R100): pure, returns the mask. -/
def execSchGet (s : State) : Result :=
  asMain s fun s =>
    if s.ev.opened = false then .refused .uninitialised
    else .next (s.setRet (.events s.ev.mask))

end Sys2Proof.Machine
end

