-- ==== Sys2Proof/Machine/Tw.lean ====
section
/-! DEFINITION. Unit TW, the two-wire sensor transaction machine: the meanings of 44_two_wire.md R87 to
R91. -/

namespace Sys2Proof.Machine

/-- The bus actions that address the device for reading: a (repeated) start and the read-address byte
(R88, R89; log 17). -/
def readAddress (s : State) : List BusAction := [.start, .tx (addressByte s.tw.addr true)]

/-- Move the machine to a state (R88 to R90). -/
def State.twGoto (s : State) (q : TwState) : State := { s with tw := { s.tw with state := q } }

/-- Write the result slot (R90). -/
def State.setResult (s : State) (r : Word32) : State := { s with tw := { s.tw with result := r } }

/-- `TW.START addr, cmd, rd, n` (R87): the refusals, the bus-idle assertion, the inner `EM.BLOCK`, then
the parameters, the bus actions and the state. -/
def execTwStart (addr : Nat) (cmd : Byte) (rd : Bool) (n : Nat) (s : State) : Result :=
  asMain s fun s =>
    if 0x7F < addr then .refused .twAddrRange
    else if rd ≠ true ∨ n ≠ 2 then .refused .twFormNotDescribed
    else if s.tw.busBusy then .fault .twBusNotIdle
    else andThen (blockDepth s.cfg.twBlockDepth s) fun s =>
      .next ({ s with
        tw := twFlagBusy true { s.tw with
          addr := BitVec.ofNat 7 addr, cmd := cmd, isRead := rd, nbytes := n,
          state := .sendMeasure } }.emitBus [.start, .tx (addressByte (BitVec.ofNat 7 addr) false)])

/-- `TW.ACK` (R88). -/
def execTwAck (s : State) : Result :=
  asEvent .twoWire s fun s =>
    match s.tw.state with
    | .sendMeasure => .next ((s.wake.emitBus [.tx s.tw.cmd]).twGoto .sendRead)
    | .sendRead => .next ((s.wake.emitBus (readAddress s)).twGoto .wack3)
    | .wack3 => .next (s.wake.twGoto .getMsb)
    | .init | .getMsb | .getLsbStop | .endState => .fault .twAckState

/-- `TW.NACK` (R89): the polling retry, unbounded. -/
def execTwNack (s : State) : Result :=
  asEvent .twoWire s fun s =>
    match s.tw.state with
    | .wack3 => .next ((s.wake.emitBus (readAddress s)).twGoto .wack3)
    | .init | .sendMeasure | .sendRead | .getMsb | .getLsbStop | .endState => .fault .twNackState

/-- `TW.RXDATAV b` (R90). -/
def execTwRxdatav (b : Byte) (s : State) : Result :=
  asEvent .twoWire s fun s =>
    match s.tw.state with
    | .getMsb => .next (((s.wake.setResult (resultMsb b)).emitBus [.ackCmd]).twGoto .getLsbStop)
    | .getLsbStop =>
      .next (((s.wake.setResult (resultLsb s.tw.result b)).emitBus [.nackCmd, .stopCmd]).twGoto .endState)
    | .init | .sendMeasure | .sendRead | .wack3 | .endState => .fault .twRxdataState

/-- `TW.MSTOP` (R91). -/
def execTwMstop (s : State) : Result :=
  asEvent .twoWire s fun s =>
    if s.tw.state ≠ .endState then .fault .twMstopState
    else andThen (unblockDepth s.cfg.twBlockDepth s.wake) fun s =>
      andThen (post s.cfg.evtTwDone s) fun s => .next { s with tw := twFlagBusy false s.tw }

end Sys2Proof.Machine
end

