-- ==== Sys2Proof/Machine/Dispatch.lean ====
section
/-! DEFINITION. One arm per stimulus of 30_encoding.md R46. -/

namespace Sys2Proof.Machine

def exec (i : Instr) (s : State) : Host.Outcome State Fault Refusal :=
  match i with
  | .emOpen => Sys2Proof.Machine.execEmOpen s
  | .emBlock d => Sys2Proof.Machine.execEmBlock d s
  | .emUnblock d => Sys2Proof.Machine.execEmUnblock d s
  | .emFloor => Sys2Proof.Machine.execEmFloor s
  | .emSleep => Sys2Proof.Machine.execEmSleep s
  | .rbInit => Sys2Proof.Machine.execRbInit s
  | .rbSpace => Sys2Proof.Machine.execRbSpace s
  | .rbPush payload => Sys2Proof.Machine.execRbPush payload s
  | .rbPop t => Sys2Proof.Machine.execRbPop t s
  | .txStart text => Sys2Proof.Machine.execTxStart text s
  | .txBusy => Sys2Proof.Machine.execTxBusy s
  | .txTxbl => Sys2Proof.Machine.execTxTxbl s
  | .txTxc => Sys2Proof.Machine.execTxTxc s
  | .rxOpen => Sys2Proof.Machine.execRxOpen s
  | .rxLine b => Sys2Proof.Machine.execRxLine b s
  | .rxStartf => Sys2Proof.Machine.execRxStartf s
  | .rxRxdatav b => Sys2Proof.Machine.execRxRxdatav b s
  | .rxSigf => Sys2Proof.Machine.execRxSigf s
  | .twStart addr cmd rd n => Sys2Proof.Machine.execTwStart addr cmd rd n s
  | .twAck => Sys2Proof.Machine.execTwAck s
  | .twNack => Sys2Proof.Machine.execTwNack s
  | .twRxdatav b => Sys2Proof.Machine.execTwRxdatav b s
  | .twMstop => Sys2Proof.Machine.execTwMstop s
  | .schOpen => Sys2Proof.Machine.execSchOpen s
  | .schAdd m => Sys2Proof.Machine.execSchAdd m s
  | .schRemove m => Sys2Proof.Machine.execSchRemove m s
  | .schGet => Sys2Proof.Machine.execSchGet s

end Sys2Proof.Machine
end

