-- ==== Sys2Proof/Machine/Step.lean ====
section
/-! DEFINITION. One step: the next stimulus of the script, decoded and run (00_scope.md R8, 20_memory.md
R34). -/

namespace Sys2Proof.Machine

/-- One step. A stopped block stays stopped (10_state.md R21); with no stimulus to deliver the block
waits (log 5); a stimulus that decodes to none is refused (30_encoding.md R49). -/
def step (s : State) : Host.Outcome State Fault Refusal :=
  match s.stopped with
  | some r => r
  | none =>
    match s.nextLine with
    | none => .next s
    | some (w, t) =>
      match decode w with
      | .error _ => .refused .invalidSelector
      | .ok i => exec i t

/-- The state in which the next step runs the given table word, its operands zeros, from the agent that
issues it (log 4, log 25). -/
def State.withFetchWord (s : State) (_nbits w : Nat) : State :=
  s.deliver ⟨(stimulusOfWord w).agent, stimulusOfWord w⟩

end Sys2Proof.Machine
end

