-- ==== Sys2Proof/Safety.lean ====
section
/-! DEFINITION. The terms in which claims speak of the block: when an operation can run, what a floor is,
the invariants of a run, and the contracts the environment keeps. -/

namespace Sys2Proof.Machine

/-- MAIN has a step: it issues the stimulus and the processor is awake (40_energy_arbiter.md R65). -/
abbrev State.MainReady (s : State) : Prop := s.agent = .main ∧ s.pwrDepth = 0

/-- `f` is the floor as 40_energy_arbiter.md R63 describes it: the first depth with a non-zero count, or
the deepest depth if there is none. -/
def State.IsFloor (s : State) (f : Nat) : Prop :=
  (f < s.cfg.nDepths ∧ s.countAt f ≠ 0 ∧ ∀ d < f, s.countAt d = 0)
  ∨ ((∀ d < s.cfg.nDepths, s.countAt d = 0) ∧ f + 1 = s.cfg.nDepths)

/-! ## Invariants -/

/-- The byte stores keep their canonical form and hold nothing past their end (20_memory.md R27; logs 12,
13). -/
abbrev State.StoresCanonical (s : State) : Prop :=
  (Memory.wf s.rb.buf ∧ Memory.Below s.cfg.capacity s.rb.buf)
  ∧ (Memory.wf s.rb.scratch ∧ Memory.Below s.cfg.scratchSize s.rb.scratch)
  ∧ (Memory.wf s.rb.testSlot ∧ Memory.Below s.cfg.scratchSize s.rb.testSlot)
  ∧ (Memory.wf s.tx.buf ∧ Memory.Below s.cfg.txBufSize s.tx.buf)
  ∧ (Memory.wf s.rx.buf ∧ Memory.Below s.cfg.rxBufSize s.rx.buf)

/-- The arbiter's table: one count per depth, each below the ceiling (10_state.md R9, 40_energy_arbiter.md
R66). A processor asleep is in a depth strictly shallower than the floor (R64, R10). -/
abbrev State.ArbiterInv (s : State) : Prop :=
  s.em.count.length = s.cfg.nDepths ∧ (∀ n ∈ s.em.count, n < s.cfg.emCeiling)
  ∧ (s.pwrDepth = 0 ∨ s.pwrDepth < s.floor)

/-- The ring buffer, once initialised: its size fields are the configured ones, its cursors lie inside,
and the live bytes are whole frames of non-zero payload bytes (41_ring_buffer.md R72, R73). -/
abbrev State.RingInv (s : State) : Prop :=
  s.rb.ready = true →
    s.rb.capacity = s.cfg.capacity ∧ s.rb.mask = s.cfg.capacity - 1
    ∧ s.rb.wr < s.cfg.capacity ∧ s.rb.rd < s.cfg.capacity
    ∧ s.rb.frames.any (·.all fun p => !p.contains 0) = true

/-- The transmitter: `tx.busy` exactly in `SEND_CHAR` and `WAIT_TXC` (42_serial_tx.md R79), each enable
exactly in its state (10_state.md R14), and the index within the text, whose bytes are in the buffer. -/
abbrev State.TransmitterInv (s : State) : Prop :=
  s.tx.busy = (s.tx.state == .sendChar || s.tx.state == .waitTxc)
  ∧ s.tx.txblIen = (s.tx.state == .sendChar) ∧ s.tx.txcIen = (s.tx.state == .waitTxc)
  ∧ s.tx.idx ≤ s.tx.len
  ∧ (s.tx.state ≠ .initial → s.tx.len < s.cfg.txBufSize)
  ∧ (s.tx.state = .sendChar → (s.tx.idx < s.tx.len ∨ s.tx.len = 0)
      ∧ ∀ i < s.tx.len, (Memory.read s.tx.buf i).isSome = true)
  ∧ (s.tx.state = .waitTxc ∨ s.tx.state = .finish → s.tx.idx = s.tx.len)

/-- The receiver, once opened: `rx.block` exactly in `IDLE` and `FINISHED` (43_serial_rx.md R85), the
configured sentinel bytes (10_state.md R16), and the index where the state says. -/
abbrev State.ReceiverInv (s : State) : Prop :=
  s.rx.state ≠ .init →
    s.rx.startByte = s.cfg.rxStartByte ∧ s.rx.sigByte = s.cfg.rxSigByte
    ∧ s.rx.block = (s.rx.state == .idle || s.rx.state == .finished)
    ∧ (s.rx.state = .idle ∨ s.rx.state = .finished → s.rx.idx = 0)
    ∧ (s.rx.state = .started → s.rx.idx = 1)
    ∧ (s.rx.state = .receiving → 2 ≤ s.rx.idx)
    ∧ s.rx.idx < s.cfg.rxBufSize
    ∧ (∀ i < s.rx.idx, (Memory.read s.rx.buf i).isSome = true)

/-- The two-wire machine: the bus is busy in every state between start and stop and idle in `INIT`
(44_two_wire.md R92), the parameters are the admitted ones (R95), and the result slot holds `msb << 8`
in `GET_LSB_STOP` and a 16-bit value in `END` (R94). -/
abbrev State.TwoWireInv (s : State) : Prop :=
  (s.tw.state ≠ .init ∧ s.tw.state ≠ .endState → s.tw.busBusy = true)
  ∧ (s.tw.state = .init → s.tw.busBusy = false)
  ∧ (s.tw.state ≠ .init → s.tw.isRead = true ∧ s.tw.nbytes = 2)
  ∧ (s.tw.state = .getLsbStop → s.tw.result &&& 0xFFFF00FF = 0)
  ∧ (s.tw.state = .endState → s.tw.result.toNat < 65536)

/-- Between two steps the block is in the main context and nothing is marked (60_exceptions.md R116,
10_state.md R21). -/
abbrev State.BetweenSteps (s : State) : Prop :=
  s.agent = .main ∧ s.sys.fault = none ∧ s.sys.refused = none

/-- How many units in flight hold a block on depth `d` (40_energy_arbiter.md R67). -/
def State.heldBlocks (s : State) (d : Nat) : Nat :=
  (if s.tx.busy = true ∧ s.cfg.txBlockDepth = d then 1 else 0)
  + (if s.tw.busBusy = true ∧ s.cfg.twBlockDepth = d then 1 else 0)

/-- Every unit in flight still holds its block (40_energy_arbiter.md R66 clause 3). -/
def State.BlocksHeld (s : State) : Prop := ∀ d, s.heldBlocks d ≤ s.countAt d

/-! ## Groups of stimuli -/

/-- The stimulus starts a transmit: `TX.START`, or `RB.POP` in normal mode through it (30_encoding.md
R59). -/
abbrev StartsTransmit (i : Instr) : Prop := (∃ p, i = .txStart p) ∨ i = .rbPop false

/-- The stimulus starts a two-wire transaction (44_two_wire.md R87). -/
abbrev StartsTransaction (i : Instr) : Prop := ∃ addr cmd rd n, i = .twStart addr cmd rd n

/-- The stimulus is a receive event, or a line byte that may be one (43_serial_rx.md R81 to R84). -/
abbrev Receives (i : Instr) : Prop :=
  (∃ b, i = .rxLine b) ∨ i = .rxStartf ∨ (∃ b, i = .rxRxdatav b) ∨ i = .rxSigf

/-! ## Contracts of the environment (42_serial_tx.md R78, 43_serial_rx.md R82 to R84, 44_two_wire.md R93).
They are premises of claims; the machine does not gate on them (log 18). -/

/-- The environment may deliver the stimulus in this state, by the contracts of the serial peripheral
and of the two-wire bus. -/
def State.Deliverable (s : State) : Instr → Bool
  | .txTxbl => s.tx.txblIen
  | .txTxc => s.tx.txcIen
  | .rxStartf => s.rx.block
  | .rxRxdatav _ | .rxSigf => !s.rx.block
  | .twAck | .twNack =>
    s.tw.busBusy && (s.tw.state == .sendMeasure || s.tw.state == .sendRead || s.tw.state == .wack3)
  | .twRxdatav _ => s.tw.busBusy && (s.tw.state == .getMsb || s.tw.state == .getLsbStop)
  | .twMstop => s.tw.busBusy && s.tw.state == .endState
  | .rxLine _ => true
  | .emOpen | .emBlock _ | .emUnblock _ | .emFloor | .emSleep | .rbInit | .rbSpace | .rbPush _
  | .rbPop _ | .txStart _ | .txBusy | .rxOpen | .twStart _ _ _ _ | .schOpen | .schAdd _
  | .schRemove _ | .schGet => true

/-! ## Runs -/

/-- The line by which an agent issues a stimulus. -/
def lineOf (a : Agent) (i : Instr) : ScriptLine := ⟨a, encode i⟩

/-- Run a script from a state: as many steps as the script has lines. -/
def runScript (lines : List ScriptLine) (s : State) : Result :=
  Sys2Proof.core.run lines.length { s with script := lines }

/-- The state after the boot sequence (70_reset_and_hazards.md R126, 10_state.md R26). -/
def State.booted (c : Config) : State :=
  { State.resetWith c with
    em := { count := List.replicate c.nDepths 0, opened := true }
    ev := { mask := 0, opened := true }
    rx := { buf := [], idx := 0, state := .idle, startByte := c.rxStartByte, sigByte := c.rxSigByte,
            block := true }
    rb := { buf := [], scratch := [], testSlot := [], capacity := c.capacity, mask := c.capacity - 1,
            wr := 0, rd := 0, ready := true } }

end Sys2Proof.Machine
end

