-- ==== Sys2Proof/Certificates/Slice0/Obligations.lean ====
section
/-! DEFINITION. The statements for the provers, from the numbered rules of spec/. Where a statement says
`t = { s with em := t.em }`, every other field of `t` is that of `s`: the frame. -/

open Sys2Proof Sys2Proof.Machine

/-! ## Encoding -/

/-- Decoding an encoded stimulus gives it back, whatever its operands (30_encoding.md section 1; the
selector is the spec's decision D20). -/
def Obligations.DecodingAnEncodedStimulusGivesItBack : Prop :=
  ∀ i : Instr, decode (encode i) = .ok i

/-- Each word has one meaning: what decodes to a stimulus is the encoding of that stimulus (30_encoding.md
section 1, D20). -/
def Obligations.EncodingADecodedStimulusGivesItsWordBack : Prop :=
  ∀ (w : Stimulus) (i : Instr), decode w = .ok i → encode i = w

/-- A selector is valid exactly when a row of the table admits it, at most one row does, and what it
decodes to has that row's mnemonic (30_encoding.md R46, R49; D20). -/
def Obligations.ASelectorIsValidExactlyWhenOneRowAdmitsIt : Prop :=
  ∀ sel : Selector,
    ((∃ ops i, decode ⟨sel, ops⟩ = .ok i) ↔ ∃ r ∈ stimulusTable, r.admits sel = true)
    ∧ (∀ r ∈ stimulusTable, ∀ r' ∈ stimulusTable,
        r.admits sel = true → r'.admits sel = true → r = r')
    ∧ ∀ ops i, decode ⟨sel, ops⟩ = .ok i →
        ∃ r ∈ stimulusTable, r.admits sel = true ∧ r.mnemonic = i.mnemonic

/-- Words written out from the table of 30_encoding.md R46, one or two of each unit, and the decoder
vectors of 95_test_vectors.md section 2.8 (D20). -/
def Obligations.WordsOfTheTableDecodeToTheirStimuli : Prop :=
  decode ⟨0x0103, []⟩ = .ok (.emBlock 3) ∧ decode ⟨0x0400, []⟩ = .ok .emSleep
  ∧ decode ⟨0x1301, []⟩ = .ok (.rbPop true)
  ∧ decode ⟨0x1200, [0x48, 0x69]⟩ = .ok (.rbPush [0x48, 0x69])
  ∧ decode ⟨0x2300, []⟩ = .ok .txTxc ∧ decode ⟨0x31FF, []⟩ = .ok (.rxLine 0xFF)
  ∧ decode ⟨0x4000, [0x40, 0xF3, 1, 2]⟩ = .ok (.twStart 0x40 0xF3 true 2)
  ∧ decode ⟨0x434E, []⟩ = .ok (.twRxdatav 0x4E)
  ∧ decode ⟨0x5200, [0x00000008]⟩ = .ok (.schRemove 0x00000008)
  ∧ decode ⟨0x1302, []⟩ = .error .popImmediate ∧ decode ⟨0x0001, []⟩ = .error .immNotZero
  ∧ decode ⟨0x6000, []⟩ = .error .reservedUnit ∧ decode ⟨0x0500, []⟩ = .error .reservedOp

/-! ## Steps -/

/-- A step takes the first line off the script, makes its agent the context, and runs the stimulus it
decodes to; a line that decodes to none is refused; with no line the block waits (00_scope.md R8,
20_memory.md R34, 30_encoding.md R49; the script, the context field and the waiting are the model's, logs
4, 5 and 6, and so is that a wrong operand tuple on a valid selector is refused as an invalid selector, log
25). -/
def Obligations.AStepRunsTheDecodedStimulus : Prop :=
  ∀ s : State, s.cfg.Valid → s.sys.fault = none → s.sys.refused = none →
    (∀ line rest i, s.script = line :: rest → decode line.stim = .ok i →
      step s = exec i { s with script := rest, agent := line.agent })
    ∧ (∀ line rest e, s.script = line :: rest → decode line.stim = .error e →
      step s = .refused .invalidSelector)
    ∧ (s.script = [] → step s = .next s)

/-- After a fault or a refusal its mark is set, nothing else has been written but the wake of an event
step that faults, and every later step ends the same way and writes nothing (60_exceptions.md R108, R111,
10_state.md R21; D17, D44, log 9). -/
def Obligations.AStoppedBlockStaysStopped : Prop :=
  ∀ s : State, s.cfg.Valid → s.sys.fault = none → s.sys.refused = none →
    (∀ c t, step s = .fault c → t = settle s (.fault c) →
      t.sys = { fault := some c, refused := none }
      ∧ t = { s with pwrDepth := t.pwrDepth, sys := t.sys }
      ∧ (∀ line rest, s.script = line :: rest →
          t.pwrDepth = if line.agent = .main then s.pwrDepth else 0)
      ∧ step t = .fault c ∧ settle t (.fault c) = t)
    ∧ (∀ c t, step s = .refused c → t = settle s (.refused c) →
      t = { s with sys := { fault := none, refused := some c } }
      ∧ step t = .refused c ∧ settle t (.refused c) = t)

/-- The values 10_state.md R26 gives at reset (decision D38). Every value R26 leaves unspecified is left
out here. -/
def Obligations.ResetLeavesTheStatedValues : Prop :=
  ∀ c : Config,
    (State.resetWith c).pwrDepth = 0 ∧ (State.resetWith c).agent = .main
    ∧ (State.resetWith c).tx.state = .initial ∧ (State.resetWith c).tx.busy = false
    ∧ (State.resetWith c).tx.txblIen = false ∧ (State.resetWith c).tx.txcIen = false
    ∧ (State.resetWith c).rx.state = .init ∧ (State.resetWith c).tw.state = .init
    ∧ (State.resetWith c).tw.busBusy = false
    ∧ (State.resetWith c).sys.fault = none ∧ (State.resetWith c).sys.refused = none
    ∧ (State.resetWith c).txLine = [] ∧ (State.resetWith c).twOut = []
    ∧ State.reset = State.resetWith Config.tc1

/-- A rule that would read state before the operation that initialises it is refused (60_exceptions.md
R111, 70_reset_and_hazards.md R125; decision D38), whoever issues it, and also where a composite stimulus
runs the rule as a part of its step (30_encoding.md R59). -/
def Obligations.AReadBeforeInitialisationIsRefused : Prop :=
  ∀ s : State,
    (s.em.opened = false →
      (s.MainReady →
        (∀ d : Byte, d.toNat < s.cfg.nDepths → exec (.emBlock d) s = .refused .uninitialised
          ∧ exec (.emUnblock d) s = .refused .uninitialised)
        ∧ (s.cfg.txBlockDepth < s.cfg.nDepths → s.tx.busy = false →
          ∀ p, NoZeroByte p → p.length + 1 ≤ s.cfg.txBufSize →
            exec (.txStart p) s = .refused .uninitialised)
        ∧ (s.cfg.txBlockDepth < s.cfg.nDepths → s.tx.busy = false → s.rb.ready = true →
          s.rb.wr ≠ s.rb.rd → ∀ p c, headFrame s = .ok (p, c) → NoZeroByte p →
            p.length + 1 ≤ s.cfg.txBufSize → exec (.rbPop false) s = .refused .uninitialised)
        ∧ (s.cfg.twBlockDepth < s.cfg.nDepths → s.tw.busBusy = false →
          ∀ addr cmd, addr ≤ 0x7F → exec (.twStart addr cmd true 2) s = .refused .uninitialised)
        ∧ exec .emFloor s = .refused .uninitialised ∧ exec .emSleep s = .refused .uninitialised)
      ∧ (s.agent = .serial → s.tx.state = .waitTxc → s.cfg.txBlockDepth < s.cfg.nDepths →
        exec .txTxc s = .refused .uninitialised)
      ∧ (s.agent = .twoWire → s.tw.state = .endState → s.cfg.twBlockDepth < s.cfg.nDepths →
        exec .twMstop s = .refused .uninitialised))
    ∧ (s.MainReady → s.rb.ready = false →
      exec .rbSpace s = .refused .uninitialised
      ∧ (∀ p, NoZeroByte p → exec (.rbPush p) s = .refused .uninitialised)
      ∧ ∀ t, exec (.rbPop t) s = .refused .uninitialised)
    ∧ (s.ev.opened = false →
      (s.MainReady ∨ s.agent = .timer → ∀ m, exec (.schAdd m) s = .refused .uninitialised)
      ∧ (s.MainReady → (∀ m, exec (.schRemove m) s = .refused .uninitialised)
        ∧ exec .schGet s = .refused .uninitialised)
      ∧ (s.agent = .serial → s.tx.state = .waitTxc → s.cfg.txBlockDepth < s.cfg.nDepths →
        s.em.opened = true → 1 ≤ s.countAt s.cfg.txBlockDepth →
        exec .txTxc s = .refused .uninitialised)
      ∧ (s.agent = .twoWire → s.tw.state = .endState → s.cfg.twBlockDepth < s.cfg.nDepths →
        s.em.opened = true → 1 ≤ s.countAt s.cfg.twBlockDepth →
        exec .twMstop s = .refused .uninitialised)
      ∧ (s.agent = .serial → s.rx.state ≠ .init → s.rx.block = false → s.rx.idx < s.cfg.rxBufSize →
        exec .rxSigf s = .refused .uninitialised
        ∧ exec (.rxLine s.rx.sigByte) s = .refused .uninitialised))
    ∧ (s.agent = .serial → s.rx.state = .init →
      (∀ b, exec (.rxLine b) s = .refused .uninitialised
        ∧ exec (.rxRxdatav b) s = .refused .uninitialised)
      ∧ exec .rxStartf s = .refused .uninitialised ∧ exec .rxSigf s = .refused .uninitialised)

/-- Who has no step: a stimulus from an agent that may not issue it is refused, a ring operation as
`RB_FROM_ISR` (20_memory.md R35), any other by the model's own refusal (log 7); and while the processor
sleeps each of MAIN's operations is refused (40_energy_arbiter.md R65, 60_exceptions.md R111; decision
D15). -/
def Obligations.AForeignAgentAndASleepingMainAreRefused : Prop :=
  ∀ (i : Instr) (s : State),
    (s.agent ∉ i.issuers →
      exec i s = .refused
        (match i with
          | .rbInit | .rbSpace | .rbPush _ | .rbPop _ => .rbFromIsr
          | _ => .wrongAgent))
    ∧ (.main ∈ i.issuers → s.agent = .main → 0 < s.pwrDepth → exec i s = .refused .mainAsleep)

/-- Every event step returns to the main context, and wakes the processor from whatever depth, but for a
byte that `RX.LINE` drops, which changes nothing else and does not wake (40_energy_arbiter.md R65,
60_exceptions.md R115, R116; decision D15, log 15). -/
def Obligations.AnEventStepWakesAndReturnsToMain : Prop :=
  ∀ (i : Instr) (s t : State), s.agent ≠ .main → exec i s = .next t →
    t.agent = .main
    ∧ (∀ b, i = .rxLine b → s.rx.block = true → b ≠ s.rx.startByte → t = { s with agent := .main })
    ∧ ((∀ b, i = .rxLine b → s.rx.block = true → b = s.rx.startByte) → t.pwrDepth = 0)

/-! ## Unit EM -/

/-- 40_energy_arbiter.md R60. -/
def Obligations.EmOpenZeroesEveryCount : Prop :=
  ∀ s : State, s.MainReady → ∃ t, exec .emOpen s = .next t
    ∧ (∀ d < s.cfg.nDepths, t.countAt d = 0) ∧ t.em.count.length = s.cfg.nDepths
    ∧ t.em.opened = true ∧ t = { s with em := t.em }
    ∧ ∀ d : Byte, d.toNat < s.cfg.nDepths → exec (.emUnblock d) t = .fault .emUnderflow

/-- 40_energy_arbiter.md R61 (decisions D16, D17). -/
def Obligations.EmBlockCountsUpOrHitsTheCeiling : Prop :=
  ∀ (s : State) (d : Byte), s.MainReady → s.em.opened = true →
    s.em.count.length = s.cfg.nDepths →
    (d.toNat < s.cfg.nDepths → s.countAt d.toNat + 1 < s.cfg.emCeiling →
      ∃ t, exec (.emBlock d) s = .next t ∧ t.countAt d.toNat = s.countAt d.toNat + 1
        ∧ (∀ e, e ≠ d.toNat → t.countAt e = s.countAt e)
        ∧ t = { s with em := t.em } ∧ t.em.opened = true ∧ t.em.count.length = s.cfg.nDepths)
    ∧ (d.toNat < s.cfg.nDepths → s.cfg.emCeiling ≤ s.countAt d.toNat + 1 →
      exec (.emBlock d) s = .fault .emCeilingHit)
    ∧ (s.cfg.nDepths ≤ d.toNat → exec (.emBlock d) s = .refused .emDepthRange)

/-- 40_energy_arbiter.md R62 (the refusal out of range is decision D16). -/
def Obligations.EmUnblockCountsDownOrUnderflows : Prop :=
  ∀ (s : State) (d : Byte), s.MainReady → s.em.opened = true →
    s.em.count.length = s.cfg.nDepths →
    (d.toNat < s.cfg.nDepths → 1 ≤ s.countAt d.toNat →
      ∃ t, exec (.emUnblock d) s = .next t ∧ t.countAt d.toNat = s.countAt d.toNat - 1
        ∧ (∀ e, e ≠ d.toNat → t.countAt e = s.countAt e)
        ∧ t = { s with em := t.em } ∧ t.em.opened = true ∧ t.em.count.length = s.cfg.nDepths
        ∧ (s.countAt d.toNat = 1 → exec (.emUnblock d) t = .fault .emUnderflow))
    ∧ (d.toNat < s.cfg.nDepths → s.countAt d.toNat = 0 →
      exec (.emUnblock d) s = .fault .emUnderflow)
    ∧ (s.cfg.nDepths ≤ d.toNat → exec (.emUnblock d) s = .refused .emDepthRange)

/-- 40_energy_arbiter.md R63: the first depth with a non-zero count, or the deepest depth if none is
found; nothing but the returned value is written. -/
def Obligations.EmFloorReturnsTheFirstBlockedDepth : Prop :=
  ∀ s : State, s.MainReady → s.em.opened = true → 0 < s.cfg.nDepths →
    s.em.count.length = s.cfg.nDepths →
    ∃ t f, exec .emFloor s = .next t ∧ t = { s with ret := some (.depth f) } ∧ s.IsFloor f
      ∧ ∀ g, s.IsFloor g → g = f

/-- 40_energy_arbiter.md R64 (decision D14, log 14): the depth entered is `max(0, floor - 1)`, so no
depth `d` with a non-zero count, none deeper than such a `d`, and never the deepest depth. All other
state survives (60_exceptions.md R119). -/
def Obligations.EmSleepEntersJustShallowerThanTheFloor : Prop :=
  ∀ (s : State) (f : Nat), s.MainReady → s.em.opened = true → 0 < s.cfg.nDepths →
    s.em.count.length = s.cfg.nDepths → s.IsFloor f →
    ∃ t, exec .emSleep s = .next t ∧ t = { s with pwrDepth := t.pwrDepth }
      ∧ t.pwrDepth = f - 1
      ∧ (∀ d < s.cfg.nDepths, s.countAt d ≠ 0 → t.pwrDepth = 0 ∨ t.pwrDepth < d)
      ∧ (t.pwrDepth = 0 ∨ t.pwrDepth + 1 < s.cfg.nDepths)

/-! ## Unit RB -/

/-- 41_ring_buffer.md R68. -/
def Obligations.RbInitSetsSizesAndZeroesCursors : Prop :=
  ∀ s : State, s.MainReady → ∃ t, exec .rbInit s = .next t
    ∧ t.rb.capacity = s.cfg.capacity ∧ t.rb.mask = s.cfg.capacity - 1
    ∧ t.rb.wr = 0 ∧ t.rb.rd = 0 ∧ t.rb.frames = some [] ∧ t.rb.ready = true
    ∧ t.rb.buf = s.rb.buf ∧ t.rb.scratch = s.rb.scratch ∧ t.rb.testSlot = s.rb.testSlot
    ∧ t = { s with rb := t.rb }

/-- 41_ring_buffer.md R69: the remainder of the cursors' distance, one byte always reserved. -/
def Obligations.RbSpaceReturnsTheFreeBytesButOne : Prop :=
  ∀ s : State, s.MainReady → s.rb.ready = true → s.cfg.Valid →
    s.rb.capacity = s.cfg.capacity → s.rb.mask = s.cfg.capacity - 1 →
    ∃ t n, exec .rbSpace s = .next t ∧ t = { s with ret := some (.space n) }
      ∧ (n : Int) = s.cfg.capacity - ((s.rb.wr : Int) - s.rb.rd) % s.cfg.capacity - 1
      ∧ n ≤ s.cfg.capacity - 1
      ∧ (s.rb.wr = s.rb.rd → n = s.cfg.capacity - 1)

/-- 41_ring_buffer.md R70 (decision D18): the header and the payload land at consecutive cursors modulo
the capacity, and every other byte of the ring, and everything else, stays. -/
def Obligations.RbPushWritesOneFrameAtTheWriteCursor : Prop :=
  ∀ (s : State) (p : List Byte), s.MainReady → s.cfg.Valid → s.rb.ready = true → s.RingInv →
    NoZeroByte p → p.length + 1 ≤ s.rb.space →
    ∃ t, exec (.rbPush p) s = .next t
      ∧ Memory.read t.rb.buf s.rb.wr = some (BitVec.ofNat 8 (p.length + 1)) ∧ p.length + 1 ≤ 255
      ∧ (∀ j < p.length, Memory.read t.rb.buf ((s.rb.wr + 1 + j) % s.cfg.capacity) = p[j]?)
      ∧ (∀ a, (∀ j ≤ p.length, a ≠ (s.rb.wr + j) % s.cfg.capacity) →
          Memory.read t.rb.buf a = Memory.read s.rb.buf a)
      ∧ t.rb.wr = (s.rb.wr + p.length + 1) % s.cfg.capacity
      ∧ t.rb.space + (p.length + 1) = s.rb.space
      ∧ t = { s with rb := { s.rb with buf := t.rb.buf, wr := t.rb.wr } }

/-- When `RB.PUSH` stops, in the order of the rule's tests (41_ring_buffer.md R70, decision D18). -/
def Obligations.RbPushStopsOnAZeroByteOrWithoutRoom : Prop :=
  ∀ (s : State) (p : List Byte), s.MainReady →
    (¬ NoZeroByte p → exec (.rbPush p) s = .refused .payloadHasZeroByte)
    ∧ (NoZeroByte p → s.rb.ready = true → s.rb.space < p.length + 1 →
      exec (.rbPush p) s = .fault .rbOverflow)
    ∧ (NoZeroByte p → s.rb.ready = true → s.cfg.Valid → s.rb.capacity = s.cfg.capacity →
      s.cfg.capacity - 2 < p.length → exec (.rbPush p) s = .fault .rbOverflow)

/-- `RB.PUSH p` appends `p` to the pending frames (41_ring_buffer.md R72). -/
def Obligations.RbPushAppendsToTheFrames : Prop :=
  ∀ (s t : State) (p : List Byte) (ps : List (List Byte)), s.cfg.Valid → s.RingInv →
    s.rb.frames = some ps → exec (.rbPush p) s = .next t → t.rb.frames = some (ps ++ [p])

/-- `RB.POP` on an empty ring, on a busy transmitter, and on a header it cannot take (41_ring_buffer.md
R71): the empty test comes first, neither of the first two answers changes anything but the returned
value, and a byte that nothing has written is no header (log 12). -/
def Obligations.RbPopAnswersEmptyOrNotReadyUnchanged : Prop :=
  ∀ (s : State) (b : Bool), s.MainReady → s.rb.ready = true →
    (s.rb.wr = s.rb.rd → exec (.rbPop b) s = .next { s with ret := some (.popped .empty) })
    ∧ (s.rb.wr ≠ s.rb.rd → s.tx.busy = true →
      exec (.rbPop b) s = .next { s with ret := some (.popped .notReady) })
    ∧ (s.rb.wr ≠ s.rb.rd → s.tx.busy = false →
      (Memory.read s.rb.buf s.rb.rd = none → exec (.rbPop b) s = .refused .uninitialised)
      ∧ (Memory.read s.rb.buf s.rb.rd = some 0 → exec (.rbPop b) s = .refused .rbHeaderZero)
      ∧ ∀ h, Memory.read s.rb.buf s.rb.rd = some h → h ≠ 0 → s.cfg.scratchSize < h.toNat →
          exec (.rbPop b) s = .refused .rbFrameExceedsScratch)

/-- `RB.POP` in test mode with a frame pending and the transmitter idle (41_ring_buffer.md R71, R72): the
oldest payload, terminated, is in the scratch buffer and in the inspection slot, the read cursor is past
its frame, the frame is off the list, and everything else, TX with it, stays. -/
def Obligations.RbPopInTestModeTakesTheOldestFrame : Prop :=
  ∀ (s : State) (p : List Byte) (ps : List (List Byte)), s.MainReady → s.cfg.Valid →
    s.rb.ready = true → s.RingInv → s.tx.busy = false → s.rb.frames = some (p :: ps) →
    ∃ t, exec (.rbPop true) s = .next t ∧ t.ret = some (.popped .consumed)
      ∧ t.rb.frames = some ps ∧ t.rb.rd = (s.rb.rd + p.length + 1) % s.cfg.capacity
      ∧ (∀ j ≤ p.length, Memory.read t.rb.scratch j = (p ++ [0])[j]?
          ∧ Memory.read t.rb.testSlot j = (p ++ [0])[j]?)
      ∧ (∀ j, p.length < j → Memory.read t.rb.scratch j = Memory.read s.rb.scratch j
          ∧ Memory.read t.rb.testSlot j = Memory.read s.rb.testSlot j)
      ∧ t = { s with
          ret := t.ret
          rb := { s.rb with rd := t.rb.rd, scratch := t.rb.scratch, testSlot := t.rb.testSlot } }

/-- `RB.POP` in normal mode (41_ring_buffer.md R71, R72, 42_serial_tx.md R74; decisions D4, D5): the
oldest payload is handed to the transmitter, which starts; the inspection slot is not touched. Every
pending frame fits the transmit buffer. The inner `EM.BLOCK` at its ceiling faults the pop. Under a
configuration that overrides the sizes (70_reset_and_hazards.md R131) a text that the transmit buffer
cannot hold is refused. -/
def Obligations.RbPopInNormalModeStartsTheTransmitter : Prop :=
  (∀ (s : State) (p : List Byte) (ps : List (List Byte)), s.MainReady → s.cfg.Valid →
    s.rb.ready = true → s.RingInv → s.tx.busy = false → s.rb.frames = some (p :: ps) →
    s.em.opened = true → s.em.count.length = s.cfg.nDepths →
    (s.countAt s.cfg.txBlockDepth + 1 < s.cfg.emCeiling →
      ∃ t, exec (.rbPop false) s = .next t ∧ t.ret = some (.popped .consumed)
        ∧ t.rb.frames = some ps ∧ t.rb.rd = (s.rb.rd + p.length + 1) % s.cfg.capacity
        ∧ (∀ j ≤ p.length, Memory.read t.rb.scratch j = (p ++ [0])[j]?)
        ∧ (∀ j, p.length < j → Memory.read t.rb.scratch j = Memory.read s.rb.scratch j)
        ∧ (∀ j < p.length, Memory.read t.tx.buf j = p[j]?)
        ∧ (∀ j, p.length ≤ j → Memory.read t.tx.buf j = Memory.read s.tx.buf j)
        ∧ t.tx = { s.tx with
            buf := t.tx.buf, len := p.length, idx := 0, state := .sendChar, busy := true,
            txblIen := true }
        ∧ t.countAt s.cfg.txBlockDepth = s.countAt s.cfg.txBlockDepth + 1
        ∧ (∀ e, e ≠ s.cfg.txBlockDepth → t.countAt e = s.countAt e) ∧ t.em.opened = true
        ∧ t = { s with
            ret := t.ret, tx := t.tx, em := t.em
            rb := { s.rb with rd := t.rb.rd, scratch := t.rb.scratch } })
    ∧ (s.cfg.emCeiling ≤ s.countAt s.cfg.txBlockDepth + 1 →
      exec (.rbPop false) s = .fault .emCeilingHit))
  ∧ ∀ (s : State) (p : List Byte) (c : Nat), s.MainReady → s.rb.ready = true →
    s.rb.wr ≠ s.rb.rd → s.tx.busy = false → headFrame s = .ok (p, c) →
    s.cfg.txBufSize < p.length + 1 → exec (.rbPop false) s = .refused .txTextTooLong

/-- What the ring invariant says in numbers (41_ring_buffer.md R73): cursors inside the ring, at most
`CAPACITY - 1` bytes used, exactly those of the frames, and none exactly when the cursors meet. -/
def Obligations.TheRingHoldsExactlyItsFrames : Prop :=
  ∀ s : State, s.cfg.Valid → s.rb.ready = true → s.RingInv →
    s.rb.wr ≤ s.cfg.capacity - 1 ∧ s.rb.rd ≤ s.cfg.capacity - 1
    ∧ s.rb.used ≤ s.cfg.capacity - 1
    ∧ ∃ ps, s.rb.frames = some ps ∧ s.rb.used = (ps.map fun p => p.length + 1).sum
      ∧ (s.rb.wr = s.rb.rd ↔ ps = [])

/-! ## Unit TX -/

/-- 42_serial_tx.md R74 (decisions D5, D18, D25): an idle transmitter takes a text that fits; else the
start stops, in the order of the rule's tests. -/
def Obligations.TxStartTakesTheTextOrStops : Prop :=
  ∀ (s : State) (p : List Byte), s.MainReady →
    (s.tx.busy = false → p.length + 1 ≤ s.cfg.txBufSize → NoZeroByte p → s.cfg.Valid →
      s.em.opened = true → s.em.count.length = s.cfg.nDepths →
      (s.countAt s.cfg.txBlockDepth + 1 < s.cfg.emCeiling →
        ∃ t, exec (.txStart p) s = .next t
          ∧ (∀ j < p.length, Memory.read t.tx.buf j = p[j]?)
          ∧ (∀ j, p.length ≤ j → Memory.read t.tx.buf j = Memory.read s.tx.buf j)
          ∧ t.tx = { s.tx with
              buf := t.tx.buf, len := p.length, idx := 0, state := .sendChar, busy := true,
              txblIen := true }
          ∧ t.countAt s.cfg.txBlockDepth = s.countAt s.cfg.txBlockDepth + 1
          ∧ (∀ e, e ≠ s.cfg.txBlockDepth → t.countAt e = s.countAt e) ∧ t.em.opened = true
          ∧ t = { s with tx := t.tx, em := t.em })
      ∧ (s.cfg.emCeiling ≤ s.countAt s.cfg.txBlockDepth + 1 →
        exec (.txStart p) s = .fault .emCeilingHit))
    ∧ (s.tx.busy = true → exec (.txStart p) s = .refused .txStartWhileBusy)
    ∧ (s.tx.busy = false → s.cfg.txBufSize < p.length + 1 →
      exec (.txStart p) s = .refused .txTextTooLong)
    ∧ (s.tx.busy = false → p.length + 1 ≤ s.cfg.txBufSize → ¬ NoZeroByte p →
      exec (.txStart p) s = .refused .payloadHasZeroByte)

/-- 42_serial_tx.md R75: the busy flag is returned and nothing else is written; it is 0 after reset
(decision D38), 1 after a start (decision D25, log 21), stays 1 through every stimulus but `TX.TXC`, and
`TX.TXC` clears it. -/
def Obligations.TxBusyReturnsWhetherATransmitIsInFlight : Prop :=
  (∀ s : State, s.MainReady → exec .txBusy s = .next { s with ret := some (.busy s.tx.busy) })
  ∧ (∀ c, (State.resetWith c).tx.busy = false)
  ∧ (∀ s t p, exec (.txStart p) s = .next t → t.tx.busy = true)
  ∧ (∀ s t i, exec i s = .next t → s.tx.busy = true → i ≠ .txTxc → t.tx.busy = true)
  ∧ (∀ s t, exec .txTxc s = .next t → t.tx.busy = false)

/-- 42_serial_tx.md R76 (decision D26, log 21): the current byte goes out and the index advances; the
call that hands over the last byte, or finds none, disables the interrupt and moves to `WAIT_TXC`; in any
other state the event is fatal (R79). -/
def Obligations.TxTxblSendsTheCurrentByte : Prop :=
  ∀ s : State, s.agent = .serial →
    (∀ b, s.tx.state = .sendChar → s.tx.idx < s.tx.len →
      Memory.read s.tx.buf s.tx.idx = some b →
      ∃ t, exec .txTxbl s = .next t ∧ t.txLine = s.txLine ++ [b]
        ∧ t.tx = (if s.tx.idx + 1 = s.tx.len then
            { s.tx with idx := s.tx.idx + 1, txblIen := false, txcIen := true, state := .waitTxc }
          else { s.tx with idx := s.tx.idx + 1 })
        ∧ t = { s with agent := .main, pwrDepth := 0, tx := t.tx, txLine := t.txLine })
    ∧ (s.tx.state = .sendChar → s.tx.idx = s.tx.len →
      exec .txTxbl s = .next { s with
        agent := .main, pwrDepth := 0
        tx := { s.tx with txblIen := false, txcIen := true, state := .waitTxc } })
    ∧ (s.tx.state ≠ .sendChar → exec .txTxbl s = .fault .txTxblState)

/-- 42_serial_tx.md R77 (decision D25): the completion event in `WAIT_TXC`; in any other state it is
fatal (R79). -/
def Obligations.TxTxcCompletesTheTransmit : Prop :=
  ∀ s : State, s.agent = .serial →
    (s.tx.state = .waitTxc → s.cfg.Valid → s.em.opened = true →
      s.em.count.length = s.cfg.nDepths → s.ev.opened = true →
      (1 ≤ s.countAt s.cfg.txBlockDepth →
        ∃ t, exec .txTxc s = .next t
          ∧ t.tx = { s.tx with busy := false, txcIen := false, state := .finish }
          ∧ t.countAt s.cfg.txBlockDepth = s.countAt s.cfg.txBlockDepth - 1
          ∧ (∀ e, e ≠ s.cfg.txBlockDepth → t.countAt e = s.countAt e) ∧ t.em.opened = true
          ∧ t.ev = { s.ev with mask := s.ev.mask ||| s.cfg.evtTxDone }
          ∧ t = { s with agent := .main, pwrDepth := 0, tx := t.tx, em := t.em, ev := t.ev })
      ∧ (s.countAt s.cfg.txBlockDepth = 0 → exec .txTxc s = .fault .emUnderflow))
    ∧ (s.tx.state ≠ .waitTxc → exec .txTxc s = .fault .txTxcState)

/-! ## Unit RX -/

/-- 43_serial_rx.md R80 (decision D28, log 20). -/
def Obligations.RxOpenArmsTheReceiver : Prop :=
  ∀ s : State, s.MainReady → ∃ t, exec .rxOpen s = .next t
    ∧ t.rx.startByte = s.cfg.rxStartByte ∧ t.rx.sigByte = s.cfg.rxSigByte ∧ t.rx.block = true
    ∧ t.rx.idx = 0 ∧ t.rx.state = .idle ∧ t.rx.buf = s.rx.buf ∧ t = { s with rx := t.rx }

/-- 43_serial_rx.md R81 (decision D29, log 20): a byte on the line is dropped, or is exactly one of the
three receive interrupts, or is refused; a dropped byte and a byte that fits complete. -/
def Obligations.RxLineIsOneReceiveEventOrIsDropped : Prop :=
  ∀ (s : State) (b : Byte), s.agent = .serial → s.rx.state ≠ .init →
    (s.rx.block = true → b ≠ s.rx.startByte → exec (.rxLine b) s = .next { s with agent := .main })
    ∧ (s.rx.block = true → b = s.rx.startByte → exec (.rxLine b) s = exec .rxStartf s)
    ∧ (s.rx.block = false → b = s.rx.sigByte → exec (.rxLine b) s = exec .rxSigf s)
    ∧ (s.rx.block = false → b ≠ s.rx.sigByte → b = s.rx.startByte →
      exec (.rxLine b) s = .refused .rxStartInFrame)
    ∧ (s.rx.block = false → b ≠ s.rx.sigByte → b ≠ s.rx.startByte →
      exec (.rxLine b) s = exec (.rxRxdatav b) s)
    ∧ (s.rx.block = false → b ≠ s.rx.sigByte → b ≠ s.rx.startByte → s.rx.idx + 2 ≤ s.cfg.rxBufSize →
      ∃ t, exec (.rxLine b) s = .next t)

/-- 43_serial_rx.md R82 (decision D28): the gate, and what start-byte detection does. -/
def Obligations.RxStartfOpensAFrame : Prop :=
  ∀ s : State, s.agent = .serial → s.rx.state ≠ .init → s.cfg.Valid →
    (s.rx.block = true →
      ∃ t, exec .rxStartf s = .next t
        ∧ Memory.read t.rx.buf 0 = some s.rx.startByte
        ∧ (∀ j, j ≠ 0 → Memory.read t.rx.buf j = Memory.read s.rx.buf j)
        ∧ t.rx = { s.rx with buf := t.rx.buf, block := false, idx := 1, state := .started }
        ∧ t = { s with agent := .main, pwrDepth := 0, rx := t.rx })
    ∧ (s.rx.block = false → exec .rxStartf s = .refused .rxEventGate)

/-- 43_serial_rx.md R83 (decisions D28, D30): the gate, the overflow fault, and the byte stored at the
index. -/
def Obligations.RxRxdatavStoresTheByteOrOverflows : Prop :=
  ∀ (s : State) (b : Byte), s.agent = .serial → s.rx.state ≠ .init →
    (s.rx.block = false → s.rx.idx + 2 ≤ s.cfg.rxBufSize →
      ∃ t, exec (.rxRxdatav b) s = .next t
        ∧ Memory.read t.rx.buf s.rx.idx = some b
        ∧ (∀ j, j ≠ s.rx.idx → Memory.read t.rx.buf j = Memory.read s.rx.buf j)
        ∧ t.rx = { s.rx with buf := t.rx.buf, idx := s.rx.idx + 1, state := .receiving }
        ∧ t = { s with agent := .main, pwrDepth := 0, rx := t.rx })
    ∧ (s.rx.block = false → s.cfg.rxBufSize < s.rx.idx + 2 →
      exec (.rxRxdatav b) s = .fault .rxOverflow)
    ∧ (s.rx.block = true → exec (.rxRxdatav b) s = .refused .rxEventGate)

/-- 43_serial_rx.md R84 (decisions D28, D29): the gate, the terminator, the post, the receiver armed
again. -/
def Obligations.RxSigfClosesTheFrame : Prop :=
  ∀ s : State, s.agent = .serial → s.rx.state ≠ .init →
    (s.rx.block = false → s.rx.idx < s.cfg.rxBufSize → s.ev.opened = true →
      ∃ t, exec .rxSigf s = .next t
        ∧ Memory.read t.rx.buf s.rx.idx = some 0
        ∧ (∀ j, j ≠ s.rx.idx → Memory.read t.rx.buf j = Memory.read s.rx.buf j)
        ∧ t.rx = { s.rx with buf := t.rx.buf, block := true, idx := 0, state := .finished }
        ∧ t.ev = { s.ev with mask := s.ev.mask ||| s.cfg.evtRxDone }
        ∧ t = { s with agent := .main, pwrDepth := 0, rx := t.rx, ev := t.ev })
    ∧ (s.rx.block = true → exec .rxSigf s = .refused .rxEventGate)

/-! ## Unit TW -/

/-- 44_two_wire.md R87, R95 (decisions D11, D32, D33, log 17): the one admitted form on an idle bus; else
the start stops, in the order of the rule's tests. -/
def Obligations.TwStartAddressesTheDeviceOrStops : Prop :=
  ∀ (s : State) (addr : Nat) (cmd : Byte) (rd : Bool) (n : Nat), s.MainReady →
    (addr ≤ 0x7F → rd = true → n = 2 → s.tw.busBusy = false → s.cfg.Valid → s.em.opened = true →
      s.em.count.length = s.cfg.nDepths →
      (s.countAt s.cfg.twBlockDepth + 1 < s.cfg.emCeiling →
        ∃ t, exec (.twStart addr cmd rd n) s = .next t
          ∧ t.tw.addr.toNat = addr
          ∧ t.tw = { s.tw with
              addr := t.tw.addr, cmd := cmd, isRead := true, nbytes := 2, busBusy := true,
              state := .sendMeasure }
          ∧ t.twOut = s.twOut ++ [.start, .tx (BitVec.ofNat 8 (2 * addr))]
          ∧ t.countAt s.cfg.twBlockDepth = s.countAt s.cfg.twBlockDepth + 1
          ∧ (∀ e, e ≠ s.cfg.twBlockDepth → t.countAt e = s.countAt e) ∧ t.em.opened = true
          ∧ t = { s with tw := t.tw, em := t.em, twOut := t.twOut })
      ∧ (s.cfg.emCeiling ≤ s.countAt s.cfg.twBlockDepth + 1 →
        exec (.twStart addr cmd rd n) s = .fault .emCeilingHit))
    ∧ (0x7F < addr → exec (.twStart addr cmd rd n) s = .refused .twAddrRange)
    ∧ (addr ≤ 0x7F → (rd = false ∨ n ≠ 2) →
      exec (.twStart addr cmd rd n) s = .refused .twFormNotDescribed)
    ∧ (addr ≤ 0x7F → rd = true → n = 2 → s.tw.busBusy = true →
      exec (.twStart addr cmd rd n) s = .fault .twBusNotIdle)

/-- 44_two_wire.md R88: an acknowledge, by state (address byte: decision D11, log 17). -/
def Obligations.TwAckAdvancesByState : Prop :=
  ∀ s : State, s.agent = .twoWire →
    (s.tw.state = .sendMeasure →
      exec .twAck s = .next { s with
        agent := .main, pwrDepth := 0, twOut := s.twOut ++ [.tx s.tw.cmd]
        tw := { s.tw with state := .sendRead } })
    ∧ (s.tw.state = .sendRead →
      exec .twAck s = .next { s with
        agent := .main, pwrDepth := 0
        twOut := s.twOut ++ [.start, .tx ((s.tw.addr.setWidth 8 <<< 1) ||| 1)]
        tw := { s.tw with state := .wack3 } })
    ∧ (s.tw.state = .wack3 →
      exec .twAck s = .next { s with
        agent := .main, pwrDepth := 0, tw := { s.tw with state := .getMsb } })
    ∧ (s.tw.state = .init ∨ s.tw.state = .getMsb ∨ s.tw.state = .getLsbStop
        ∨ s.tw.state = .endState →
      exec .twAck s = .fault .twAckState)

/-- 44_two_wire.md R89: a not-acknowledge outside `WACK3` is fatal; in `WACK3` it is a retry, and any
number of retries leaves the unit as it was and appends that many copies of the retransmission (address
byte: decision D11, log 17). -/
def Obligations.TwNackRetriesWithoutBound : Prop :=
  (∀ s : State, s.agent = .twoWire → s.tw.state ≠ .wack3 → exec .twNack s = .fault .twNackState)
  ∧ (∀ s : State, s.agent = .twoWire → s.tw.state = .wack3 →
      exec .twNack s = .next { s with
        agent := .main, pwrDepth := 0
        twOut := s.twOut ++ [.start, .tx ((s.tw.addr.setWidth 8 <<< 1) ||| 1)] })
  ∧ ∀ (s : State) (n : Nat), s.cfg.Valid → s.BetweenSteps → s.tw.state = .wack3 →
      ∃ t, runScript (List.replicate n (lineOf .twoWire .twNack)) s = .next t
        ∧ t.tw = s.tw
        ∧ t.twOut = s.twOut
            ++ (List.replicate n
                [BusAction.start, .tx ((s.tw.addr.setWidth 8 <<< 1) ||| 1)]).flatten
        ∧ t = { s with script := [], pwrDepth := t.pwrDepth, twOut := t.twOut }

/-- 44_two_wire.md R90 (decision D33, log 17): the first data byte is assigned to bits 15:8, the second
is OR-ed into the slot, and in any other state a data byte is fatal. -/
def Obligations.TwRxdatavAssemblesTheResult : Prop :=
  ∀ (s : State) (b : Byte), s.agent = .twoWire →
    (s.tw.state = .getMsb →
      ∃ t, exec (.twRxdatav b) s = .next t ∧ t.tw.result.toNat = 256 * b.toNat
        ∧ t.tw = { s.tw with result := t.tw.result, state := .getLsbStop }
        ∧ t = { s with
            agent := .main, pwrDepth := 0, tw := t.tw, twOut := s.twOut ++ [.ackCmd] })
    ∧ (s.tw.state = .getLsbStop →
      ∃ t, exec (.twRxdatav b) s = .next t ∧ t.tw.result = s.tw.result ||| b.setWidth 32
        ∧ t.tw = { s.tw with result := t.tw.result, state := .endState }
        ∧ t = { s with
            agent := .main, pwrDepth := 0, tw := t.tw, twOut := s.twOut ++ [.nackCmd, .stopCmd] })
    ∧ (s.tw.state = .init ∨ s.tw.state = .sendMeasure ∨ s.tw.state = .sendRead
        ∨ s.tw.state = .wack3 ∨ s.tw.state = .endState →
      exec (.twRxdatav b) s = .fault .twRxdataState)

/-- 44_two_wire.md R91 (decision D33): bus-stop is valid in `END` only; the state stays `END`. -/
def Obligations.TwMstopEndsTheTransaction : Prop :=
  ∀ s : State, s.agent = .twoWire →
    (s.tw.state = .endState → s.cfg.Valid → s.em.opened = true →
      s.em.count.length = s.cfg.nDepths → s.ev.opened = true →
      (1 ≤ s.countAt s.cfg.twBlockDepth →
        ∃ t, exec .twMstop s = .next t ∧ t.tw = { s.tw with busBusy := false }
          ∧ t.countAt s.cfg.twBlockDepth = s.countAt s.cfg.twBlockDepth - 1
          ∧ (∀ e, e ≠ s.cfg.twBlockDepth → t.countAt e = s.countAt e) ∧ t.em.opened = true
          ∧ t.ev = { s.ev with mask := s.ev.mask ||| s.cfg.evtTwDone }
          ∧ t = { s with agent := .main, pwrDepth := 0, tw := t.tw, em := t.em, ev := t.ev })
      ∧ (s.countAt s.cfg.twBlockDepth = 0 → exec .twMstop s = .fault .emUnderflow))
    ∧ (s.tw.state ≠ .endState → exec .twMstop s = .fault .twMstopState)

/-! ## The event set -/

/-- 45_scheduler_and_externals.md R97 (decision D41). -/
def Obligations.SchOpenClearsTheEventSet : Prop :=
  ∀ s : State, s.MainReady → ∃ t, exec .schOpen s = .next t ∧ t.ev.mask = 0
    ∧ t.ev.opened = true ∧ t = { s with ev := t.ev }

/-- 45_scheduler_and_externals.md R98 (decision D41): by MAIN, or by the timer as an event step, which
wakes. -/
def Obligations.SchAddSetsTheBitsOfTheMask : Prop :=
  ∀ (s : State) (m : EventMask), s.MainReady ∨ s.agent = .timer → s.ev.opened = true →
    ∃ t, exec (.schAdd m) s = .next t
      ∧ (∀ k : Nat, t.ev.mask.getLsbD k = (s.ev.mask.getLsbD k || m.getLsbD k))
      ∧ t.ev.opened = true ∧ t = { s with agent := .main, pwrDepth := 0, ev := t.ev }
      ∧ (t.ev.mask = s.ev.mask ↔ m &&& ~~~s.ev.mask = 0)

/-- 45_scheduler_and_externals.md R99 (decision D41, log 22): bits of the mask are cleared, others stay;
doing it twice is doing it once; only MAIN issues it. -/
def Obligations.SchRemoveClearsTheBitsOfTheMask : Prop :=
  ∀ (s : State) (m : EventMask), s.ev.opened = true →
    (s.MainReady →
      ∃ t, exec (.schRemove m) s = .next t
        ∧ (∀ k < 32, t.ev.mask.getLsbD k = (s.ev.mask.getLsbD k && !m.getLsbD k))
        ∧ t.ev.opened = true ∧ t = { s with ev := t.ev } ∧ exec (.schRemove m) t = .next t)
    ∧ (s.agent ≠ .main → ∀ t, exec (.schRemove m) s ≠ .next t)

/-- 45_scheduler_and_externals.md R100. -/
def Obligations.SchGetReturnsTheEventSet : Prop :=
  ∀ s : State, s.MainReady → s.ev.opened = true →
    exec .schGet s = .next { s with ret := some (.events s.ev.mask) }

/-! ## Invariants -/

/-- Every invariant holds at reset, in every configuration that keeps 00_scope.md R7. -/
def Obligations.TheInvariantsHoldAtReset : Prop :=
  ∀ c : Config, c.Valid →
    (State.resetWith c).StoresCanonical ∧ (State.resetWith c).ArbiterInv
    ∧ (State.resetWith c).RingInv ∧ (State.resetWith c).TransmitterInv
    ∧ (State.resetWith c).ReceiverInv ∧ (State.resetWith c).TwoWireInv
    ∧ (State.resetWith c).BetweenSteps ∧ (State.resetWith c).BlocksHeld

/-- Every step keeps the byte stores canonical and inside their sizes (20_memory.md R27; the form is the
model's, log 12). -/
def Obligations.EveryStepKeepsTheStoresCanonical : Prop :=
  ∀ s t : State, s.StoresCanonical → step s = .next t → t.StoresCanonical

/-- Every step keeps the arbiter's invariant (10_state.md R9, 40_energy_arbiter.md R66; D14, log 14). -/
def Obligations.EveryStepKeepsTheArbiterInvariant : Prop :=
  ∀ s t : State, s.ArbiterInv → step s = .next t → t.ArbiterInv

/-- Every step keeps the ring invariant: the live bytes stay whole frames (41_ring_buffer.md R72, R73). -/
def Obligations.EveryStepKeepsTheRingInvariant : Prop :=
  ∀ s t : State, s.RingInv → step s = .next t → t.RingInv

/-- Every step keeps the transmitter's invariant (42_serial_tx.md R79, 10_state.md R14; D25). -/
def Obligations.EveryStepKeepsTheTransmitterInvariant : Prop :=
  ∀ s t : State, s.TransmitterInv → step s = .next t → t.TransmitterInv

/-- Every step keeps the receiver's invariant (43_serial_rx.md R85; D28). -/
def Obligations.EveryStepKeepsTheReceiverInvariant : Prop :=
  ∀ s t : State, s.ReceiverInv → step s = .next t → t.ReceiverInv

/-- Every step keeps the two-wire machine's invariant (44_two_wire.md R92, R94, R95; D32, D33). -/
def Obligations.EveryStepKeepsTheTwoWireInvariant : Prop :=
  ∀ s t : State, s.TwoWireInv → step s = .next t → t.TwoWireInv

/-- While a unit is in flight its block is held, unless MAIN opens the arbiter again or takes away a
block that a unit holds (40_energy_arbiter.md R66 clause 3, R67), and provided the bus delivers no stray
stop (44_two_wire.md R93). An `EM.UNBLOCK` of a held depth is matched when the count is above what the
units in flight hold, that is when MAIN holds a block of its own there. -/
def Obligations.AUnitInFlightHoldsItsBlock : Prop :=
  ∀ (s t : State) (i : Instr), s.BlocksHeld → s.TransmitterInv →
    s.em.count.length = s.cfg.nDepths → s.Deliverable i = true →
    (i = .emOpen → s.tx.busy = false ∧ s.tw.busBusy = false) →
    (∀ d : Byte, i = .emUnblock d → s.heldBlocks d.toNat ≠ 0 →
      s.heldBlocks d.toNat < s.countAt d.toNat) →
    exec i s = .next t → t.BlocksHeld

/-! ## Rules of the whole machine -/

/-- Under the contracts of the environment the only protocol fault is a not-acknowledge of the address
or of the command byte (42_serial_tx.md R78, R79, 44_two_wire.md R93; D27, D34, log 18). -/
def Obligations.UnderTheContractsOnlyANackIsAProtocolFault : Prop :=
  ∀ (s : State) (i : Instr) (c : Fault), s.TransmitterInv → s.Deliverable i = true →
    exec i s = .fault c → c.faultClass = some 1 →
    c = .twNackState ∧ i = .twNack ∧ (s.tw.state = .sendMeasure ∨ s.tw.state = .sendRead)

/-- A transmit event and a receive event ready together may be handled in either order: if one order
completes, so does the other, with the same state (90_conflicts.md C9, 60_exceptions.md R114; D35). -/
def Obligations.TransmitAndReceiveEventsCommute : Prop :=
  ∀ (s u t : State) (i j : Instr), i = .txTxbl ∨ i = .txTxc →
    ((∃ b, j = .rxLine b ∨ j = .rxRxdatav b) ∨ j = .rxStartf ∨ j = .rxSigf) →
    (exec i s = .next u → exec j { u with agent := .serial } = .next t →
      ∃ v, exec j s = .next v ∧ exec i { v with agent := .serial } = .next t)
    ∧ (exec j s = .next u → exec i { u with agent := .serial } = .next t →
      ∃ v, exec i s = .next v ∧ exec j { v with agent := .serial } = .next t)

/-- 10_state.md R20: who sets and who clears a bit of the event set. -/
def Obligations.EventBitsAreSetAndClearedOnlyByTheirWriters : Prop :=
  ∀ (s t : State) (i : Instr), exec i s = .next t →
    (s.ev.mask &&& ~~~t.ev.mask ≠ 0 →
      s.agent = .main ∧ ((∃ m, i = .schRemove m) ∨ i = .schOpen))
    ∧ (t.ev.mask &&& ~~~s.ev.mask ≠ 0 →
      (∃ m, i = .schAdd m) ∨ i = .txTxc ∨ i = .rxSigf ∨ i = .rxLine s.rx.sigByte ∨ i = .twMstop)

/-- 10_state.md R22: the traces only grow, and no rule reads them: with any other traces in their place a
stimulus ends in the same outcome, whether next state, fault or refusal. That they are lists is the spec's
own presentation. -/
def Obligations.TracesGrowAndAreNeverRead : Prop :=
  ∀ (s : State) (i : Instr),
    (∀ t, exec i s = .next t →
      ∃ bytes acts, t.txLine = s.txLine ++ bytes ∧ t.twOut = s.twOut ++ acts
        ∧ ∀ line out, exec i { s with txLine := line, twOut := out }
            = .next { t with txLine := line ++ bytes, twOut := out ++ acts })
    ∧ (∀ c, exec i s = .fault c →
      ∀ line out, exec i { s with txLine := line, twOut := out } = .fault c)
    ∧ (∀ c, exec i s = .refused c →
      ∀ line out, exec i { s with txLine := line, twOut := out } = .refused c)

/-- Each piece of state is written only by the stimuli the spec names for it (10_state.md R9 to R22,
20_memory.md R27, R35): unit by unit, field by field, with the composite stimuli of 30_encoding.md R59
counted for what they run. What no stimulus writes: the configuration, the rest of the script, the marks.
The ghost flags `opened` and `ready` are 70_reset_and_hazards.md R125's, `ret` is the model's (log 10), and
`tx.txc_ien` is written as decision D25 says, `rx.state` and `rx.idx` as D28, `tw.bus_busy` as D33. -/
def Obligations.EachUnitIsWrittenOnlyByItsWriters : Prop :=
  ∀ (s t : State) (i : Instr), exec i s = .next t →
    t.cfg = s.cfg ∧ t.script = s.script ∧ t.sys = s.sys ∧ t.agent = .main
    ∧ (t.pwrDepth ≠ s.pwrDepth → s.agent ≠ .main ∨ i = .emSleep)
    ∧ (t.ret ≠ s.ret → i = .emFloor ∨ i = .rbSpace ∨ (∃ b, i = .rbPop b) ∨ i = .txBusy ∨ i = .schGet)
    -- EM
    ∧ (t.em.count ≠ s.em.count → i = .emOpen ∨ (∃ d, i = .emBlock d) ∨ (∃ d, i = .emUnblock d)
        ∨ StartsTransmit i ∨ i = .txTxc ∨ StartsTransaction i ∨ i = .twMstop)
    ∧ (t.em.opened ≠ s.em.opened → i = .emOpen)
    -- RB
    ∧ (t.rb ≠ s.rb → s.agent = .main ∧ (i = .rbInit ∨ (∃ p, i = .rbPush p) ∨ ∃ b, i = .rbPop b))
    ∧ (t.rb.capacity ≠ s.rb.capacity ∨ t.rb.mask ≠ s.rb.mask ∨ t.rb.ready ≠ s.rb.ready → i = .rbInit)
    ∧ (t.rb.wr ≠ s.rb.wr → i = .rbInit ∨ ∃ p, i = .rbPush p)
    ∧ (t.rb.rd ≠ s.rb.rd → i = .rbInit ∨ ∃ b, i = .rbPop b)
    ∧ (t.rb.buf ≠ s.rb.buf → ∃ p, i = .rbPush p)
    ∧ (t.rb.scratch ≠ s.rb.scratch → ∃ b, i = .rbPop b)
    ∧ (t.rb.testSlot ≠ s.rb.testSlot → i = .rbPop true)
    -- TX
    ∧ (t.tx.buf ≠ s.tx.buf ∨ t.tx.len ≠ s.tx.len → StartsTransmit i)
    ∧ (t.tx.idx ≠ s.tx.idx → StartsTransmit i ∨ i = .txTxbl)
    ∧ (t.tx.state ≠ s.tx.state → StartsTransmit i ∨ i = .txTxbl ∨ i = .txTxc)
    ∧ (t.tx.busy ≠ s.tx.busy → StartsTransmit i ∨ i = .txTxc)
    ∧ (t.tx.txblIen ≠ s.tx.txblIen → StartsTransmit i ∨ i = .txTxbl)
    ∧ (t.tx.txcIen ≠ s.tx.txcIen → i = .txTxbl ∨ i = .txTxc)
    ∧ (t.txLine ≠ s.txLine → i = .txTxbl)
    -- RX
    ∧ (t.rx.buf ≠ s.rx.buf → Receives i)
    ∧ (t.rx.idx ≠ s.rx.idx ∨ t.rx.state ≠ s.rx.state → i = .rxOpen ∨ Receives i)
    ∧ (t.rx.block ≠ s.rx.block → i = .rxOpen ∨ i = .rxStartf ∨ i = .rxSigf
        ∨ i = .rxLine s.rx.startByte ∨ i = .rxLine s.rx.sigByte)
    ∧ (t.rx.startByte ≠ s.rx.startByte ∨ t.rx.sigByte ≠ s.rx.sigByte → i = .rxOpen)
    -- TW
    ∧ (t.tw.state ≠ s.tw.state → StartsTransaction i ∨ i = .twAck ∨ ∃ b, i = .twRxdatav b)
    ∧ (t.tw.result ≠ s.tw.result → ∃ b, i = .twRxdatav b)
    ∧ (t.tw.addr ≠ s.tw.addr ∨ t.tw.cmd ≠ s.tw.cmd ∨ t.tw.isRead ≠ s.tw.isRead
        ∨ t.tw.nbytes ≠ s.tw.nbytes → StartsTransaction i)
    ∧ (t.tw.busBusy ≠ s.tw.busBusy → StartsTransaction i ∨ i = .twMstop)
    ∧ (t.twOut ≠ s.twOut → StartsTransaction i ∨ i = .twAck ∨ i = .twNack ∨ ∃ b, i = .twRxdatav b)
    -- SCH
    ∧ (t.ev.mask ≠ s.ev.mask → i = .schOpen ∨ (∃ m, i = .schAdd m) ∨ (∃ m, i = .schRemove m)
        ∨ i = .txTxc ∨ i = .rxSigf ∨ i = .rxLine s.rx.sigByte ∨ i = .twMstop)
    ∧ (t.ev.opened ≠ s.ev.opened → i = .schOpen)

/-! ## Runs -/

/-- The four initialisers, in any order, lead from reset to the booted state (70_reset_and_hazards.md
R126, 10_state.md R26; decision D39). -/
def Obligations.TheBootSequenceMayBePermuted : Prop :=
  ∀ (c : Config) (order : List Instr), c.Valid →
    order.Perm [.emOpen, .schOpen, .rxOpen, .rbInit] →
    runScript (order.map (lineOf .main)) (State.resetWith c) = .next (State.booted c)

/-- A transmit of `k >= 1` bytes is exactly `k` buffer-level events and one completion event, busy
throughout, its bytes on the line in order (42_serial_tx.md R78; decisions D25, D26, D27). -/
def Obligations.ATransmitTakesOneCallPerByte : Prop :=
  ∀ (s : State) (p : List Byte), s.cfg.Valid → s.BetweenSteps → s.pwrDepth = 0 →
    s.em.opened = true → s.em.count.length = s.cfg.nDepths → s.ev.opened = true →
    s.countAt s.cfg.txBlockDepth + 1 < s.cfg.emCeiling → s.tx.busy = false → NoZeroByte p →
    1 ≤ p.length → p.length + 1 ≤ s.cfg.txBufSize →
    (∀ k ≤ p.length, ∃ u,
      runScript (lineOf .main (.txStart p) :: List.replicate k (lineOf .serial .txTxbl)) s = .next u
        ∧ u.tx.busy = true ∧ u.tx.idx = k ∧ u.txLine = s.txLine ++ p.take k
        ∧ u.tx.state = (if k = p.length then .waitTxc else .sendChar))
    ∧ ∃ t,
      runScript (lineOf .main (.txStart p) :: List.replicate p.length (lineOf .serial .txTxbl)
          ++ [lineOf .serial .txTxc]) s = .next t
        ∧ t.txLine = s.txLine ++ p ∧ t.tx.busy = false ∧ t.tx.state = .finish
        ∧ t.ev.mask = s.ev.mask ||| s.cfg.evtTxDone
        ∧ t = { s with script := [], tx := t.tx, ev := t.ev, txLine := t.txLine }

/-- A transaction with `r` not-acknowledge retries and data bytes `m` then `l` (30_encoding.md R53, R54,
44_two_wire.md R94; decisions D11, D33): the bus actions in order, the big-endian result, one post, and
the block released. -/
def Obligations.ATransactionYieldsTheBigEndianResult : Prop :=
  ∀ (s : State) (addr r : Nat) (cmd m l : Byte), s.cfg.Valid → s.BetweenSteps → s.pwrDepth = 0 →
    s.em.opened = true → s.em.count.length = s.cfg.nDepths → s.ev.opened = true →
    s.countAt s.cfg.twBlockDepth + 1 < s.cfg.emCeiling → s.tw.busBusy = false → addr ≤ 0x7F →
    ∃ t,
      runScript ([lineOf .main (.twStart addr cmd true 2), lineOf .twoWire .twAck,
          lineOf .twoWire .twAck] ++ List.replicate r (lineOf .twoWire .twNack)
          ++ [lineOf .twoWire .twAck, lineOf .twoWire (.twRxdatav m), lineOf .twoWire (.twRxdatav l),
            lineOf .twoWire .twMstop]) s = .next t
      ∧ t.tw.result = ((m ++ l : BitVec 16)).setWidth 32
      ∧ t.tw.result.toNat = 256 * m.toNat + l.toNat
      ∧ t.twOut = s.twOut ++ [.start, .tx (BitVec.ofNat 8 (2 * addr)), .tx cmd]
          ++ (List.replicate (r + 1)
              [BusAction.start, .tx (BitVec.ofNat 8 (2 * addr + 1))]).flatten
          ++ [.ackCmd, .nackCmd, .stopCmd]
      ∧ t.tw.state = .endState ∧ t.tw.busBusy = false
      ∧ t.ev.mask = s.ev.mask ||| s.cfg.evtTwDone
      ∧ t = { s with script := [], tw := t.tw, ev := t.ev, twOut := t.twOut }

/-- A frame on the line, start byte, payload, signal byte, is in the receive buffer as a terminated
string that begins with the start byte, and the receiver is armed again (30_encoding.md R51,
43_serial_rx.md R86; decisions D28 to D30). -/
def Obligations.AReceivedFrameIsATerminatedString : Prop :=
  ∀ (s : State) (p : List Byte), s.cfg.Valid → s.BetweenSteps → s.ev.opened = true →
    s.ReceiverInv → s.rx.state = .idle ∨ s.rx.state = .finished →
    (∀ b ∈ p, b ≠ s.cfg.rxStartByte ∧ b ≠ s.cfg.rxSigByte) → p.length + 2 ≤ s.cfg.rxBufSize →
    ∃ t,
      runScript ((s.cfg.rxStartByte :: p ++ [s.cfg.rxSigByte]).map
          fun b => lineOf .serial (.rxLine b)) s = .next t
      ∧ (∀ j ≤ p.length + 1, Memory.read t.rx.buf j = (s.cfg.rxStartByte :: p ++ [0])[j]?)
      ∧ (∀ j, p.length + 1 < j → Memory.read t.rx.buf j = Memory.read s.rx.buf j)
      ∧ t.rx.state = .finished ∧ t.rx.block = true ∧ t.rx.idx = 0
      ∧ t.ev.mask = s.ev.mask ||| s.cfg.evtRxDone
      ∧ t = { s with script := [], pwrDepth := 0, rx := t.rx, ev := t.ev }

/-- Strings pushed into an empty ring come out in order, byte for byte, as long as their frames fit
together (95_test_vectors.md P1, 41_ring_buffer.md R72); the pops are in test mode. -/
def Obligations.PushedStringsArePoppedInOrder : Prop :=
  ∀ (s : State) (ps : List (List Byte)), s.cfg.Valid → s.BetweenSteps → s.pwrDepth = 0 →
    s.rb.ready = true → s.RingInv → s.rb.frames = some [] → s.tx.busy = false →
    (∀ p ∈ ps, NoZeroByte p) → (ps.map fun p => p.length + 1).sum ≤ s.cfg.capacity - 1 →
    (∃ u, runScript (ps.map fun p => lineOf .main (.rbPush p)) s = .next u ∧ u.rb.frames = some ps)
    ∧ ∀ (before after : List (List Byte)) (p : List Byte), ps = before ++ p :: after →
      ∃ t,
        runScript ((ps.map fun p => lineOf .main (.rbPush p))
            ++ List.replicate (before.length + 1) (lineOf .main (.rbPop true))) s = .next t
        ∧ t.ret = some (.popped .consumed) ∧ t.rb.frames = some after
        ∧ ∀ j ≤ p.length, Memory.read t.rb.testSlot j = (p ++ [0])[j]?
end

