-- ==== Sys2Proof/Laws/Encoding.lean ====
section
/-! SUPPORT. The fields of a selector, and what each decoding format and operand reader can answer. -/

namespace Sys2Proof

/-- A selector as the number its three fields make (30_encoding.md R43). -/
theorem selector_toNat (u o : BitVec 4) (b : Byte) :
    (selector u o b).toNat = 4096 * u.toNat + 256 * o.toNat + b.toNat := by
  have hu := u.isLt; have ho := o.isLt; have hb := b.isLt
  have h : (selector u o b).toNat = (u.toNat <<< 4 ||| o.toNat) <<< 8 ||| b.toNat := by
    unfold selector
    exact (BitVec.toNat_append (u ++ o) b).trans (by rw [BitVec.toNat_append])
  rw [h, ← Nat.shiftLeft_add_eq_or_of_lt (by omega), ← Nat.shiftLeft_add_eq_or_of_lt (by omega)]
  simp only [Nat.shiftLeft_eq]; omega

@[simp] theorem unit_selector (u o : BitVec 4) (b : Byte) (ops : List Nat) :
    Stimulus.unit ⟨selector u o b, ops⟩ = u.toNat := by
  have ho := o.isLt; have hb := b.isLt; have hu := u.isLt
  simp only [Stimulus.unit, BitVec.extractLsb'_toNat, selector_toNat, Nat.shiftRight_eq_div_pow]
  omega

@[simp] theorem op_selector (u o : BitVec 4) (b : Byte) (ops : List Nat) :
    Stimulus.op ⟨selector u o b, ops⟩ = o.toNat := by
  have ho := o.isLt; have hb := b.isLt
  simp only [Stimulus.op, BitVec.extractLsb'_toNat, selector_toNat, Nat.shiftRight_eq_div_pow]
  omega

@[simp] theorem imm8_selector (u o : BitVec 4) (b : Byte) (ops : List Nat) :
    Stimulus.imm8 ⟨selector u o b, ops⟩ = b := by
  have hb := b.isLt
  apply BitVec.eq_of_toNat_eq
  simp only [Stimulus.imm8, BitVec.extractLsb'_toNat, selector_toNat, Nat.shiftRight_zero]
  omega

/-- A stimulus is its fields. -/
theorem stimulus_eta {w : Stimulus} {u o : BitVec 4} (hu : w.unit = u.toNat) (ho : w.op = o.toNat) :
    w = ⟨selector u o w.imm8, w.ops⟩ := by
  have h : w.sel = selector u o w.imm8 := by
    apply BitVec.eq_of_toNat_eq
    rw [selector_toNat, ← hu, ← ho]
    have := w.sel.isLt
    simp only [Stimulus.unit, Stimulus.op, Stimulus.imm8, BitVec.extractLsb'_toNat,
      Nat.shiftRight_eq_div_pow]
    omega
  obtain ⟨sel, ops⟩ := w
  exact congrArg (Stimulus.mk · ops) h

theorem decodeS_eq_ok {w : Stimulus} {i j : Instr} :
    decodeS w i = .ok j ↔ w.imm8 = 0 ∧ w.ops = [] ∧ i = j := by
  unfold decodeS
  split
  · simp_all
  · split <;> simp_all

theorem decodeB_eq_ok {w : Stimulus} {i : Byte → Instr} {j : Instr} :
    decodeB w i = .ok j ↔ w.ops = [] ∧ i w.imm8 = j := by
  unfold decodeB
  split <;> simp_all

theorem decodeX_eq_ok {w : Stimulus} {f : List Nat → Option Instr} {j : Instr} :
    decodeX w f = .ok j ↔ w.imm8 = 0 ∧ f w.ops = some j := by
  unfold decodeX
  split
  · simp_all
  · split <;> simp_all

/-- An immediate whose upper seven bits are zero is 0 or 1. -/
theorem popImmediate_cases : ∀ b : Byte,
    (b.extractLsb' 1 7 ≠ 0 ∧ b ≠ 0 ∧ b ≠ 1) ∨ (b.extractLsb' 1 7 = 0 ∧ b = 0 ∧ b.getLsbD 0 = false)
      ∨ (b.extractLsb' 1 7 = 0 ∧ b = 1 ∧ b.getLsbD 0 = true) := by decide

theorem decodePop_eq_ok {w : Stimulus} {j : Instr} :
    decodePop w = .ok j ↔
      w.ops = [] ∧ ((w.imm8 = 0 ∧ .rbPop false = j) ∨ (w.imm8 = 1 ∧ .rbPop true = j)) := by
  unfold decodePop
  rcases popImmediate_cases w.imm8 with ⟨h1, h2, h3⟩ | ⟨h1, h2, h3⟩ | ⟨h1, h2, h3⟩
  · simp only [h1, ne_eq, not_false_eq_true, if_true, h2, h3, false_and, or_self, and_false,
      reduceCtorEq]
  · rw [h1, h2]; by_cases ho : w.ops = [] <;> simp [ho]
  · rw [h1, h2]; by_cases ho : w.ops = [] <;> simp [ho]

/-- Reading back the numbers of a list of bytes. -/
@[simp] theorem readBytes_toNat (p : List Byte) : readBytes (p.map BitVec.toNat) = some p := by
  induction p with
  | nil => rfl
  | cons b p ih => simp [readBytes, ih, b.isLt, BitVec.ofNat_toNat]

theorem readBytes_eq_some {l : List Nat} {p : List Byte} :
    readBytes l = some p ↔ p.map BitVec.toNat = l := by
  constructor
  · intro h
    induction l generalizing p with
    | nil => simp only [readBytes, Option.some.injEq] at h; simp [← h]
    | cons n l ih =>
      simp only [readBytes] at h
      split at h
      · rename_i hn
        obtain ⟨q, hq, rfl⟩ := Option.map_eq_some_iff.1 h
        simp only [List.map_cons, ih hq, BitVec.toNat_ofNat, List.cons.injEq, and_true]
        omega
      · cases h
  · rintro rfl; exact readBytes_toNat p

end Sys2Proof
end

