-- ==== Sys2Proof/Laws/Memory.lean ====
section
/-! SUPPORT. The laws of the byte stores: a read after a write, the canonical form kept, the size kept. -/

namespace Sys2Proof.Machine

/-- A read after a write gives the byte written at its index and the old byte elsewhere. -/
@[simp] theorem Memory.read_write (m : Memory) (i j : Nat) (b : Byte) :
    Memory.read (Memory.write i b m) j = if j = i then some b else Memory.read m j := by
  induction m with
  | nil => simp [Memory.write, Memory.read]
  | cons cell rest ih =>
    obtain ⟨k, c⟩ := cell
    simp only [Memory.write]
    split
    · simp [Memory.read]
    · split
      · subst_vars; simp only [Memory.read]; split <;> rfl
      · simp only [Memory.read, ih]
        split
        · subst_vars; simp_all [eq_comm]
        · rfl

/-- A read after writing a list from `i` on. -/
theorem Memory.read_writeList (bs : List Byte) (i j : Nat) (m : Memory) :
    Memory.read (Memory.writeList i bs m) j =
      if i ≤ j ∧ j < i + bs.length then bs[j - i]? else Memory.read m j := by
  induction bs generalizing i m with
  | nil => simp [Memory.writeList]
  | cons b rest ih =>
    simp only [Memory.writeList, ih, Memory.read_write, List.length_cons]
    by_cases h1 : i + 1 ≤ j ∧ j < i + 1 + rest.length
    · have h2 : i ≤ j ∧ j < i + (rest.length + 1) := by omega
      have h3 : j - i = (j - (i + 1)) + 1 := by omega
      rw [if_pos h1, if_pos h2, h3, List.getElem?_cons_succ]
    · rw [if_neg h1]
      by_cases h2 : j = i
      · subst h2; simp
      · rw [if_neg h2, if_neg (by omega)]

/-- The entries of a store that are all past `i`. -/
theorem Memory.wf_cons (i : Nat) (b : Byte) (m : Memory) :
    Memory.wf ((i, b) :: m) = true ↔ (∀ cell ∈ m, i < cell.1) ∧ Memory.wf m = true := by
  induction m generalizing i b with
  | nil => simp [Memory.wf]
  | cons cell rest ih =>
    obtain ⟨j, c⟩ := cell
    simp only [Memory.wf, Bool.and_eq_true, decide_eq_true_eq, List.forall_mem_cons]
    constructor
    · rintro ⟨h, hw⟩
      exact ⟨⟨h, fun x hx => lt_trans h (((ih j c).1 hw).1 x hx)⟩, hw⟩
    · rintro ⟨⟨h, _⟩, hw⟩
      exact ⟨h, hw⟩

/-- Where the entries of a store after a write come from. -/
theorem Memory.mem_write {i : Nat} {b : Byte} {m : Memory} {cell : Host.Cell}
    (h : cell ∈ Memory.write i b m) : cell = (i, b) ∨ cell ∈ m := by
  induction m with
  | nil => simpa [Memory.write] using h
  | cons head rest ih =>
    obtain ⟨j, c⟩ := head
    simp only [Memory.write] at h
    split at h
    · simpa using h
    · split at h
      · rcases List.mem_cons.1 h with h | h
        · exact .inl h
        · exact .inr (List.mem_cons_of_mem _ h)
      · rcases List.mem_cons.1 h with h | h
        · exact .inr (h ▸ List.mem_cons_self)
        · exact (ih h).imp_right (List.mem_cons_of_mem _)

/-- A write keeps the canonical form. -/
theorem Memory.wf_write {m : Memory} (i : Nat) (b : Byte) (hm : Memory.wf m = true) :
    Memory.wf (Memory.write i b m) = true := by
  induction m with
  | nil => simp [Memory.write, Memory.wf]
  | cons head rest ih =>
    obtain ⟨j, c⟩ := head
    have ⟨hlt, hw⟩ := (Memory.wf_cons j c rest).1 hm
    simp only [Memory.write]
    split
    · rename_i hij
      refine (Memory.wf_cons _ _ _).2 ⟨?_, hm⟩
      rintro cell (_ | ⟨_, hc⟩)
      · exact hij
      · exact lt_trans hij (hlt _ hc)
    · split
      · subst_vars; exact (Memory.wf_cons _ _ _).2 ⟨hlt, hw⟩
      · refine (Memory.wf_cons _ _ _).2 ⟨fun cell hc => ?_, ih hw⟩
        rcases Memory.mem_write hc with rfl | hc
        · show j < i; omega
        · exact hlt _ hc

/-- A write below the size keeps every address below it. -/
theorem Memory.below_write {m : Memory} {size i : Nat} (b : Byte) (hi : i < size)
    (hm : Memory.Below size m) : Memory.Below size (Memory.write i b m) := by
  intro cell hc
  rcases Memory.mem_write hc with rfl | hc
  · exact hi
  · exact hm cell hc

/-- Writing a list keeps the canonical form. -/
theorem Memory.wf_writeList (bs : List Byte) (i : Nat) {m : Memory} (hm : Memory.wf m = true) :
    Memory.wf (Memory.writeList i bs m) = true := by
  induction bs generalizing i m with
  | nil => exact hm
  | cons b rest ih => exact ih _ (Memory.wf_write i b hm)

/-- Writing a list that ends below the size keeps every address below it. -/
theorem Memory.below_writeList (bs : List Byte) {i size : Nat} {m : Memory}
    (hi : i + bs.length ≤ size) (hm : Memory.Below size m) :
    Memory.Below size (Memory.writeList i bs m) := by
  induction bs generalizing i m with
  | nil => exact hm
  | cons b rest ih =>
    simp only [List.length_cons] at hi
    exact ih (by omega) (Memory.below_write b (by omega) hm)

/-- All a store can do: it writes below the size. -/
theorem Memory.store_eq_some {size i : Nat} {b : Byte} {m m' : Memory} :
    Memory.store size i b m = some m' ↔ i < size ∧ Memory.write i b m = m' := by
  unfold Memory.store
  split <;> simp_all

/-- A byte at or past the size has never been written. -/
theorem Memory.read_of_below {m : Memory} {size i : Nat} (hm : Memory.Below size m) (hi : size ≤ i) :
    Memory.read m i = none := by
  induction m with
  | nil => rfl
  | cons cell rest ih =>
    obtain ⟨j, c⟩ := cell
    have hj : j < size := hm (j, c) List.mem_cons_self
    simp only [Memory.read]
    rw [if_neg (by omega)]
    exact ih fun x hx => hm x (List.mem_cons_of_mem _ hx)

/-- All a ring write can do to the canonical form and the size. -/
theorem ringWrite_keeps {size mask : Nat} {bs : List Byte} {m m' : Memory} {c c' : Nat}
    (h : ringWrite size mask bs m c = some (m', c')) (hw : Memory.wf m = true)
    (hb : Memory.Below size m) : Memory.wf m' = true ∧ Memory.Below size m' := by
  induction bs generalizing m c with
  | nil => simp only [ringWrite, Option.some.injEq, Prod.mk.injEq] at h; exact h.1 ▸ ⟨hw, hb⟩
  | cons b rest ih =>
    simp only [ringWrite] at h
    split at h
    · exact absurd h (by simp)
    · rename_i m1 hs
      obtain ⟨hc, rfl⟩ := Memory.store_eq_some.1 hs
      exact ih h (Memory.wf_write c b hw) (Memory.below_write b hc hb)

/-- A ring read of `n` bytes returns `n` bytes. -/
theorem ringRead_length {m : Memory} {mask n c : Nat} {bs : List Byte} {c' : Nat}
    (h : ringRead m mask n c = some (bs, c')) : bs.length = n := by
  induction n generalizing c bs with
  | zero => simp only [ringRead, Option.some.injEq, Prod.mk.injEq] at h; simp [← h.1]
  | succ n ih =>
    simp only [ringRead] at h
    split at h
    · exact absurd h (by simp)
    · split at h
      · exact absurd h (by simp)
      · rename_i hr
        simp only [Option.some.injEq, Prod.mk.injEq] at h
        obtain ⟨rfl, rfl⟩ := h
        simpa using ih hr

end Sys2Proof.Machine
end

