-- ==== Sys2Proof/Laws/State.lean ====
section
/-! SUPPORT. One lemma per field per named update of the state, each true by rfl. -/

namespace Sys2Proof.Machine

/-! ### wake -/

@[simp] theorem wake_cfg (s : State) : s.wake.cfg = s.cfg := rfl
@[simp] theorem wake_script (s : State) : s.wake.script = s.script := rfl
@[simp] theorem wake_agent (s : State) : s.wake.agent = s.agent := rfl
@[simp] theorem wake_pwrDepth (s : State) : s.wake.pwrDepth = 0 := rfl
@[simp] theorem wake_em (s : State) : s.wake.em = s.em := rfl
@[simp] theorem wake_rb (s : State) : s.wake.rb = s.rb := rfl
@[simp] theorem wake_tx (s : State) : s.wake.tx = s.tx := rfl
@[simp] theorem wake_rx (s : State) : s.wake.rx = s.rx := rfl
@[simp] theorem wake_tw (s : State) : s.wake.tw = s.tw := rfl
@[simp] theorem wake_ev (s : State) : s.wake.ev = s.ev := rfl
@[simp] theorem wake_sys (s : State) : s.wake.sys = s.sys := rfl
@[simp] theorem wake_txLine (s : State) : s.wake.txLine = s.txLine := rfl
@[simp] theorem wake_twOut (s : State) : s.wake.twOut = s.twOut := rfl
@[simp] theorem wake_ret (s : State) : s.wake.ret = s.ret := rfl

/-! ### setRet -/

@[simp] theorem setRet_cfg (s : State) (r : Ret) : (s.setRet r).cfg = s.cfg := rfl
@[simp] theorem setRet_script (s : State) (r : Ret) : (s.setRet r).script = s.script := rfl
@[simp] theorem setRet_agent (s : State) (r : Ret) : (s.setRet r).agent = s.agent := rfl
@[simp] theorem setRet_pwrDepth (s : State) (r : Ret) : (s.setRet r).pwrDepth = s.pwrDepth := rfl
@[simp] theorem setRet_em (s : State) (r : Ret) : (s.setRet r).em = s.em := rfl
@[simp] theorem setRet_rb (s : State) (r : Ret) : (s.setRet r).rb = s.rb := rfl
@[simp] theorem setRet_tx (s : State) (r : Ret) : (s.setRet r).tx = s.tx := rfl
@[simp] theorem setRet_rx (s : State) (r : Ret) : (s.setRet r).rx = s.rx := rfl
@[simp] theorem setRet_tw (s : State) (r : Ret) : (s.setRet r).tw = s.tw := rfl
@[simp] theorem setRet_ev (s : State) (r : Ret) : (s.setRet r).ev = s.ev := rfl
@[simp] theorem setRet_sys (s : State) (r : Ret) : (s.setRet r).sys = s.sys := rfl
@[simp] theorem setRet_txLine (s : State) (r : Ret) : (s.setRet r).txLine = s.txLine := rfl
@[simp] theorem setRet_twOut (s : State) (r : Ret) : (s.setRet r).twOut = s.twOut := rfl
@[simp] theorem setRet_ret (s : State) (r : Ret) : (s.setRet r).ret = some r := rfl

/-! ### returnToMain -/

@[simp] theorem returnToMain_cfg (s : State) : s.returnToMain.cfg = s.cfg := rfl
@[simp] theorem returnToMain_script (s : State) : s.returnToMain.script = s.script := rfl
@[simp] theorem returnToMain_agent (s : State) : s.returnToMain.agent = .main := rfl
@[simp] theorem returnToMain_pwrDepth (s : State) : s.returnToMain.pwrDepth = s.pwrDepth := rfl
@[simp] theorem returnToMain_em (s : State) : s.returnToMain.em = s.em := rfl
@[simp] theorem returnToMain_rb (s : State) : s.returnToMain.rb = s.rb := rfl
@[simp] theorem returnToMain_tx (s : State) : s.returnToMain.tx = s.tx := rfl
@[simp] theorem returnToMain_rx (s : State) : s.returnToMain.rx = s.rx := rfl
@[simp] theorem returnToMain_tw (s : State) : s.returnToMain.tw = s.tw := rfl
@[simp] theorem returnToMain_ev (s : State) : s.returnToMain.ev = s.ev := rfl
@[simp] theorem returnToMain_sys (s : State) : s.returnToMain.sys = s.sys := rfl
@[simp] theorem returnToMain_txLine (s : State) : s.returnToMain.txLine = s.txLine := rfl
@[simp] theorem returnToMain_twOut (s : State) : s.returnToMain.twOut = s.twOut := rfl
@[simp] theorem returnToMain_ret (s : State) : s.returnToMain.ret = s.ret := rfl

/-! ### setCount -/

@[simp] theorem setCount_cfg (s : State) (d n : Nat) : (s.setCount d n).cfg = s.cfg := rfl
@[simp] theorem setCount_script (s : State) (d n : Nat) : (s.setCount d n).script = s.script := rfl
@[simp] theorem setCount_agent (s : State) (d n : Nat) : (s.setCount d n).agent = s.agent := rfl
@[simp] theorem setCount_pwrDepth (s : State) (d n : Nat) : (s.setCount d n).pwrDepth = s.pwrDepth := rfl
@[simp] theorem setCount_em (s : State) (d n : Nat) : (s.setCount d n).em = { s.em with count := s.em.count.set d n } := rfl
@[simp] theorem setCount_rb (s : State) (d n : Nat) : (s.setCount d n).rb = s.rb := rfl
@[simp] theorem setCount_tx (s : State) (d n : Nat) : (s.setCount d n).tx = s.tx := rfl
@[simp] theorem setCount_rx (s : State) (d n : Nat) : (s.setCount d n).rx = s.rx := rfl
@[simp] theorem setCount_tw (s : State) (d n : Nat) : (s.setCount d n).tw = s.tw := rfl
@[simp] theorem setCount_ev (s : State) (d n : Nat) : (s.setCount d n).ev = s.ev := rfl
@[simp] theorem setCount_sys (s : State) (d n : Nat) : (s.setCount d n).sys = s.sys := rfl
@[simp] theorem setCount_txLine (s : State) (d n : Nat) : (s.setCount d n).txLine = s.txLine := rfl
@[simp] theorem setCount_twOut (s : State) (d n : Nat) : (s.setCount d n).twOut = s.twOut := rfl
@[simp] theorem setCount_ret (s : State) (d n : Nat) : (s.setCount d n).ret = s.ret := rfl

/-! ### emitLine -/

@[simp] theorem emitLine_cfg (s : State) (b : Byte) : (s.emitLine b).cfg = s.cfg := rfl
@[simp] theorem emitLine_script (s : State) (b : Byte) : (s.emitLine b).script = s.script := rfl
@[simp] theorem emitLine_agent (s : State) (b : Byte) : (s.emitLine b).agent = s.agent := rfl
@[simp] theorem emitLine_pwrDepth (s : State) (b : Byte) : (s.emitLine b).pwrDepth = s.pwrDepth := rfl
@[simp] theorem emitLine_em (s : State) (b : Byte) : (s.emitLine b).em = s.em := rfl
@[simp] theorem emitLine_rb (s : State) (b : Byte) : (s.emitLine b).rb = s.rb := rfl
@[simp] theorem emitLine_tx (s : State) (b : Byte) : (s.emitLine b).tx = s.tx := rfl
@[simp] theorem emitLine_rx (s : State) (b : Byte) : (s.emitLine b).rx = s.rx := rfl
@[simp] theorem emitLine_tw (s : State) (b : Byte) : (s.emitLine b).tw = s.tw := rfl
@[simp] theorem emitLine_ev (s : State) (b : Byte) : (s.emitLine b).ev = s.ev := rfl
@[simp] theorem emitLine_sys (s : State) (b : Byte) : (s.emitLine b).sys = s.sys := rfl
@[simp] theorem emitLine_txLine (s : State) (b : Byte) : (s.emitLine b).txLine = s.txLine ++ [b] := rfl
@[simp] theorem emitLine_twOut (s : State) (b : Byte) : (s.emitLine b).twOut = s.twOut := rfl
@[simp] theorem emitLine_ret (s : State) (b : Byte) : (s.emitLine b).ret = s.ret := rfl

/-! ### emitBus -/

@[simp] theorem emitBus_cfg (s : State) (a : List BusAction) : (s.emitBus a).cfg = s.cfg := rfl
@[simp] theorem emitBus_script (s : State) (a : List BusAction) : (s.emitBus a).script = s.script := rfl
@[simp] theorem emitBus_agent (s : State) (a : List BusAction) : (s.emitBus a).agent = s.agent := rfl
@[simp] theorem emitBus_pwrDepth (s : State) (a : List BusAction) : (s.emitBus a).pwrDepth = s.pwrDepth := rfl
@[simp] theorem emitBus_em (s : State) (a : List BusAction) : (s.emitBus a).em = s.em := rfl
@[simp] theorem emitBus_rb (s : State) (a : List BusAction) : (s.emitBus a).rb = s.rb := rfl
@[simp] theorem emitBus_tx (s : State) (a : List BusAction) : (s.emitBus a).tx = s.tx := rfl
@[simp] theorem emitBus_rx (s : State) (a : List BusAction) : (s.emitBus a).rx = s.rx := rfl
@[simp] theorem emitBus_tw (s : State) (a : List BusAction) : (s.emitBus a).tw = s.tw := rfl
@[simp] theorem emitBus_ev (s : State) (a : List BusAction) : (s.emitBus a).ev = s.ev := rfl
@[simp] theorem emitBus_sys (s : State) (a : List BusAction) : (s.emitBus a).sys = s.sys := rfl
@[simp] theorem emitBus_txLine (s : State) (a : List BusAction) : (s.emitBus a).txLine = s.txLine := rfl
@[simp] theorem emitBus_twOut (s : State) (a : List BusAction) : (s.emitBus a).twOut = s.twOut ++ a := rfl
@[simp] theorem emitBus_ret (s : State) (a : List BusAction) : (s.emitBus a).ret = s.ret := rfl

/-! ### twGoto -/

@[simp] theorem twGoto_cfg (s : State) (q : TwState) : (s.twGoto q).cfg = s.cfg := rfl
@[simp] theorem twGoto_script (s : State) (q : TwState) : (s.twGoto q).script = s.script := rfl
@[simp] theorem twGoto_agent (s : State) (q : TwState) : (s.twGoto q).agent = s.agent := rfl
@[simp] theorem twGoto_pwrDepth (s : State) (q : TwState) : (s.twGoto q).pwrDepth = s.pwrDepth := rfl
@[simp] theorem twGoto_em (s : State) (q : TwState) : (s.twGoto q).em = s.em := rfl
@[simp] theorem twGoto_rb (s : State) (q : TwState) : (s.twGoto q).rb = s.rb := rfl
@[simp] theorem twGoto_tx (s : State) (q : TwState) : (s.twGoto q).tx = s.tx := rfl
@[simp] theorem twGoto_rx (s : State) (q : TwState) : (s.twGoto q).rx = s.rx := rfl
@[simp] theorem twGoto_tw (s : State) (q : TwState) : (s.twGoto q).tw = { s.tw with state := q } := rfl
@[simp] theorem twGoto_ev (s : State) (q : TwState) : (s.twGoto q).ev = s.ev := rfl
@[simp] theorem twGoto_sys (s : State) (q : TwState) : (s.twGoto q).sys = s.sys := rfl
@[simp] theorem twGoto_txLine (s : State) (q : TwState) : (s.twGoto q).txLine = s.txLine := rfl
@[simp] theorem twGoto_twOut (s : State) (q : TwState) : (s.twGoto q).twOut = s.twOut := rfl
@[simp] theorem twGoto_ret (s : State) (q : TwState) : (s.twGoto q).ret = s.ret := rfl

/-! ### setResult -/

@[simp] theorem setResult_cfg (s : State) (r : Word32) : (s.setResult r).cfg = s.cfg := rfl
@[simp] theorem setResult_script (s : State) (r : Word32) : (s.setResult r).script = s.script := rfl
@[simp] theorem setResult_agent (s : State) (r : Word32) : (s.setResult r).agent = s.agent := rfl
@[simp] theorem setResult_pwrDepth (s : State) (r : Word32) : (s.setResult r).pwrDepth = s.pwrDepth := rfl
@[simp] theorem setResult_em (s : State) (r : Word32) : (s.setResult r).em = s.em := rfl
@[simp] theorem setResult_rb (s : State) (r : Word32) : (s.setResult r).rb = s.rb := rfl
@[simp] theorem setResult_tx (s : State) (r : Word32) : (s.setResult r).tx = s.tx := rfl
@[simp] theorem setResult_rx (s : State) (r : Word32) : (s.setResult r).rx = s.rx := rfl
@[simp] theorem setResult_tw (s : State) (r : Word32) : (s.setResult r).tw = { s.tw with result := r } := rfl
@[simp] theorem setResult_ev (s : State) (r : Word32) : (s.setResult r).ev = s.ev := rfl
@[simp] theorem setResult_sys (s : State) (r : Word32) : (s.setResult r).sys = s.sys := rfl
@[simp] theorem setResult_txLine (s : State) (r : Word32) : (s.setResult r).txLine = s.txLine := rfl
@[simp] theorem setResult_twOut (s : State) (r : Word32) : (s.setResult r).twOut = s.twOut := rfl
@[simp] theorem setResult_ret (s : State) (r : Word32) : (s.setResult r).ret = s.ret := rfl

/-! ### takeFrame -/

@[simp] theorem takeFrame_cfg (s : State) (p : List Byte) (c : Nat) : (takeFrame p c s).cfg = s.cfg := rfl
@[simp] theorem takeFrame_script (s : State) (p : List Byte) (c : Nat) : (takeFrame p c s).script = s.script := rfl
@[simp] theorem takeFrame_agent (s : State) (p : List Byte) (c : Nat) : (takeFrame p c s).agent = s.agent := rfl
@[simp] theorem takeFrame_pwrDepth (s : State) (p : List Byte) (c : Nat) : (takeFrame p c s).pwrDepth = s.pwrDepth := rfl
@[simp] theorem takeFrame_em (s : State) (p : List Byte) (c : Nat) : (takeFrame p c s).em = s.em := rfl
@[simp] theorem takeFrame_rb (s : State) (p : List Byte) (c : Nat) : (takeFrame p c s).rb = { s.rb with rd := c, scratch := Memory.writeList 0 (p ++ [0]) s.rb.scratch } := rfl
@[simp] theorem takeFrame_tx (s : State) (p : List Byte) (c : Nat) : (takeFrame p c s).tx = s.tx := rfl
@[simp] theorem takeFrame_rx (s : State) (p : List Byte) (c : Nat) : (takeFrame p c s).rx = s.rx := rfl
@[simp] theorem takeFrame_tw (s : State) (p : List Byte) (c : Nat) : (takeFrame p c s).tw = s.tw := rfl
@[simp] theorem takeFrame_ev (s : State) (p : List Byte) (c : Nat) : (takeFrame p c s).ev = s.ev := rfl
@[simp] theorem takeFrame_sys (s : State) (p : List Byte) (c : Nat) : (takeFrame p c s).sys = s.sys := rfl
@[simp] theorem takeFrame_txLine (s : State) (p : List Byte) (c : Nat) : (takeFrame p c s).txLine = s.txLine := rfl
@[simp] theorem takeFrame_twOut (s : State) (p : List Byte) (c : Nat) : (takeFrame p c s).twOut = s.twOut := rfl
@[simp] theorem takeFrame_ret (s : State) (p : List Byte) (c : Nat) : (takeFrame p c s).ret = s.ret := rfl

/-! ### copyToTestSlot -/

@[simp] theorem copyToTestSlot_cfg (s : State) (p : List Byte) : (copyToTestSlot p s).cfg = s.cfg := rfl
@[simp] theorem copyToTestSlot_script (s : State) (p : List Byte) : (copyToTestSlot p s).script = s.script := rfl
@[simp] theorem copyToTestSlot_agent (s : State) (p : List Byte) : (copyToTestSlot p s).agent = s.agent := rfl
@[simp] theorem copyToTestSlot_pwrDepth (s : State) (p : List Byte) : (copyToTestSlot p s).pwrDepth = s.pwrDepth := rfl
@[simp] theorem copyToTestSlot_em (s : State) (p : List Byte) : (copyToTestSlot p s).em = s.em := rfl
@[simp] theorem copyToTestSlot_rb (s : State) (p : List Byte) : (copyToTestSlot p s).rb = { s.rb with testSlot := Memory.writeList 0 (p ++ [0]) s.rb.testSlot } := rfl
@[simp] theorem copyToTestSlot_tx (s : State) (p : List Byte) : (copyToTestSlot p s).tx = s.tx := rfl
@[simp] theorem copyToTestSlot_rx (s : State) (p : List Byte) : (copyToTestSlot p s).rx = s.rx := rfl
@[simp] theorem copyToTestSlot_tw (s : State) (p : List Byte) : (copyToTestSlot p s).tw = s.tw := rfl
@[simp] theorem copyToTestSlot_ev (s : State) (p : List Byte) : (copyToTestSlot p s).ev = s.ev := rfl
@[simp] theorem copyToTestSlot_sys (s : State) (p : List Byte) : (copyToTestSlot p s).sys = s.sys := rfl
@[simp] theorem copyToTestSlot_txLine (s : State) (p : List Byte) : (copyToTestSlot p s).txLine = s.txLine := rfl
@[simp] theorem copyToTestSlot_twOut (s : State) (p : List Byte) : (copyToTestSlot p s).twOut = s.twOut := rfl
@[simp] theorem copyToTestSlot_ret (s : State) (p : List Byte) : (copyToTestSlot p s).ret = s.ret := rfl

/-! ### deliver -/

@[simp] theorem deliver_cfg (s : State) (l : ScriptLine) : (s.deliver l).cfg = s.cfg := rfl
@[simp] theorem deliver_script (s : State) (l : ScriptLine) : (s.deliver l).script = l :: s.script := rfl
@[simp] theorem deliver_agent (s : State) (l : ScriptLine) : (s.deliver l).agent = s.agent := rfl
@[simp] theorem deliver_pwrDepth (s : State) (l : ScriptLine) : (s.deliver l).pwrDepth = s.pwrDepth := rfl
@[simp] theorem deliver_em (s : State) (l : ScriptLine) : (s.deliver l).em = s.em := rfl
@[simp] theorem deliver_rb (s : State) (l : ScriptLine) : (s.deliver l).rb = s.rb := rfl
@[simp] theorem deliver_tx (s : State) (l : ScriptLine) : (s.deliver l).tx = s.tx := rfl
@[simp] theorem deliver_rx (s : State) (l : ScriptLine) : (s.deliver l).rx = s.rx := rfl
@[simp] theorem deliver_tw (s : State) (l : ScriptLine) : (s.deliver l).tw = s.tw := rfl
@[simp] theorem deliver_ev (s : State) (l : ScriptLine) : (s.deliver l).ev = s.ev := rfl
@[simp] theorem deliver_sys (s : State) (l : ScriptLine) : (s.deliver l).sys = s.sys := rfl
@[simp] theorem deliver_txLine (s : State) (l : ScriptLine) : (s.deliver l).txLine = s.txLine := rfl
@[simp] theorem deliver_twOut (s : State) (l : ScriptLine) : (s.deliver l).twOut = s.twOut := rfl
@[simp] theorem deliver_ret (s : State) (l : ScriptLine) : (s.deliver l).ret = s.ret := rfl

/-! ### The flag computations -/

@[simp] theorem txFlagsStart_buf (u : TxUnit) : (txFlagsStart u).buf = u.buf := rfl
@[simp] theorem txFlagsStart_len (u : TxUnit) : (txFlagsStart u).len = u.len := rfl
@[simp] theorem txFlagsStart_idx (u : TxUnit) : (txFlagsStart u).idx = u.idx := rfl
@[simp] theorem txFlagsStart_state (u : TxUnit) : (txFlagsStart u).state = u.state := rfl
@[simp] theorem txFlagsStart_txcIen (u : TxUnit) : (txFlagsStart u).txcIen = u.txcIen := rfl
@[simp] theorem txFlagsStart_busy (u : TxUnit) : (txFlagsStart u).busy = true := rfl
@[simp] theorem txFlagsStart_txblIen (u : TxUnit) : (txFlagsStart u).txblIen = true := rfl
@[simp] theorem txFlagsHandedOver_buf (u : TxUnit) : (txFlagsHandedOver u).buf = u.buf := rfl
@[simp] theorem txFlagsHandedOver_len (u : TxUnit) : (txFlagsHandedOver u).len = u.len := rfl
@[simp] theorem txFlagsHandedOver_idx (u : TxUnit) : (txFlagsHandedOver u).idx = u.idx := rfl
@[simp] theorem txFlagsHandedOver_state (u : TxUnit) : (txFlagsHandedOver u).state = u.state := rfl
@[simp] theorem txFlagsHandedOver_busy (u : TxUnit) : (txFlagsHandedOver u).busy = u.busy := rfl
@[simp] theorem txFlagsHandedOver_txblIen (u : TxUnit) : (txFlagsHandedOver u).txblIen = false := rfl
@[simp] theorem txFlagsHandedOver_txcIen (u : TxUnit) : (txFlagsHandedOver u).txcIen = true := rfl
@[simp] theorem txFlagsComplete_buf (u : TxUnit) : (txFlagsComplete u).buf = u.buf := rfl
@[simp] theorem txFlagsComplete_len (u : TxUnit) : (txFlagsComplete u).len = u.len := rfl
@[simp] theorem txFlagsComplete_idx (u : TxUnit) : (txFlagsComplete u).idx = u.idx := rfl
@[simp] theorem txFlagsComplete_state (u : TxUnit) : (txFlagsComplete u).state = u.state := rfl
@[simp] theorem txFlagsComplete_txblIen (u : TxUnit) : (txFlagsComplete u).txblIen = u.txblIen := rfl
@[simp] theorem txFlagsComplete_busy (u : TxUnit) : (txFlagsComplete u).busy = false := rfl
@[simp] theorem txFlagsComplete_txcIen (u : TxUnit) : (txFlagsComplete u).txcIen = false := rfl
@[simp] theorem rxFlagBlock_buf (b : Bool) (u : RxUnit) : (rxFlagBlock b u).buf = u.buf := rfl
@[simp] theorem rxFlagBlock_idx (b : Bool) (u : RxUnit) : (rxFlagBlock b u).idx = u.idx := rfl
@[simp] theorem rxFlagBlock_state (b : Bool) (u : RxUnit) : (rxFlagBlock b u).state = u.state := rfl
@[simp] theorem rxFlagBlock_startByte (b : Bool) (u : RxUnit) : (rxFlagBlock b u).startByte = u.startByte := rfl
@[simp] theorem rxFlagBlock_sigByte (b : Bool) (u : RxUnit) : (rxFlagBlock b u).sigByte = u.sigByte := rfl
@[simp] theorem rxFlagBlock_block (b : Bool) (u : RxUnit) : (rxFlagBlock b u).block = b := rfl
@[simp] theorem twFlagBusy_state (b : Bool) (u : TwUnit) : (twFlagBusy b u).state = u.state := rfl
@[simp] theorem twFlagBusy_addr (b : Bool) (u : TwUnit) : (twFlagBusy b u).addr = u.addr := rfl
@[simp] theorem twFlagBusy_cmd (b : Bool) (u : TwUnit) : (twFlagBusy b u).cmd = u.cmd := rfl
@[simp] theorem twFlagBusy_isRead (b : Bool) (u : TwUnit) : (twFlagBusy b u).isRead = u.isRead := rfl
@[simp] theorem twFlagBusy_nbytes (b : Bool) (u : TwUnit) : (twFlagBusy b u).nbytes = u.nbytes := rfl
@[simp] theorem twFlagBusy_result (b : Bool) (u : TwUnit) : (twFlagBusy b u).result = u.result := rfl
@[simp] theorem twFlagBusy_busBusy (b : Bool) (u : TwUnit) : (twFlagBusy b u).busBusy = b := rfl

end Sys2Proof.Machine
end

