-- ==== Sys2Proof/Laws/Ops.lean ====
section
/-! SUPPORT. For each shared operation, everything it can do when it answers a next state. -/

namespace Sys2Proof.Machine

@[simp] theorem andThen_next (s : State) (k : State → Result) : andThen (.next s) k = k s := rfl
@[simp] theorem andThen_fault (c : Fault) (k : State → Result) : andThen (.fault c) k = .fault c := rfl
@[simp] theorem andThen_refused (c : Refusal) (k : State → Result) :
    andThen (.refused c) k = .refused c := rfl

theorem andThen_eq_next {r : Result} {k : State → Result} {t : State} :
    andThen r k = .next t ↔ ∃ u, r = .next u ∧ k u = .next t := by
  cases r <;> simp

theorem andThen_eq_fault {r : Result} {k : State → Result} {c : Fault} :
    andThen r k = .fault c ↔ r = .fault c ∨ ∃ u, r = .next u ∧ k u = .fault c := by
  cases r <;> simp

theorem asMain_eq_next {s t : State} {k : State → Result} :
    asMain s k = .next t ↔ s.MainReady ∧ k s = .next t := by
  unfold asMain
  split
  · simp_all
  · split <;> simp_all [State.MainReady]

theorem asMain_eq_fault {s : State} {c : Fault} {k : State → Result} :
    asMain s k = .fault c ↔ s.MainReady ∧ k s = .fault c := by
  unfold asMain
  split
  · simp_all
  · split <;> simp_all [State.MainReady]

theorem asMainRing_eq_next {s t : State} {k : State → Result} :
    asMainRing s k = .next t ↔ s.MainReady ∧ k s = .next t := by
  unfold asMainRing
  split
  · simp_all
  · exact asMain_eq_next

theorem asMainRing_eq_fault {s : State} {c : Fault} {k : State → Result} :
    asMainRing s k = .fault c ↔ s.MainReady ∧ k s = .fault c := by
  unfold asMainRing
  split
  · simp_all
  · exact asMain_eq_fault

theorem asEvent_eq_next {a : Agent} {s t : State} {k : State → Result} :
    asEvent a s k = .next t ↔ s.agent = a ∧ ∃ u, k s = .next u ∧ u.returnToMain = t := by
  unfold asEvent
  split
  · simp_all
  · simp_all [andThen_eq_next]

theorem asEvent_eq_fault {a : Agent} {s : State} {c : Fault} {k : State → Result} :
    asEvent a s k = .fault c ↔ s.agent = a ∧ k s = .fault c := by
  unfold asEvent
  split
  · simp_all
  · simp_all [andThen_eq_fault]

/-- A MAIN operation that can run runs. -/
theorem asMain_ready {s : State} (h : s.MainReady) (k : State → Result) : asMain s k = k s := by
  simp [asMain, h.1, h.2]

/-- A ring operation that can run runs. -/
theorem asMainRing_ready {s : State} (h : s.MainReady) (k : State → Result) :
    asMainRing s k = k s := by
  simp [asMainRing, asMain, h.1, h.2]

/-- An event of the right agent runs its rule and returns to the main context. -/
theorem asEvent_ready {a : Agent} {s : State} (h : s.agent = a) (k : State → Result) :
    asEvent a s k = andThen (k s) fun t => .next t.returnToMain := by
  simp [asEvent, h]

theorem blockDepth_eq_next {d : Nat} {s t : State} :
    blockDepth d s = .next t ↔
      d < s.cfg.nDepths ∧ s.em.opened = true ∧ s.countAt d + 1 < s.cfg.emCeiling
      ∧ s.setCount d (s.countAt d + 1) = t := by
  unfold blockDepth
  split
  · simp; omega
  · split
    · simp_all
    · split
      · rename_i h1 h2 h3
        simp only [Host.Outcome.next.injEq]
        exact ⟨fun h => ⟨by omega, by simpa using h2, h3, h⟩, fun h => h.2.2.2⟩
      · simp_all

theorem unblockDepth_eq_next {d : Nat} {s t : State} :
    unblockDepth d s = .next t ↔
      d < s.cfg.nDepths ∧ s.em.opened = true ∧ 1 ≤ s.countAt d
      ∧ s.setCount d (s.countAt d - 1) = t := by
  unfold unblockDepth
  split
  · simp; omega
  · split
    · simp_all
    · split
      · rename_i h1 h2 h3
        simp only [Host.Outcome.next.injEq]
        exact ⟨fun h => ⟨by omega, by simpa using h2, h3, h⟩, fun h => h.2.2.2⟩
      · simp_all

@[simp] theorem depthOperand_eq (d : Byte) : depthOperand d = d.toNat := rfl

theorem blockDepth_range {d : Nat} {s : State} (h : s.cfg.nDepths ≤ d) :
    blockDepth d s = .refused .emDepthRange := if_pos h

theorem blockDepth_ceiling {d : Nat} {s : State} (h : d < s.cfg.nDepths) (ho : s.em.opened = true)
    (hc : s.cfg.emCeiling ≤ s.countAt d + 1) : blockDepth d s = .fault .emCeilingHit := by
  unfold blockDepth
  rw [if_neg (by omega), if_neg (by simp [ho]), if_neg (by omega)]

theorem unblockDepth_range {d : Nat} {s : State} (h : s.cfg.nDepths ≤ d) :
    unblockDepth d s = .refused .emDepthRange := if_pos h

theorem unblockDepth_underflow {d : Nat} {s : State} (h : d < s.cfg.nDepths)
    (ho : s.em.opened = true) (hc : s.countAt d = 0) : unblockDepth d s = .fault .emUnderflow := by
  unfold unblockDepth
  rw [if_neg (by omega), if_neg (by simp [ho]), if_neg (by omega)]

/-- Before `EM.OPEN` the inner block of a depth of the table is refused (60_exceptions.md R111). -/
theorem blockDepth_closed {d : Nat} {s : State} (h : d < s.cfg.nDepths) (ho : s.em.opened = false) :
    blockDepth d s = .refused .uninitialised := by
  unfold blockDepth
  rw [if_neg (by omega), if_pos ho]

theorem unblockDepth_closed {d : Nat} {s : State} (h : d < s.cfg.nDepths)
    (ho : s.em.opened = false) : unblockDepth d s = .refused .uninitialised := by
  unfold unblockDepth
  rw [if_neg (by omega), if_pos ho]

/-- Before `SCH.OPEN` a post is refused (60_exceptions.md R111). -/
theorem post_closed {m : EventMask} {s : State} (ho : s.ev.opened = false) :
    post m s = .refused .uninitialised := if_pos ho

/-- The inner block can only fault at the ceiling. -/
theorem blockDepth_eq_fault {d : Nat} {s : State} {c : Fault} :
    blockDepth d s = .fault c → c = .emCeilingHit := by
  unfold blockDepth
  split
  · simp
  · split
    · simp
    · split <;> simp [eq_comm]

/-- The inner unblock can only fault on a count of 0. -/
theorem unblockDepth_eq_fault {d : Nat} {s : State} {c : Fault} :
    unblockDepth d s = .fault c → c = .emUnderflow := by
  unfold unblockDepth
  split
  · simp
  · split
    · simp
    · split <;> simp [eq_comm]

theorem post_ne_fault {m : EventMask} {s : State} {c : Fault} : post m s ≠ .fault c := by
  unfold post
  split <;> simp

/-- The scan finds the floor that 40_energy_arbiter.md R63 describes. -/
theorem floor_isFloor {s : State} (h0 : 0 < s.cfg.nDepths)
    (hl : s.em.count.length = s.cfg.nDepths) : s.IsFloor s.floor := by
  unfold State.floor State.IsFloor
  have hget : ∀ d < s.cfg.nDepths, ∃ h, s.countAt d = s.em.count[d]'h := fun d hd =>
    ⟨hl ▸ hd, by simp [State.countAt, List.getD_eq_getElem?_getD, hl, hd]⟩
  cases h : s.em.count.findIdx? (· ≠ 0) with
  | none =>
    rw [List.findIdx?_eq_none_iff] at h
    refine .inr ⟨fun d hd => ?_, by simp only [Option.getD_none]; omega⟩
    obtain ⟨hd', hc⟩ := hget d hd
    rw [hc]
    simpa using h _ (List.getElem_mem hd')
  | some i =>
    obtain ⟨hi, h1, h2⟩ := List.findIdx?_eq_some_iff_getElem.1 h
    refine .inl ⟨hl ▸ hi, ?_, fun d hd => ?_⟩
    · obtain ⟨_, hc⟩ := hget i (hl ▸ hi)
      rw [Option.getD_some, hc]
      simpa using h1
    · obtain ⟨_, hc⟩ := hget d (lt_trans hd (hl ▸ hi))
      rw [hc]
      simpa using h2 d hd

/-- There is one floor. -/
theorem isFloor_unique {s : State} {f g : Nat} (hf : s.IsFloor f) (hg : s.IsFloor g) : f = g := by
  rcases hf with ⟨a, b, c⟩ | ⟨a, b⟩ <;> rcases hg with ⟨a', b', c'⟩ | ⟨a', b'⟩
  · rcases lt_trichotomy f g with h | h | h
    · exact absurd (c' f h) b
    · exact h
    · exact absurd (c g h) b'
  · exact absurd (a' f a) b
  · exact absurd (a g a') b'
  · omega

theorem post_eq_next {m : EventMask} {s t : State} :
    post m s = .next t ↔
      s.ev.opened = true ∧ { s with ev := { s.ev with mask := eventsAdd s.ev.mask m } } = t := by
  unfold post
  split <;> simp_all

/-- A write of one count leaves the others. -/
theorem countAt_setCount (s : State) (d n e : Nat) :
    (s.setCount d n).countAt e = if e = d ∧ d < s.em.count.length then n else s.countAt e := by
  simp only [State.countAt, setCount_em, List.getD_eq_getElem?_getD, List.getElem?_set]
  by_cases h : d = e
  · subst h
    by_cases h2 : d < s.em.count.length <;> simp [h2]
  · simp [h, Ne.symm h]

/-- No unit holds a block on a depth that is neither the transmitter's nor the bus's. -/
theorem heldBlocks_other {s : State} {d : Nat} (hx : d ≠ s.cfg.txBlockDepth)
    (hw : d ≠ s.cfg.twBlockDepth) : s.heldBlocks d = 0 := by
  simp [State.heldBlocks, Ne.symm hx, Ne.symm hw]

/-- Two depths decide whether every unit in flight holds its block. -/
theorem blocksHeld_iff {s : State} :
    s.BlocksHeld ↔ ∀ d ∈ [s.cfg.txBlockDepth, s.cfg.twBlockDepth], s.heldBlocks d ≤ s.countAt d := by
  refine ⟨fun h d _ => h d, fun h d => ?_⟩
  by_cases hx : d = s.cfg.txBlockDepth
  · exact h d (by simp [hx])
  · by_cases hw : d = s.cfg.twBlockDepth
    · exact h d (by simp [hw])
    · rw [heldBlocks_other hx hw]; exact Nat.zero_le _

theorem startTransmit_eq_next {text : List Byte} {s t : State} :
    startTransmit text s = .next t ↔
      s.tx.busy = false ∧ text.length + 1 ≤ s.cfg.txBufSize ∧ NoZeroByte text
      ∧ ∃ u, blockDepth s.cfg.txBlockDepth s = .next u
        ∧ t = { u with
            tx := txFlagsStart { s.tx with
              buf := Memory.writeList 0 text s.tx.buf, len := text.length, idx := 0,
              state := .sendChar } } := by
  have hz : text.contains 0 = false ↔ NoZeroByte text := by
    simp only [NoZeroByte, List.contains_eq_mem, decide_eq_false_iff_not]
    exact ⟨fun h b hb hb0 => h (hb0 ▸ hb), fun h hm => h 0 hm rfl⟩
  unfold startTransmit
  split
  · simp_all
  · split
    · simp; omega
    · split
      · rename_i h; simp only [← hz, h]; simp
      · rename_i h1 h2 h3
        have h3' : text.contains 0 = false := by simpa using h3
        simp only [andThen_eq_next, ← hz, h3', Host.Outcome.next.injEq]
        constructor
        · rintro ⟨u, hu, rfl⟩
          refine ⟨by simpa using h1, by omega, trivial, u, hu, ?_⟩
          obtain ⟨_, _, _, rfl⟩ := blockDepth_eq_next.1 hu
          rfl
        · rintro ⟨_, _, _, u, hu, rfl⟩
          refine ⟨u, hu, ?_⟩
          obtain ⟨_, _, _, rfl⟩ := blockDepth_eq_next.1 hu
          rfl

theorem receiveStart_eq_next {s t : State} :
    receiveStart s = .next t ↔
      s.rx.state ≠ .init ∧ s.rx.block = true ∧ 0 < s.cfg.rxBufSize
      ∧ t = { s.wake with rx := { s.rx with
          block := false, buf := Memory.write 0 s.rx.startByte s.rx.buf, idx := 1,
          state := .started } } := by
  unfold receiveStart
  split
  · simp_all
  · split
    · simp_all
    · rename_i h1 h2
      unfold Memory.store
      by_cases h : 0 < s.cfg.rxBufSize
      · simp only [if_pos h, Host.Outcome.next.injEq]
        exact ⟨fun ht => ⟨h1, by simpa using h2, h, ht.symm⟩, fun ht => ht.2.2.2.symm⟩
      · simp [h]

theorem receiveByte_eq_next {b : Byte} {s t : State} :
    receiveByte b s = .next t ↔
      s.rx.state ≠ .init ∧ s.rx.block = false ∧ s.rx.idx + 2 ≤ s.cfg.rxBufSize
      ∧ t = { s.wake with rx := { s.rx with
          buf := Memory.write s.rx.idx b s.rx.buf, idx := s.rx.idx + 1, state := .receiving } } := by
  unfold receiveByte
  split
  · simp_all
  · split
    · simp_all
    · split
      · simp; omega
      · rename_i h1 h2 h3
        have h4 : s.rx.idx < s.cfg.rxBufSize := by omega
        simp only [Memory.store, if_pos h4, Host.Outcome.next.injEq]
        exact ⟨fun h => ⟨h1, by simpa using h2, by omega, h.symm⟩, fun h => h.2.2.2.symm⟩

theorem receiveSignal_eq_next {s t : State} :
    receiveSignal s = .next t ↔
      s.rx.state ≠ .init ∧ s.rx.block = false ∧ s.rx.idx < s.cfg.rxBufSize ∧ s.ev.opened = true
      ∧ t = { s.wake with
          ev := { s.ev with mask := eventsAdd s.ev.mask s.cfg.evtRxDone }
          rx := { s.rx with
            block := true, buf := Memory.write s.rx.idx 0 s.rx.buf, idx := 0,
            state := .finished } } := by
  unfold receiveSignal
  split
  · simp_all
  · split
    · simp_all
    · unfold Memory.store
      by_cases h : s.rx.idx < s.cfg.rxBufSize
      · rename_i h1 h2
        simp only [if_pos h, andThen_eq_next, post_eq_next, Host.Outcome.next.injEq]
        constructor
        · rintro ⟨u, ⟨ho, rfl⟩, rfl⟩
          exact ⟨h1, by simpa using h2, h, ho, rfl⟩
        · rintro ⟨_, _, _, ho, rfl⟩
          exact ⟨_, ⟨ho, rfl⟩, rfl⟩
      · simp [h]

/-- What `TX.TXBL` hands over. -/
theorem transmitByte_eq_some {s t : State} :
    transmitByte s = some t ↔
      (s.tx.idx < s.tx.len ∧ ∃ b, Memory.read s.tx.buf s.tx.idx = some b
        ∧ t = { s with tx := { s.tx with idx := s.tx.idx + 1 }, txLine := s.txLine ++ [b] })
      ∨ (s.tx.len ≤ s.tx.idx ∧ t = s) := by
  unfold transmitByte
  split
  · rename_i h
    split
    · rename_i hr; simp [hr]; omega
    · rename_i b hr
      constructor
      · intro ht
        refine .inl ⟨h, b, hr, ?_⟩
        exact (Option.some.inj ht).symm
      · rintro (⟨_, b', hb', rfl⟩ | ⟨h2, _⟩)
        · rw [hr] at hb'; cases hb'; rfl
        · omega
  · rename_i h
    simp only [Option.some.injEq]
    constructor
    · intro ht; exact .inr ⟨by omega, ht.symm⟩
    · rintro (⟨h2, _⟩ | ⟨_, rfl⟩)
      · omega
      · rfl

/-- What the frame at the read cursor is, when there is one. -/
theorem headFrame_eq_ok {s : State} {p : List Byte} {c : Nat} :
    headFrame s = .ok (p, c) ↔
      ∃ h, Memory.read s.rb.buf s.rb.rd = some h ∧ h ≠ 0 ∧ h.toNat ≤ s.cfg.scratchSize
        ∧ ringRead s.rb.buf s.rb.mask (h.toNat - 1) (ringNext s.rb.mask s.rb.rd) = some (p, c) := by
  unfold headFrame
  split
  · rename_i hr; simp [hr]
  · rename_i b hr
    split
    · simp_all
    · split
      · simp only [reduceCtorEq, false_iff]
        rintro ⟨h, hh, -, hle, -⟩
        rw [hr] at hh; cases hh; omega
      · rename_i h1 h2
        split
        · rename_i hn
          simp only [reduceCtorEq, false_iff]
          rintro ⟨h, hh, -, -, hc⟩
          rw [hr] at hh; cases hh; rw [hn] at hc; cases hc
        · rename_i p' c' hn
          constructor
          · intro hp; cases hp; exact ⟨b, hr, h1, by omega, hn⟩
          · rintro ⟨h, hh, -, -, hc⟩
            rw [hr] at hh; cases hh; rw [hn] at hc; cases hc; rfl

end Sys2Proof.Machine
end

