-- ==== Sys2Proof/Laws/Ring.lean ====
section
/-! SUPPORT. The ring buffer's arithmetic and its reads and writes, for a capacity that is a power of two. -/

namespace Sys2Proof.Machine

/-- A valid capacity is a power of two between 2 and 256. -/
theorem capacity_pow {c : Config} (h : c.Valid) : ∃ k, 1 ≤ k ∧ k ≤ 8 ∧ c.capacity = 2 ^ k := by
  have := h.2.2.1
  simp only [List.mem_cons, List.not_mem_nil, or_false] at this
  rcases this with h | h | h | h | h | h | h | h
  exacts [⟨1, by simp [h]⟩, ⟨2, by simp [h]⟩, ⟨3, by simp [h]⟩, ⟨4, by simp [h]⟩, ⟨5, by simp [h]⟩,
    ⟨6, by simp [h]⟩, ⟨7, by simp [h]⟩, ⟨8, by simp [h]⟩]

theorem capacity_bounds {c : Config} (h : c.Valid) : 2 ≤ c.capacity ∧ c.capacity ≤ 256 := by
  have := h.2.2.1
  simp only [List.mem_cons, List.not_mem_nil, or_false] at this
  omega

/-- Scratch and transmit buffer of a valid configuration are as large as the ring, so that they meet the
bounds of 00_scope.md R7. -/
theorem valid_sizes {c : Config} (h : c.Valid) :
    c.scratchSize = c.capacity ∧ c.txBufSize = c.capacity
    ∧ c.capacity - 2 + 1 ≤ c.scratchSize ∧ c.capacity - 2 ≤ c.txBufSize := by
  have := capacity_bounds h
  obtain ⟨_, _, _, hs, hx, _⟩ := h
  omega

/-- A ring cursor advances modulo the capacity. -/
theorem ringNext_mod (k c : Nat) : ringNext (2 ^ k - 1) c = (c + 1) % 2 ^ k :=
  Nat.and_two_pow_sub_one_eq_mod _ _

/-- The two's-complement AND with `2^k - 1` is the remainder modulo `2^k`. -/
theorem maskInt_two_pow_sub_one (z : Int) (k : Nat) :
    (maskInt (2 ^ k - 1) z : Int) = z % (2 ^ k : Nat) := by
  cases z with
  | ofNat n =>
    show ((n &&& (2 ^ k - 1) : Nat) : Int) = _
    rw [Nat.and_two_pow_sub_one_eq_mod]; simp
  | negSucc n =>
    show ((2 ^ k - 1 - (n &&& (2 ^ k - 1)) : Nat) : Int) = _
    rw [Nat.and_two_pow_sub_one_eq_mod]
    have hlt : n % 2 ^ k < 2 ^ k := Nat.mod_lt _ (Nat.two_pow_pos k)
    have hn := Nat.div_add_mod n (2 ^ k)
    generalize 2 ^ k = c at *
    have h2 : Int.negSucc n
        = ((c - 1 - n % c : Nat) : Int) + (c : Int) * (-((n / c : Nat) : Int) - 1) := by
      rw [Int.negSucc_eq, Nat.cast_sub (by omega), Nat.cast_sub (by omega)]
      have hn' : (c : Int) * ((n / c : Nat) : Int) + ((n % c : Nat) : Int) = n := by exact_mod_cast hn
      rw [mul_sub, mul_neg, ← hn']
      push_cast
      ring
    rw [h2, Int.add_mul_emod_self_left]
    exact (Int.emod_eq_of_lt (by omega) (by omega)).symm

/-- The used bytes of a ring: the cursors' distance modulo the capacity. -/
theorem ringUsed_mod (k wr rd : Nat) :
    (ringUsed (2 ^ k - 1) wr rd : Int) = ((wr : Int) - rd) % (2 ^ k : Nat) :=
  maskInt_two_pow_sub_one _ k

/-- The used bytes for cursors inside the ring. -/
theorem ringUsed_eq {k wr rd : Nat} (hw : wr < 2 ^ k) (hr : rd < 2 ^ k) :
    ringUsed (2 ^ k - 1) wr rd = if rd ≤ wr then wr - rd else wr + 2 ^ k - rd := by
  have h := ringUsed_mod k wr rd
  generalize 2 ^ k = c at *
  split
  · rw [Int.emod_eq_of_lt (by omega) (by omega)] at h; omega
  · have h2 : ((wr : Int) - rd) % c = wr - rd + c := by
      rw [← Int.add_emod_right]; exact Int.emod_eq_of_lt (by omega) (by omega)
    omega

/-- The cursor `n` accesses on. -/
theorem cursor_step (k c n : Nat) : (ringNext (2 ^ k - 1) c + n) % 2 ^ k = (c + (n + 1)) % 2 ^ k := by
  rw [ringNext_mod, Nat.mod_add_mod]; congr 1; omega

/-- A ring read as its bytes: byte `j` is the one at cursor `(c + j) mod capacity`. -/
theorem ringRead_eq_some {m : Memory} {k n c : Nat} {bs : List Byte} {c' : Nat} (hc : c < 2 ^ k) :
    ringRead m (2 ^ k - 1) n c = some (bs, c') ↔
      bs.length = n ∧ c' = (c + n) % 2 ^ k
      ∧ ∀ j < n, Memory.read m ((c + j) % 2 ^ k) = bs[j]? := by
  induction n generalizing c bs with
  | zero =>
    simp only [ringRead, Option.some.injEq, Prod.mk.injEq, List.length_eq_zero_iff, Nat.add_zero,
      Nat.mod_eq_of_lt hc]
    constructor
    · rintro ⟨rfl, rfl⟩; simp
    · rintro ⟨rfl, rfl, _⟩; simp
  | succ n ih =>
    have hc1 : ringNext (2 ^ k - 1) c < 2 ^ k := by
      rw [ringNext_mod]; exact Nat.mod_lt _ (Nat.two_pow_pos k)
    simp only [ringRead]
    constructor
    · intro h
      split at h
      · exact absurd h (by simp)
      · rename_i b hb
        split at h
        · exact absurd h (by simp)
        · rename_i bs1 c1 hr
          simp only [Option.some.injEq, Prod.mk.injEq] at h
          obtain ⟨rfl, rfl⟩ := h
          obtain ⟨hl, rfl, hj⟩ := (ih hc1).1 hr
          refine ⟨by simp [hl], cursor_step k c n, ?_⟩
          rintro (_ | j) hjn
          · simp [Nat.mod_eq_of_lt hc, hb]
          · rw [List.getElem?_cons_succ, ← hj j (by omega), cursor_step]
    · rintro ⟨hl, rfl, hj⟩
      cases bs with
      | nil => simp at hl
      | cons b bs1 =>
        have h0 := hj 0 (by omega)
        simp only [Nat.add_zero, Nat.mod_eq_of_lt hc, List.getElem?_cons_zero] at h0
        have hr : ringRead m (2 ^ k - 1) n (ringNext (2 ^ k - 1) c)
            = some (bs1, (c + (n + 1)) % 2 ^ k) := by
          refine (ih hc1).2 ⟨by simpa using hl, (cursor_step k c n).symm, fun j hjn => ?_⟩
          rw [cursor_step, hj (j + 1) (by omega), List.getElem?_cons_succ]
        simp [h0, hr]

/-- The distance of two cursors less than a lap apart decides them. -/
theorem cursor_inj {c i j n : Nat} (hi : i < n) (hj : j < n) (h : (c + i) % n = (c + j) % n) :
    i = j := by
  have := Nat.ModEq.add_left_cancel' c (show c + i ≡ c + j [MOD n] from h)
  rwa [Nat.ModEq, Nat.mod_eq_of_lt hi, Nat.mod_eq_of_lt hj] at this

/-- What a ring write of less than a lap does: byte `j` lands at cursor `(c + j) mod capacity` and every
other index keeps its byte. -/
theorem ringWrite_eq_some {size k : Nat} {bs : List Byte} {m : Memory} {c : Nat}
    (hs : size = 2 ^ k) (hc : c < 2 ^ k) (hlen : bs.length ≤ 2 ^ k) :
    ∃ m', ringWrite size (2 ^ k - 1) bs m c = some (m', (c + bs.length) % 2 ^ k)
      ∧ (∀ j < bs.length, Memory.read m' ((c + j) % 2 ^ k) = bs[j]?)
      ∧ ∀ a, (∀ j < bs.length, a ≠ (c + j) % 2 ^ k) → Memory.read m' a = Memory.read m a := by
  induction bs generalizing c m with
  | nil => exact ⟨m, by simp [ringWrite, Nat.mod_eq_of_lt hc], by simp, by simp⟩
  | cons b rest ih =>
    have hc1 : ringNext (2 ^ k - 1) c < 2 ^ k := by
      rw [ringNext_mod]; exact Nat.mod_lt _ (Nat.two_pow_pos k)
    simp only [List.length_cons] at hlen
    obtain ⟨m', hw, hin, hout⟩ := ih (m := Memory.write c b m) hc1 (by omega)
    refine ⟨m', ?_, ?_, ?_⟩
    · have hcs : c < size := by omega
      simp only [ringWrite, Memory.store, if_pos hcs, List.length_cons]
      rw [hw, cursor_step]
    · rintro (_ | j) hj
      · have hne : ∀ j < rest.length, (c + 0) % 2 ^ k ≠ (ringNext (2 ^ k - 1) c + j) % 2 ^ k := by
          intro j hj h
          rw [cursor_step] at h
          exact absurd (cursor_inj (by omega) (by omega) h) (by omega)
        rw [hout _ hne]
        simp [Nat.mod_eq_of_lt hc]
      · rw [← cursor_step, hin j (by simpa using hj), List.getElem?_cons_succ]
    · intro a ha
      have h0 := ha 0 (by simp)
      rw [Nat.add_zero, Nat.mod_eq_of_lt hc] at h0
      rw [hout a fun j hj h => ha (j + 1) (by simpa using hj) (by rw [h, cursor_step]),
        Memory.read_write, if_neg h0]

/-! ## Frames (41_ring_buffer.md R72) -/

theorem frameBytes_length (p : List Byte) : (frameBytes p).length = p.length + 1 := rfl

/-- A header that fits its byte is the payload's length plus one. -/
theorem frameHeader_toNat {p : List Byte} (h : p.length < 255) :
    (frameHeader p).toNat = p.length + 1 := by
  simp only [frameHeader, BitVec.toNat_ofNat]
  omega

theorem frameHeader_ne_zero {p : List Byte} (h : p.length < 255) : frameHeader p ≠ 0 := by
  intro h0
  have := frameHeader_toNat h
  rw [h0] at this
  simp at this

/-- More fuel than bytes changes nothing. -/
theorem cutFrames_fuel {f g : Nat} {bs : List Byte} (hf : bs.length ≤ f) (hg : bs.length ≤ g) :
    cutFrames f bs = cutFrames g bs := by
  induction f generalizing g bs with
  | zero =>
    have : bs = [] := List.length_eq_zero_iff.1 (by omega)
    subst this
    simp [cutFrames]
  | succ f ih =>
    cases bs with
    | nil => simp [cutFrames]
    | cons h rest =>
      cases g with
      | zero => simp at hg
      | succ g =>
        simp only [List.length_cons] at hf hg
        simp only [cutFrames]
        split
        · rfl
        · rw [ih (g := g) (by simp; omega) (by simp; omega)]

/-- Cutting one whole frame off the front. -/
theorem cutFrames_frameBytes {f : Nat} {p : List Byte} (hp : p.length < 255) (rest : List Byte) :
    cutFrames (f + 1) (frameBytes p ++ rest) = (cutFrames f rest).map (p :: ·) := by
  have h := frameHeader_toNat hp
  simp only [frameBytes, List.cons_append, cutFrames, frameHeader_ne_zero hp, h, false_or,
    Nat.add_sub_cancel, List.drop_left', List.take_left', List.length_append]
  rw [if_neg (by omega)]

/-- The bytes of the frames are what was cut, if every header counts its payload. -/
theorem cutFrames_flatten {f : Nat} {bs : List Byte} {ps : List (List Byte)}
    (h : cutFrames f bs = some ps) : (ps.map frameBytes).flatten = bs := by
  induction f generalizing bs ps with
  | zero =>
    cases bs with
    | nil => simp only [cutFrames, Option.some.injEq] at h; simp [← h]
    | cons b rest => simp [cutFrames] at h
  | succ f ih =>
    cases bs with
    | nil => simp only [cutFrames, Option.some.injEq] at h; simp [← h]
    | cons b rest =>
      simp only [cutFrames] at h
      split at h
      · exact absurd h (by simp)
      · rename_i hb
        obtain ⟨qs, hq, rfl⟩ := Option.map_eq_some_iff.1 h
        have hb' : b ≠ 0 ∧ b.toNat - 1 ≤ rest.length := by
          refine ⟨fun h => hb (.inl h), ?_⟩
          by_contra hlt; exact hb (.inr (by omega))
        have hb0 : b.toNat ≠ 0 := fun h => hb'.1 (BitVec.eq_of_toNat_eq (by simpa using h))
        have htake : (rest.take (b.toNat - 1)).length = b.toNat - 1 := by simp; omega
        have hhead : frameHeader (rest.take (b.toNat - 1)) = b := by
          apply BitVec.eq_of_toNat_eq
          simp only [frameHeader, BitVec.toNat_ofNat, htake]
          have := b.isLt; omega
        simp only [List.map_cons, List.flatten_cons, frameBytes, hhead, ih hq, List.cons_append,
          List.take_append_drop]

/-- Each payload cut is shorter than 255 bytes. -/
theorem cutFrames_length {f : Nat} {bs : List Byte} {ps : List (List Byte)}
    (h : cutFrames f bs = some ps) : ∀ p ∈ ps, p.length < 255 := by
  induction f generalizing bs ps with
  | zero =>
    cases bs with
    | nil => simp only [cutFrames, Option.some.injEq] at h; simp [← h]
    | cons b rest => simp [cutFrames] at h
  | succ f ih =>
    cases bs with
    | nil => simp only [cutFrames, Option.some.injEq] at h; simp [← h]
    | cons b rest =>
      simp only [cutFrames] at h
      split at h
      · exact absurd h (by simp)
      · obtain ⟨qs, hq, rfl⟩ := Option.map_eq_some_iff.1 h
        rintro p (_ | ⟨_, hp⟩)
        · have := b.isLt
          simp only [List.length_take]; omega
        · exact ih hq p hp

/-- Whole frames, written one after the other, cut into themselves. -/
theorem cutFrames_of_flatten {ps : List (List Byte)} (hp : ∀ p ∈ ps, p.length < 255) {f : Nat}
    (hf : (ps.map frameBytes).flatten.length ≤ f) :
    cutFrames f (ps.map frameBytes).flatten = some ps := by
  induction ps generalizing f with
  | nil => cases f <;> simp [cutFrames]
  | cons p ps ih =>
    simp only [List.map_cons, List.flatten_cons, List.length_append, frameBytes_length] at hf ⊢
    obtain ⟨g, rfl⟩ : ∃ g, f = g + 1 := ⟨f - 1, by omega⟩
    rw [cutFrames_frameBytes (hp p List.mem_cons_self),
      ih (fun q hq => hp q (List.mem_cons_of_mem _ hq)) (by omega)]
    rfl

/-- The frames of a ring are `ps` exactly when the live bytes are the frames written one after the
other. -/
theorem frames_eq_some {u : RbUnit} {ps : List (List Byte)} :
    u.frames = some ps ↔
      u.live = some (ps.map frameBytes).flatten ∧ ∀ p ∈ ps, p.length < 255 := by
  unfold RbUnit.frames
  constructor
  · intro h
    split at h
    · exact absurd h (by simp)
    · rename_i bytes hl
      exact ⟨by rw [hl, cutFrames_flatten h], cutFrames_length h⟩
  · rintro ⟨hl, hp⟩
    rw [hl]
    exact cutFrames_of_flatten hp le_rfl

/-- The live bytes of a ring whose size is a power of two. -/
theorem live_eq_some {u : RbUnit} {k : Nat} {bs : List Byte} (hm : u.mask = 2 ^ k - 1)
    (hr : u.rd < 2 ^ k) :
    u.live = some bs ↔
      bs.length = u.used ∧ ∀ j < u.used, Memory.read u.buf ((u.rd + j) % 2 ^ k) = bs[j]? := by
  unfold RbUnit.live
  rw [Option.map_eq_some_iff, hm]
  constructor
  · rintro ⟨⟨bs', c⟩, h, rfl⟩
    exact ⟨((ringRead_eq_some hr).1 h).1, ((ringRead_eq_some hr).1 h).2.2⟩
  · rintro ⟨h1, h2⟩
    exact ⟨(bs, (u.rd + u.used) % 2 ^ k), (ringRead_eq_some hr).2 ⟨h1, rfl, h2⟩, rfl⟩

/-- The used bytes, with the write cursor `n` bytes on, if the ring does not lap itself. -/
theorem ringUsed_advance_wr {k wr rd n : Nat} (h : ringUsed (2 ^ k - 1) wr rd + n < 2 ^ k) :
    ringUsed (2 ^ k - 1) ((wr + n) % 2 ^ k) rd = ringUsed (2 ^ k - 1) wr rd + n := by
  have hnew := ringUsed_mod k ((wr + n) % 2 ^ k) rd
  have hold := ringUsed_mod k wr rd
  generalize 2 ^ k = c at *
  have e1 : (((wr + n) % c : Nat) - (rd : Int)) % (c : Nat)
      = (((wr : Int) - rd) % (c : Nat) + n) % (c : Nat) := by
    push_cast
    rw [Int.emod_sub_emod, Int.emod_add_emod]; congr 1; ring
  rw [e1, ← hold, Int.emod_eq_of_lt (by omega) (by omega)] at hnew
  omega

/-- The used bytes, with the read cursor `n` bytes on, if that many are used. -/
theorem ringUsed_advance_rd {k wr rd n : Nat} (h : n ≤ ringUsed (2 ^ k - 1) wr rd) :
    ringUsed (2 ^ k - 1) wr ((rd + n) % 2 ^ k) = ringUsed (2 ^ k - 1) wr rd - n := by
  have hnew := ringUsed_mod k wr ((rd + n) % 2 ^ k)
  have hold := ringUsed_mod k wr rd
  have hpos : 0 < 2 ^ k := Nat.two_pow_pos k
  generalize 2 ^ k = c at *
  have hlt : ((wr : Int) - rd) % (c : Nat) < c := Int.emod_lt_of_pos _ (by exact_mod_cast hpos)
  have e1 : ((wr : Int) - ((rd + n) % c : Nat)) % (c : Nat)
      = (((wr : Int) - rd) % (c : Nat) - n) % (c : Nat) := by
    push_cast
    rw [Int.sub_emod_emod, Int.emod_sub_emod]; congr 1; ring
  rw [e1, ← hold, Int.emod_eq_of_lt (by omega) (by omega)] at hnew
  omega

/-- The used bytes are fewer than the capacity. -/
theorem ringUsed_lt (k wr rd : Nat) : ringUsed (2 ^ k - 1) wr rd < 2 ^ k := by
  have h := ringUsed_mod k wr rd
  have hpos : 0 < 2 ^ k := Nat.two_pow_pos k
  have hlt : ((wr : Int) - rd) % ((2 ^ k : Nat) : Int) < ((2 ^ k : Nat) : Int) :=
    Int.emod_lt_of_pos _ (by exact_mod_cast hpos)
  omega

/-- The write cursor is the read cursor moved on by the used bytes. -/
theorem wr_eq {k wr rd : Nat} (hw : wr < 2 ^ k) (hr : rd < 2 ^ k) :
    (rd + ringUsed (2 ^ k - 1) wr rd) % 2 ^ k = wr := by
  rw [ringUsed_eq hw hr]
  generalize 2 ^ k = c at *
  split
  · rw [show rd + (wr - rd) = wr by omega, Nat.mod_eq_of_lt hw]
  · rw [show rd + (wr + c - rd) = wr + c by omega, Nat.add_mod_right, Nat.mod_eq_of_lt hw]

/-- A frame written at the write cursor is the last of the ring's frames. -/
theorem frames_push {u : RbUnit} {k : Nat} {p : List Byte} {ps : List (List Byte)} {buf : Memory}
    (hm : u.mask = 2 ^ k - 1) (hw : u.wr < 2 ^ k) (hr : u.rd < 2 ^ k)
    (hfit : u.used + (p.length + 1) < 2 ^ k) (hlen : p.length < 255) (hf : u.frames = some ps)
    (hin : ∀ j < p.length + 1, Memory.read buf ((u.wr + j) % 2 ^ k) = (frameBytes p)[j]?)
    (hout : ∀ a, (∀ j < p.length + 1, a ≠ (u.wr + j) % 2 ^ k) →
      Memory.read buf a = Memory.read u.buf a) :
    RbUnit.frames { u with buf := buf, wr := (u.wr + (p.length + 1)) % 2 ^ k }
      = some (ps ++ [p]) := by
  rw [frames_eq_some] at hf ⊢
  obtain ⟨hlive, hps⟩ := hf
  refine ⟨?_, fun q hq => by
    rcases List.mem_append.1 hq with h | h
    · exact hps q h
    · rw [List.mem_singleton.1 h]; exact hlen⟩
  rw [live_eq_some hm hr] at hlive
  rw [live_eq_some (by exact hm) (by exact hr)]
  have hused : RbUnit.used { u with buf := buf, wr := (u.wr + (p.length + 1)) % 2 ^ k }
      = u.used + (p.length + 1) := by
    simp only [RbUnit.used, hm] at hfit ⊢
    exact ringUsed_advance_wr hfit
  have hwr : ∀ i, (u.rd + (u.used + i)) % 2 ^ k = (u.wr + i) % 2 ^ k := by
    intro i
    rw [← Nat.add_assoc, ← Nat.mod_add_mod]
    congr 2
    simp only [RbUnit.used, hm]; exact wr_eq hw hr
  rw [hused]
  refine ⟨by simp [hlive.1, frameBytes_length], fun j hj => ?_⟩
  simp only [List.map_append, List.flatten_append, List.map_cons, List.map_nil, List.flatten_cons,
    List.flatten_nil, List.append_nil]
  by_cases hju : j < u.used
  · rw [List.getElem?_append_left (by rw [hlive.1]; exact hju), ← hlive.2 j hju]
    refine hout _ fun i hi h => ?_
    rw [← hwr i] at h
    have := cursor_inj (by omega) (by omega) h
    omega
  · rw [List.getElem?_append_right (by rw [hlive.1]; omega), hlive.1, ← hin _ (by omega), ← hwr]
    congr 2; omega

/-- The frame at the read cursor is the first of the ring's frames. -/
theorem ringRead_head {u : RbUnit} {k : Nat} {p : List Byte} {ps : List (List Byte)}
    (hm : u.mask = 2 ^ k - 1) (hr : u.rd < 2 ^ k) (hf : u.frames = some (p :: ps)) :
    p.length < 255 ∧ p.length + 1 ≤ u.used
    ∧ Memory.read u.buf u.rd = some (frameHeader p)
    ∧ ringRead u.buf u.mask p.length (ringNext u.mask u.rd)
        = some (p, (u.rd + (p.length + 1)) % 2 ^ k) := by
  obtain ⟨hlive, hps⟩ := frames_eq_some.1 hf
  have hlen := hps p List.mem_cons_self
  obtain ⟨hl, hj⟩ := (live_eq_some hm hr).1 hlive
  simp only [List.map_cons, List.flatten_cons, List.length_append, frameBytes_length] at hl
  refine ⟨hlen, by omega, ?_, ?_⟩
  · have := hj 0 (by omega)
    rw [Nat.add_zero, Nat.mod_eq_of_lt hr] at this
    rw [this]; rfl
  · have hc1 : ringNext (2 ^ k - 1) u.rd < 2 ^ k := by
      rw [ringNext_mod]; exact Nat.mod_lt _ (Nat.two_pow_pos k)
    rw [hm]
    refine (ringRead_eq_some hc1).2 ⟨rfl, (cursor_step k u.rd p.length).symm, fun j hjp => ?_⟩
    rw [cursor_step, hj (j + 1) (by omega)]
    simp only [List.map_cons, List.flatten_cons, frameBytes, List.cons_append,
      List.getElem?_cons_succ]
    rw [List.getElem?_append_left hjp]

/-- With the read cursor past the first frame, the others are left. -/
theorem frames_pop {u : RbUnit} {k : Nat} {p : List Byte} {ps : List (List Byte)}
    {scratch slot : Memory} (hm : u.mask = 2 ^ k - 1) (hr : u.rd < 2 ^ k)
    (hf : u.frames = some (p :: ps)) :
    RbUnit.frames { u with
      rd := (u.rd + (p.length + 1)) % 2 ^ k, scratch := scratch, testSlot := slot } = some ps := by
  obtain ⟨hlen, hle, -, -⟩ := ringRead_head hm hr hf
  rw [frames_eq_some] at hf ⊢
  obtain ⟨hlive, hps⟩ := hf
  refine ⟨?_, fun q hq => hps q (List.mem_cons_of_mem _ hq)⟩
  have hpos := Nat.two_pow_pos k
  rw [live_eq_some hm hr] at hlive
  rw [live_eq_some (by exact hm) (by exact Nat.mod_lt _ hpos)]
  simp only [List.map_cons, List.flatten_cons, List.length_append, frameBytes_length] at hlive
  have hused : RbUnit.used { u with
      rd := (u.rd + (p.length + 1)) % 2 ^ k, scratch := scratch, testSlot := slot }
      = u.used - (p.length + 1) := by
    simp only [RbUnit.used, hm] at hle ⊢
    exact ringUsed_advance_rd hle
  rw [hused]
  refine ⟨by omega, fun j hj => ?_⟩
  have h := hlive.2 (p.length + 1 + j) (by omega)
  rw [List.getElem?_append_right (by rw [frameBytes_length]; omega), frameBytes_length,
    Nat.add_sub_cancel_left] at h
  rw [← h, Nat.mod_add_mod, Nat.add_assoc]

end Sys2Proof.Machine
end

