-- ==== Sys2Proof/Laws/Exec.lean ====
section
/-! SUPPORT. For each stimulus, the one next state it can answer and exactly when it does. -/

namespace Sys2Proof.Machine

variable {s t : State}

theorem exec_emOpen_next : exec .emOpen s = .next t ↔
    s.MainReady ∧ t = { s with em := { count := List.replicate s.cfg.nDepths 0, opened := true } } := by
  simp only [exec, execEmOpen, asMain_eq_next, Host.Outcome.next.injEq, eq_comm (a := t)]

theorem exec_emBlock_next {d : Byte} : exec (.emBlock d) s = .next t ↔
    s.MainReady ∧ blockDepth d.toNat s = .next t := by
  simp only [exec, execEmBlock, asMain_eq_next, depthOperand]

theorem exec_emUnblock_next {d : Byte} : exec (.emUnblock d) s = .next t ↔
    s.MainReady ∧ unblockDepth d.toNat s = .next t := by
  simp only [exec, execEmUnblock, asMain_eq_next, depthOperand]

theorem exec_emFloor_next : exec .emFloor s = .next t ↔
    s.MainReady ∧ s.em.opened = true ∧ t = s.setRet (.depth s.floor) := by
  simp only [exec, execEmFloor, asMain_eq_next]
  cases s.em.opened <;> simp [eq_comm (a := t)]

theorem exec_emSleep_next : exec .emSleep s = .next t ↔
    s.MainReady ∧ s.em.opened = true ∧ t = { s with pwrDepth := s.sleepTarget } := by
  simp only [exec, execEmSleep, asMain_eq_next]
  constructor
  · rintro ⟨hr, h⟩
    refine ⟨hr, ?_⟩
    cases ho : s.em.opened with
    | false => simp [ho] at h
    | true =>
      simp only [ho, Bool.true_eq_false, if_false] at h
      split at h
      · rename_i h0; cases h
        exact ⟨rfl, by rw [h0, ← hr.2]⟩
      · cases h; exact ⟨rfl, rfl⟩
  · rintro ⟨hr, ho, rfl⟩
    refine ⟨hr, ?_⟩
    simp only [ho, Bool.true_eq_false, if_false]
    split
    · rename_i h0; rw [h0, ← hr.2]
    · rfl

theorem exec_rbInit_next : exec .rbInit s = .next t ↔
    s.MainReady ∧ t = { s with rb := { s.rb with
      capacity := s.cfg.capacity, mask := s.cfg.capacity - 1, wr := 0, rd := 0, ready := true } } := by
  simp only [exec, execRbInit, asMainRing_eq_next, Host.Outcome.next.injEq, eq_comm (a := t)]

theorem exec_rbSpace_next : exec .rbSpace s = .next t ↔
    s.MainReady ∧ s.rb.ready = true ∧ t = s.setRet (.space s.rb.space) := by
  simp only [exec, execRbSpace, asMainRing_eq_next]
  cases s.rb.ready <;> simp [eq_comm (a := t)]

theorem contains_zero_iff {p : List Byte} : p.contains 0 = true ↔ ¬ NoZeroByte p := by
  simp [NoZeroByte]

theorem exec_rbPush_next {p : List Byte} : exec (.rbPush p) s = .next t ↔
    s.MainReady ∧ NoZeroByte p ∧ s.rb.ready = true ∧ p.length + 1 ≤ s.rb.space
    ∧ ∃ buf c, ringWrite s.cfg.capacity s.rb.mask (frameBytes p) s.rb.buf s.rb.wr = some (buf, c)
      ∧ t = { s with rb := { s.rb with buf := buf, wr := c } } := by
  simp only [exec, execRbPush, asMainRing_eq_next]
  refine and_congr_right fun _ => ?_
  by_cases hz : NoZeroByte p
  · have hc : p.contains 0 = false := by simpa using mt contains_zero_iff.1 (not_not.2 hz)
    cases ho : s.rb.ready with
    | false => simp only [hc]; simp
    | true =>
      by_cases hsp : s.rb.space < p.length + 1
      · simp only [hc, hsp]; simp; omega
      · have hsp' : p.length + 1 ≤ s.rb.space := by omega
        simp only [hc, hsp, if_false, Bool.true_eq_false, Bool.false_eq_true]
        cases hw : ringWrite s.cfg.capacity s.rb.mask (frameBytes p) s.rb.buf s.rb.wr with
        | none => simp
        | some r => obtain ⟨buf, c⟩ := r; simp [hsp', eq_comm (a := t)]; exact fun _ => hz
  · have hc : p.contains 0 = true := contains_zero_iff.2 hz
    simp only [hc, hz]; simp

/-- The four ways `RB.POP` can answer a next state. -/
theorem exec_rbPop_next {b : Bool} : exec (.rbPop b) s = .next t ↔
    s.MainReady ∧ s.rb.ready = true ∧
    ((s.rb.wr = s.rb.rd ∧ t = s.setRet (.popped .empty))
    ∨ (s.rb.wr ≠ s.rb.rd ∧ s.tx.busy = true ∧ t = s.setRet (.popped .notReady))
    ∨ (s.rb.wr ≠ s.rb.rd ∧ s.tx.busy = false ∧ ∃ p c, headFrame s = .ok (p, c)
      ∧ ((b = true ∧ t = (copyToTestSlot p (takeFrame p c s)).setRet (.popped .consumed))
        ∨ (b = false ∧ ∃ u, startTransmit p (takeFrame p c s) = .next u
            ∧ t = u.setRet (.popped .consumed))))) := by
  simp only [exec, execRbPop, asMainRing_eq_next]
  refine and_congr_right fun _ => ?_
  cases ho : s.rb.ready with
  | false => simp
  | true =>
    by_cases he : s.rb.wr = s.rb.rd
    · simp [he, eq_comm (a := t)]
    · cases hb : s.tx.busy with
      | true => simp [he, eq_comm (a := t)]
      | false =>
        cases hf : headFrame s with
        | error e => simp [he]
        | ok r =>
          obtain ⟨p, c⟩ := r
          cases b <;> simp [he, andThen_eq_next, eq_comm (a := t)]

theorem exec_txStart_next {p : List Byte} : exec (.txStart p) s = .next t ↔
    s.MainReady ∧ startTransmit p s = .next t := by
  simp only [exec, execTxStart, asMain_eq_next]

theorem exec_txBusy_next : exec .txBusy s = .next t ↔
    s.MainReady ∧ t = s.setRet (.busy s.tx.busy) := by
  simp only [exec, execTxBusy, asMain_eq_next, Host.Outcome.next.injEq, eq_comm (a := t)]

theorem exec_txTxbl_next : exec .txTxbl s = .next t ↔
    s.agent = .serial ∧ s.tx.state = .sendChar
    ∧ ∃ u, transmitByte s.wake = some u ∧ t = (endOfText u).returnToMain := by
  simp only [exec, execTxTxbl, asEvent_eq_next]
  refine and_congr_right fun _ => ?_
  by_cases hs : s.tx.state = .sendChar
  · cases hb : transmitByte s.wake with
    | none => simp [hs]
    | some u => simp [hs, eq_comm (a := t)]
  · simp [hs]

/-- The next state of `TX.TXBL` written out: a byte handed over, or none left. -/
theorem exec_txTxbl_cases : exec .txTxbl s = .next t ↔
    s.agent = .serial ∧ s.tx.state = .sendChar
    ∧ ((s.tx.idx < s.tx.len ∧ ∃ b, Memory.read s.tx.buf s.tx.idx = some b
        ∧ t = { s with
            agent := .main, pwrDepth := 0, txLine := s.txLine ++ [b],
            tx := if s.tx.idx + 1 = s.tx.len then
                { s.tx with
                  idx := s.tx.idx + 1, txblIen := false, txcIen := true, state := .waitTxc }
              else { s.tx with idx := s.tx.idx + 1 } })
      ∨ (s.tx.len ≤ s.tx.idx
        ∧ t = { s with
            agent := .main, pwrDepth := 0,
            tx := if s.tx.idx = s.tx.len then
                { s.tx with txblIen := false, txcIen := true, state := .waitTxc }
              else s.tx })) := by
  rw [exec_txTxbl_next]
  refine and_congr_right fun _ => and_congr_right fun _ => ?_
  constructor
  · rintro ⟨u, hu, rfl⟩
    rcases transmitByte_eq_some.1 hu with ⟨hi, b, hb, rfl⟩ | ⟨hi, rfl⟩
    · refine .inl ⟨hi, b, hb, ?_⟩
      unfold endOfText
      by_cases h : s.tx.idx + 1 = s.tx.len
      · rw [if_pos (by exact h), if_pos h]; rfl
      · rw [if_neg (by exact h), if_neg h]; rfl
    · refine .inr ⟨hi, ?_⟩
      unfold endOfText
      by_cases h : s.tx.idx = s.tx.len
      · rw [if_pos (by exact h), if_pos h]; rfl
      · rw [if_neg (by exact h), if_neg h]; rfl
  · rintro (⟨hi, b, hb, rfl⟩ | ⟨hi, rfl⟩)
    · refine ⟨_, transmitByte_eq_some.2 (.inl ⟨hi, b, hb, rfl⟩), ?_⟩
      unfold endOfText
      by_cases h : s.tx.idx + 1 = s.tx.len
      · rw [if_pos h, if_pos (by exact h)]; rfl
      · rw [if_neg h, if_neg (by exact h)]; rfl
    · refine ⟨_, transmitByte_eq_some.2 (.inr ⟨hi, rfl⟩), ?_⟩
      unfold endOfText
      by_cases h : s.tx.idx = s.tx.len
      · rw [if_pos h, if_pos (by exact h)]; rfl
      · rw [if_neg h, if_neg (by exact h)]; rfl

theorem exec_txTxc_next : exec .txTxc s = .next t ↔
    s.agent = .serial ∧ s.tx.state = .waitTxc ∧ s.cfg.txBlockDepth < s.cfg.nDepths
    ∧ s.em.opened = true ∧ 1 ≤ s.countAt s.cfg.txBlockDepth ∧ s.ev.opened = true
    ∧ t = { (s.wake.returnToMain).setCount s.cfg.txBlockDepth (s.countAt s.cfg.txBlockDepth - 1) with
        tx := { s.tx with busy := false, txcIen := false, state := .finish }
        ev := { s.ev with mask := eventsAdd s.ev.mask s.cfg.evtTxDone } } := by
  simp only [exec, execTxTxc, asEvent_eq_next]
  refine and_congr_right fun _ => ?_
  by_cases hs : s.tx.state = .waitTxc
  · rw [if_neg (not_not.2 hs)]
    simp only [andThen_eq_next, unblockDepth_eq_next, post_eq_next, Host.Outcome.next.injEq]
    constructor
    · rintro ⟨_, ⟨_, ⟨h1, h2, h3, rfl⟩, _, ⟨h4, rfl⟩, rfl⟩, rfl⟩
      exact ⟨hs, h1, h2, h3, h4, rfl⟩
    · rintro ⟨_, h1, h2, h3, h4, rfl⟩
      exact ⟨_, ⟨_, ⟨h1, h2, h3, rfl⟩, _, ⟨h4, rfl⟩, rfl⟩, rfl⟩
  · simp [hs]

theorem exec_rxOpen_next : exec .rxOpen s = .next t ↔
    s.MainReady ∧ t = { s with rx := { s.rx with
      startByte := s.cfg.rxStartByte, sigByte := s.cfg.rxSigByte, block := true, idx := 0,
      state := .idle } } := by
  simp only [exec, execRxOpen, asMain_eq_next, Host.Outcome.next.injEq, eq_comm (a := t)]
  rfl

theorem exec_rxStartf_next : exec .rxStartf s = .next t ↔
    s.agent = .serial ∧ ∃ u, receiveStart s = .next u ∧ u.returnToMain = t := by
  simp only [exec, execRxStartf, asEvent_eq_next]

theorem exec_rxRxdatav_next {b : Byte} : exec (.rxRxdatav b) s = .next t ↔
    s.agent = .serial ∧ ∃ u, receiveByte b s = .next u ∧ u.returnToMain = t := by
  simp only [exec, execRxRxdatav, asEvent_eq_next]

theorem exec_rxSigf_next : exec .rxSigf s = .next t ↔
    s.agent = .serial ∧ ∃ u, receiveSignal s = .next u ∧ u.returnToMain = t := by
  simp only [exec, execRxSigf, asEvent_eq_next]

/-- The four ways `RX.LINE` can answer a next state. -/
theorem exec_rxLine_next {b : Byte} : exec (.rxLine b) s = .next t ↔
    s.agent = .serial ∧ s.rx.state ≠ .init ∧
    ((s.rx.block = true ∧ b ≠ s.rx.startByte ∧ t = s.returnToMain)
    ∨ (s.rx.block = true ∧ b = s.rx.startByte ∧ exec .rxStartf s = .next t)
    ∨ (s.rx.block = false ∧ b = s.rx.sigByte ∧ exec .rxSigf s = .next t)
    ∨ (s.rx.block = false ∧ b ≠ s.rx.sigByte ∧ b ≠ s.rx.startByte
        ∧ exec (.rxRxdatav b) s = .next t)) := by
  simp only [exec, execRxLine, execRxStartf, execRxSigf, execRxRxdatav, asEvent_eq_next]
  by_cases ha : s.agent = .serial
  · by_cases hi : s.rx.state = .init
    · simp [hi]
    · cases hb : s.rx.block with
      | true => by_cases h1 : b = s.rx.startByte <;> simp [ha, hi, h1, eq_comm (a := t)]
      | false =>
        by_cases h1 : b = s.rx.sigByte
        · simp [ha, hi, h1]
        · by_cases h2 : b = s.rx.startByte
          · subst h2; simp [hi, h1]
          · simp [ha, hi, h1, h2]
  · simp [ha]

theorem exec_twStart_next {addr : Nat} {cmd : Byte} {rd : Bool} {n : Nat} :
    exec (.twStart addr cmd rd n) s = .next t ↔
    s.MainReady ∧ addr ≤ 0x7F ∧ rd = true ∧ n = 2 ∧ s.tw.busBusy = false
    ∧ s.cfg.twBlockDepth < s.cfg.nDepths ∧ s.em.opened = true
    ∧ s.countAt s.cfg.twBlockDepth + 1 < s.cfg.emCeiling
    ∧ t = { s.setCount s.cfg.twBlockDepth (s.countAt s.cfg.twBlockDepth + 1) with
        tw := { s.tw with
          addr := BitVec.ofNat 7 addr, cmd := cmd, isRead := true, nbytes := 2, busBusy := true,
          state := .sendMeasure }
        twOut := s.twOut ++ [.start, .tx (addressByte (BitVec.ofNat 7 addr) false)] } := by
  simp only [exec, execTwStart, asMain_eq_next]
  refine and_congr_right fun _ => ?_
  by_cases h1 : 0x7F < addr
  · simp only [if_pos h1, reduceCtorEq, false_iff]; omega
  · have h1' : addr ≤ 0x7F := by omega
    by_cases h2 : rd ≠ true ∨ n ≠ 2
    · simp only [if_neg h1, if_pos h2, reduceCtorEq, false_iff]
      rintro ⟨_, h3, h4, _⟩; exact h2.elim (fun h => h h3) (fun h => h h4)
    · obtain ⟨h3, h4⟩ : rd = true ∧ n = 2 := by simpa [not_or] using h2
      subst h3 h4
      cases h5 : s.tw.busBusy with
      | true => simp [h1]
      | false =>
        simp only [if_neg h1, ne_eq, not_true, or_self, if_false, Bool.false_eq_true, andThen_eq_next,
          blockDepth_eq_next, Host.Outcome.next.injEq, h1', true_and]
        constructor
        · rintro ⟨_, ⟨h6, h7, h8, rfl⟩, rfl⟩
          exact ⟨h6, h7, h8, rfl⟩
        · rintro ⟨h6, h7, h8, rfl⟩
          exact ⟨_, ⟨h6, h7, h8, rfl⟩, rfl⟩

theorem exec_twAck_next : exec .twAck s = .next t ↔
    s.agent = .twoWire ∧
    ((s.tw.state = .sendMeasure
      ∧ t = ((s.wake.returnToMain).emitBus [.tx s.tw.cmd]).twGoto .sendRead)
    ∨ (s.tw.state = .sendRead
      ∧ t = ((s.wake.returnToMain).emitBus (readAddress s)).twGoto .wack3)
    ∨ (s.tw.state = .wack3 ∧ t = (s.wake.returnToMain).twGoto .getMsb)) := by
  simp only [exec, execTwAck, asEvent_eq_next]
  refine and_congr_right fun _ => ?_
  cases hs : s.tw.state <;> simp [eq_comm (a := t)] <;> rfl

theorem exec_twNack_next : exec .twNack s = .next t ↔
    s.agent = .twoWire ∧ s.tw.state = .wack3
    ∧ t = ((s.wake.returnToMain).emitBus (readAddress s)).twGoto .wack3 := by
  simp only [exec, execTwNack, asEvent_eq_next]
  refine and_congr_right fun _ => ?_
  cases hs : s.tw.state <;> simp [eq_comm (a := t)]
  rfl

theorem exec_twRxdatav_next {b : Byte} : exec (.twRxdatav b) s = .next t ↔
    s.agent = .twoWire ∧
    ((s.tw.state = .getMsb
      ∧ t = (((s.wake.returnToMain).setResult (resultMsb b)).emitBus [.ackCmd]).twGoto .getLsbStop)
    ∨ (s.tw.state = .getLsbStop
      ∧ t = (((s.wake.returnToMain).setResult (resultLsb s.tw.result b)).emitBus
          [.nackCmd, .stopCmd]).twGoto .endState)) := by
  simp only [exec, execTwRxdatav, asEvent_eq_next]
  refine and_congr_right fun _ => ?_
  cases hs : s.tw.state <;> simp [eq_comm (a := t)] <;> rfl

theorem exec_twMstop_next : exec .twMstop s = .next t ↔
    s.agent = .twoWire ∧ s.tw.state = .endState ∧ s.cfg.twBlockDepth < s.cfg.nDepths
    ∧ s.em.opened = true ∧ 1 ≤ s.countAt s.cfg.twBlockDepth ∧ s.ev.opened = true
    ∧ t = { (s.wake.returnToMain).setCount s.cfg.twBlockDepth (s.countAt s.cfg.twBlockDepth - 1) with
        tw := { s.tw with busBusy := false }
        ev := { s.ev with mask := eventsAdd s.ev.mask s.cfg.evtTwDone } } := by
  simp only [exec, execTwMstop, asEvent_eq_next]
  refine and_congr_right fun _ => ?_
  by_cases hs : s.tw.state = .endState
  · rw [if_neg (not_not.2 hs)]
    simp only [andThen_eq_next, unblockDepth_eq_next, post_eq_next, Host.Outcome.next.injEq]
    constructor
    · rintro ⟨_, ⟨_, ⟨h1, h2, h3, rfl⟩, _, ⟨h4, rfl⟩, rfl⟩, rfl⟩
      exact ⟨hs, h1, h2, h3, h4, rfl⟩
    · rintro ⟨_, h1, h2, h3, h4, rfl⟩
      exact ⟨_, ⟨_, ⟨h1, h2, h3, rfl⟩, _, ⟨h4, rfl⟩, rfl⟩, rfl⟩
  · simp [hs]

theorem exec_schOpen_next : exec .schOpen s = .next t ↔
    s.MainReady ∧ t = { s with ev := { mask := 0, opened := true } } := by
  simp only [exec, execSchOpen, asMain_eq_next, Host.Outcome.next.injEq, eq_comm (a := t)]

theorem exec_schAdd_next {m : EventMask} : exec (.schAdd m) s = .next t ↔
    (s.MainReady ∨ s.agent = .timer) ∧ s.ev.opened = true
    ∧ t = { s with
        agent := .main, pwrDepth := 0,
        ev := { s.ev with mask := eventsAdd s.ev.mask m } } := by
  simp only [exec, execSchAdd]
  cases ha : s.agent with
  | timer =>
    simp only [asEvent_eq_next, ha, post_eq_next, State.MainReady, true_and, or_true]
    constructor
    · rintro ⟨_, ⟨ho, rfl⟩, rfl⟩; exact ⟨ho, rfl⟩
    · rintro ⟨ho, rfl⟩; exact ⟨_, ⟨ho, rfl⟩, rfl⟩
  | main =>
    simp only [asMain_eq_next, ha, post_eq_next, State.MainReady, true_and, reduceCtorEq, or_false]
    constructor
    · rintro ⟨hp, ho, rfl⟩; exact ⟨hp, ho, by rw [← ha, ← hp]⟩
    · rintro ⟨hp, ho, rfl⟩; exact ⟨hp, ho, by rw [← ha, ← hp]⟩
  | serial => simp [asMain_eq_next, ha, State.MainReady]
  | twoWire => simp [asMain_eq_next, ha, State.MainReady]

theorem exec_schRemove_next {m : EventMask} : exec (.schRemove m) s = .next t ↔
    s.MainReady ∧ s.ev.opened = true
    ∧ t = { s with ev := { s.ev with mask := eventsRemove s.ev.mask m } } := by
  simp only [exec, execSchRemove, asMain_eq_next]
  cases s.ev.opened <;> simp [eq_comm (a := t)]

theorem exec_schGet_next : exec .schGet s = .next t ↔
    s.MainReady ∧ s.ev.opened = true ∧ t = s.setRet (.events s.ev.mask) := by
  simp only [exec, execSchGet, asMain_eq_next]
  cases s.ev.opened <;> simp [eq_comm (a := t)]

end Sys2Proof.Machine
end

