-- ==== Sys2Proof/Laws/PerInstr.lean ====
section
/-! SUPPORT. Statements made per stimulus, one lemma per constructor of Instr. -/

namespace Sys2Proof.Laws.SelectorRow

/-- The selector a stimulus encodes to belongs to the row of the table with the stimulus's mnemonic
(30_encoding.md R46, R49). -/
def Statement (i : Instr) : Prop :=
  ∃ r ∈ stimulusTable, r.mnemonic = i.mnemonic ∧ r.admits (encode i).sel = true

/-- A selector under the mask of its unit and operation fields is the one with immediate 0. -/
theorem under_fields (u o : BitVec 4) (b : Byte) : selector u o b &&& 0xFF00 = selector u o 0 := by
  have h : (0xFF00 : Selector) = selector 0xF 0xF 0 := by decide
  have hand : ∀ (x y : BitVec 4), (x ++ y ++ b : BitVec 16) &&& ((0xF : BitVec 4) ++ (0xF : BitVec 4) ++ (0 : Byte))
      = (x ++ y ++ (0 : Byte) : BitVec 16) := by
    intro x y
    have hall : ∀ x : BitVec 4, x &&& 0xF = x := by decide
    rw [BitVec.and_append, BitVec.and_append, hall, hall]
    simp
  rw [h]; exact hand u o

theorem emOpen : Statement .emOpen := by unfold Statement; decide
theorem emBlock (d : Byte) : Statement (.emBlock d) :=
  ⟨⟨"EM.BLOCK", 0x0100, 0xFF00⟩, by decide, rfl, by
    simp only [TableRow.admits, encode, under_fields]; decide⟩
theorem emUnblock (d : Byte) : Statement (.emUnblock d) :=
  ⟨⟨"EM.UNBLOCK", 0x0200, 0xFF00⟩, by decide, rfl, by
    simp only [TableRow.admits, encode, under_fields]; decide⟩
theorem emFloor : Statement .emFloor := by unfold Statement; decide
theorem emSleep : Statement .emSleep := by unfold Statement; decide
theorem rbInit : Statement .rbInit := by unfold Statement; decide
theorem rbSpace : Statement .rbSpace := by unfold Statement; decide
theorem rbPush (p : List Byte) : Statement (.rbPush p) :=
  ⟨⟨"RB.PUSH", 0x1200, 0xFFFF⟩, by decide, rfl, by
    simp only [TableRow.admits, encode]; decide⟩
theorem rbPop (t : Bool) : Statement (.rbPop t) := by
  unfold Statement; cases t <;> decide
theorem txStart (p : List Byte) : Statement (.txStart p) :=
  ⟨⟨"TX.START", 0x2000, 0xFFFF⟩, by decide, rfl, by
    simp only [TableRow.admits, encode]; decide⟩
theorem txBusy : Statement .txBusy := by unfold Statement; decide
theorem txTxbl : Statement .txTxbl := by unfold Statement; decide
theorem txTxc : Statement .txTxc := by unfold Statement; decide
theorem rxOpen : Statement .rxOpen := by unfold Statement; decide
theorem rxLine (b : Byte) : Statement (.rxLine b) :=
  ⟨⟨"RX.LINE", 0x3100, 0xFF00⟩, by decide, rfl, by
    simp only [TableRow.admits, encode, under_fields]; decide⟩
theorem rxStartf : Statement .rxStartf := by unfold Statement; decide
theorem rxRxdatav (b : Byte) : Statement (.rxRxdatav b) :=
  ⟨⟨"RX.RXDATAV", 0x3300, 0xFF00⟩, by decide, rfl, by
    simp only [TableRow.admits, encode, under_fields]; decide⟩
theorem rxSigf : Statement .rxSigf := by unfold Statement; decide
theorem twStart (addr : Nat) (cmd : Byte) (rd : Bool) (n : Nat) : Statement (.twStart addr cmd rd n) :=
  ⟨⟨"TW.START", 0x4000, 0xFFFF⟩, by decide, rfl, by
    simp only [TableRow.admits, encode]; decide⟩
theorem twAck : Statement .twAck := by unfold Statement; decide
theorem twNack : Statement .twNack := by unfold Statement; decide
theorem twRxdatav (b : Byte) : Statement (.twRxdatav b) :=
  ⟨⟨"TW.RXDATAV", 0x4300, 0xFF00⟩, by decide, rfl, by
    simp only [TableRow.admits, encode, under_fields]; decide⟩
theorem twMstop : Statement .twMstop := by unfold Statement; decide
theorem schOpen : Statement .schOpen := by unfold Statement; decide
theorem schAdd (m : EventMask) : Statement (.schAdd m) :=
  ⟨⟨"SCH.ADD", 0x5100, 0xFFFF⟩, by decide, rfl, by
    simp only [TableRow.admits, encode]; decide⟩
theorem schRemove (m : EventMask) : Statement (.schRemove m) :=
  ⟨⟨"SCH.REMOVE", 0x5200, 0xFFFF⟩, by decide, rfl, by
    simp only [TableRow.admits, encode]; decide⟩
theorem schGet : Statement .schGet := by unfold Statement; decide

end Sys2Proof.Laws.SelectorRow
end

