-- ==== Sys2Proof/Laws/Run.lean ====
section
/-! SUPPORT. Steps and runs of a script, one line at a time. -/

namespace Sys2Proof.Machine

/-- Nothing stops a block with a valid configuration and no mark. -/
theorem stopped_eq_none {s : State} (hv : s.cfg.Valid) (hf : s.sys.fault = none)
    (hr : s.sys.refused = none) : s.stopped = none := by
  simp only [State.stopped, hf, hr]
  rw [if_neg (not_not.2 hv)]

/-- What a step that answers a next state did: it ran a stimulus of the script, or it waited. -/
theorem step_eq_next {s t : State} (h : step s = .next t) :
    (s.script = [] ∧ t = s)
    ∨ ∃ line rest i, s.script = line :: rest ∧ decode line.stim = .ok i
      ∧ exec i { s with script := rest, agent := line.agent } = .next t := by
  unfold step at h
  split at h
  · rename_i r hr
    unfold State.stopped at hr
    split at hr
    · cases hr; cases h
    · split at hr <;> cases hr <;> cases h
  · cases hs : s.script with
    | nil => simp only [State.nextLine, hs, Host.Outcome.next.injEq] at h; exact .inl ⟨rfl, h.symm⟩
    | cons line rest =>
      simp only [State.nextLine, hs] at h
      split at h
      · cases h
      · rename_i i hd
        exact .inr ⟨line, rest, i, rfl, hd, h⟩

/-- A run of no lines stays. -/
@[simp] theorem runScript_nil (s : State) : runScript [] s = .next { s with script := [] } := rfl

/-- The first line of a run, when its stimulus answers a next state: the run of the other lines from
there. -/
theorem runScript_cons {s t : State} {a : Agent} {i : Instr} {rest : List ScriptLine}
    (hv : s.cfg.Valid) (hf : s.sys.fault = none) (hr : s.sys.refused = none)
    (hd : decode (encode i) = .ok i)
    (h : exec i { s with script := rest, agent := a } = .next t) (ht : t.script = rest) :
    runScript (lineOf a i :: rest) s = runScript rest t := by
  have hst : step { s with script := lineOf a i :: rest } = .next t := by
    unfold step
    rw [stopped_eq_none (by exact hv) (by exact hf) (by exact hr)]
    simp only [State.nextLine, lineOf, hd, h]
  have hrun : ∀ (M : Host.Core) (n : Nat) (u v : M.State), M.step u = .next v →
      M.run (n + 1) u = M.run n v := by
    intro M n u v h
    simp only [Host.Core.run, h]
  exact (hrun Sys2Proof.core rest.length _ t hst).trans (by rw [runScript, ← ht])

end Sys2Proof.Machine
end

