-- ==== Sys2Proof/Machine/Interface.lean ====
section
/-! DEFINITION. The interface facts of 45_scheduler_and_externals.md R103 and R104 that have a content of
their own. No step of the block uses them: the orchestration layer and the radio module's self-test do
(00_scope.md R5). -/

namespace Sys2Proof.Machine

/-- The Celsius value of a raw result: `raw * 175.72 / 65536 - 46.85`, over exact numbers (R103; log 27). -/
def celsius (raw : Word32) : ℚ := raw.toNat * (17572 / 100) / 65536 - 4685 / 100

/-- The Fahrenheit value of a raw result: `celsius * 9/5 + 32` (R103). -/
def fahrenheit (raw : Word32) : ℚ := celsius raw * (9 / 5) + 32

/-- A radio module command (R104). -/
inductive RadioCommand
  | at
  | atName (name : String)
  | atReset
  deriving DecidableEq, Repr

/-- The text of a radio command (R104). -/
def RadioCommand.text : RadioCommand → String
  | .at => "AT"
  | .atName name => "AT+NAME" ++ name
  | .atReset => "AT+RESET"

/-- The fixed expected response to a radio command (R104). -/
def RadioCommand.response : RadioCommand → String
  | .at => "OK"
  | .atName name => "OK+Set:" ++ name
  | .atReset => "OK+RESET"


end Sys2Proof.Machine
end

