-- ==== Sys2Proof/Tests/Slice0.lean ====
section
/-! SUPPORT. The model's own tests: ill-formed stimuli, words written out from the table of 30_encoding.md
R46, vectors of 95_test_vectors.md section 2 (named in each test) on single steps, and for every statement
with hypotheses a state that meets them. -/

namespace Sys2Proof.Tests

open Sys2Proof.Machine

/-! ## Helpers -/

/-- The outcome is a next state that passes the check. -/
def goesOn (r : Result) (p : State → Bool) : Bool :=
  match r with
  | .next t => p t
  | .fault _ => false
  | .refused _ => false

/-- The outcome is this fault. -/
def faults (r : Result) (c : Fault) : Bool :=
  match r with
  | .next _ => false
  | .fault d => d == c
  | .refused _ => false

/-- The outcome is this refusal. -/
def refuses (r : Result) (c : Refusal) : Bool :=
  match r with
  | .next _ => false
  | .fault _ => false
  | .refused d => d == c

/-- The booted state of 95_test_vectors.md, in TC1. -/
def booted : State := State.booted Config.tc1

/-- Right after reset, not booted. -/
def unbooted : State := State.reset

def from_ (a : Agent) (s : State) : State := { s with agent := a }

def withCounts (l : List Nat) (s : State) : State := { s with em := { s.em with count := l } }

def withMask (m : EventMask) (s : State) : State := { s with ev := { s.ev with mask := m } }

def asleepAt (d : Nat) (s : State) : State := { s with pwrDepth := d }

def withCursors (wr rd : Nat) (s : State) : State := { s with rb := { s.rb with wr := wr, rd := rd } }

/-- "Hi" as one frame at the start of the ring. -/
def ringHi : State :=
  { booted with rb := { booted.rb with buf := [(0, 3), (1, 0x48), (2, 0x69)], wr := 3 } }

/-- "Hi" as one frame whose bytes cross the end of the ring. -/
def ringWrapped : State :=
  { booted with rb := { booted.rb with buf := [(0, 0x69), (62, 3), (63, 0x48)], wr := 1, rd := 62 } }

/-- A full ring: one frame of 62 bytes. -/
def ringFull : State := withCursors 63 0 booted

/-- After V-TX-1. -/
def sendingHi : State :=
  withCounts [0, 0, 0, 1, 0] { booted with
    tx := { buf := [(0, 0x48), (1, 0x69)], len := 2, idx := 0, state := .sendChar, busy := true,
            txblIen := true, txcIen := false } }

/-- One byte of V-TX-1 is left. -/
def sendingLast : State := { sendingHi with tx := { sendingHi.tx with idx := 1 }, txLine := [0x48] }

/-- A zero-length text in flight (V-TX-10). -/
def sendingNothing : State := { sendingHi with tx := { sendingHi.tx with buf := [], len := 0 } }

/-- After V-TX-2. -/
def sentHi : State :=
  { sendingHi with
    tx := { sendingHi.tx with idx := 2, state := .waitTxc, txblIen := false, txcIen := true }
    txLine := [0x48, 0x69] }

/-- After V-RX-2. -/
def receiving : State :=
  { booted with rx := { booted.rx with buf := [(0, 0x23)], idx := 1, block := false, state := .started } }

/-- The receiver at its last payload byte, and one past it (V-RX-6, V-RX-7). -/
def receivingAt (n : Nat) : State :=
  { booted with rx := { booted.rx with idx := n, block := false, state := .receiving } }

/-- A transaction of V-TW-1 in a state. -/
def transactionIn (q : TwState) : State :=
  withCounts [0, 0, 1, 0, 0] { booted with
    tw := { state := q, addr := 0x40, cmd := 0xF3, isRead := true, nbytes := 2, result := 0,
            busBusy := true } }

/-! ## WellFormed: one ill-formed stimulus for each check, and the values at the bounds -/

theorem test_wellFormed_depth :
    (Instr.emBlock 5).wellFormed Config.tc1 = false ∧ (Instr.emUnblock 5).wellFormed Config.tc1 = false
    ∧ (Instr.emBlock 4).wellFormed Config.tc1 = true := by decide

theorem test_wellFormed_push :
    (Instr.rbPush (List.replicate 63 1)).wellFormed Config.tc1 = false
    ∧ (Instr.rbPush [0x41, 0, 0x42]).wellFormed Config.tc1 = false
    ∧ (Instr.rbPush (List.replicate 62 1)).wellFormed Config.tc1 = true := by decide

theorem test_wellFormed_text :
    (Instr.txStart (List.replicate 64 1)).wellFormed Config.tc1 = false
    ∧ (Instr.txStart [0]).wellFormed Config.tc1 = false
    ∧ (Instr.txStart (List.replicate 63 1)).wellFormed Config.tc1 = true := by decide

theorem test_wellFormed_twStart :
    (Instr.twStart 0x80 0xF3 true 2).wellFormed Config.tc1 = false
    ∧ (Instr.twStart 0x40 0xF3 false 2).wellFormed Config.tc1 = false
    ∧ (Instr.twStart 0x40 0xF3 true 3).wellFormed Config.tc1 = false
    ∧ (Instr.twStart 0x7F 0xF3 true 2).wellFormed Config.tc1 = true := by decide

/-- The check of 00_scope.md R7, as a Bool. -/
def configOk (c : Config) : Bool := decide c.Valid

/-- 00_scope.md R7: TC1, and configurations that break one constraint. -/
theorem test_config_valid :
    configOk Config.tc1 = true ∧ configOk { Config.tc1 with capacity := 48 } = false
    ∧ configOk { Config.tc1 with nDepths := 2 } = false
    ∧ configOk { Config.tc1 with rxSigByte := 0x23 } = false
    ∧ configOk { Config.tc1 with evtTxDone := 0x18 } = false
    ∧ configOk { Config.tc1 with scratchSize := 62 } = false := by decide

/-! ## Decoding: a word of each row of R46, its operand bits not all alike -/

theorem test_decode_em :
    decode ⟨0x0000, []⟩ = .ok .emOpen ∧ decode ⟨0x0103, []⟩ = .ok (.emBlock 3)
    ∧ decode ⟨0x0281, []⟩ = .ok (.emUnblock 0x81) ∧ decode ⟨0x0300, []⟩ = .ok .emFloor
    ∧ decode ⟨0x0400, []⟩ = .ok .emSleep := by decide

theorem test_decode_rb :
    decode ⟨0x1000, []⟩ = .ok .rbInit ∧ decode ⟨0x1100, []⟩ = .ok .rbSpace
    ∧ decode ⟨0x1200, [0x48, 0x65, 0xFF]⟩ = .ok (.rbPush [0x48, 0x65, 0xFF])
    ∧ decode ⟨0x1300, []⟩ = .ok (.rbPop false) ∧ decode ⟨0x1301, []⟩ = .ok (.rbPop true) := by decide

theorem test_decode_tx :
    decode ⟨0x2000, [0x48, 0x69]⟩ = .ok (.txStart [0x48, 0x69]) ∧ decode ⟨0x2100, []⟩ = .ok .txBusy
    ∧ decode ⟨0x2200, []⟩ = .ok .txTxbl ∧ decode ⟨0x2300, []⟩ = .ok .txTxc := by decide

theorem test_decode_rx :
    decode ⟨0x3000, []⟩ = .ok .rxOpen ∧ decode ⟨0x31FF, []⟩ = .ok (.rxLine 0xFF)
    ∧ decode ⟨0x3200, []⟩ = .ok .rxStartf ∧ decode ⟨0x3341, []⟩ = .ok (.rxRxdatav 0x41)
    ∧ decode ⟨0x3400, []⟩ = .ok .rxSigf := by decide

theorem test_decode_tw :
    decode ⟨0x4000, [0x40, 0xF3, 1, 2]⟩ = .ok (.twStart 0x40 0xF3 true 2)
    ∧ decode ⟨0x4000, [0x80, 0, 0, 7]⟩ = .ok (.twStart 0x80 0 false 7)
    ∧ decode ⟨0x4100, []⟩ = .ok .twAck ∧ decode ⟨0x4200, []⟩ = .ok .twNack
    ∧ decode ⟨0x434E, []⟩ = .ok (.twRxdatav 0x4E) ∧ decode ⟨0x4400, []⟩ = .ok .twMstop := by decide

theorem test_decode_sch :
    decode ⟨0x5000, []⟩ = .ok .schOpen ∧ decode ⟨0x5100, [0x80000001]⟩ = .ok (.schAdd 0x80000001)
    ∧ decode ⟨0x5200, [8]⟩ = .ok (.schRemove 8) ∧ decode ⟨0x5300, []⟩ = .ok .schGet := by decide

/-- 95_test_vectors.md section 2.8, and the ends of the reserved ranges of R49. -/
theorem test_decode_invalid :
    decode ⟨0x1302, []⟩ = .error .popImmediate ∧ decode ⟨0x0001, []⟩ = .error .immNotZero
    ∧ decode ⟨0x4001, [0, 0, 0, 0]⟩ = .error .immNotZero ∧ decode ⟨0x6000, []⟩ = .error .reservedUnit
    ∧ decode ⟨0xFFFF, []⟩ = .error .reservedUnit ∧ decode ⟨0x0500, []⟩ = .error .reservedOp
    ∧ decode ⟨0x1400, []⟩ = .error .reservedOp ∧ decode ⟨0x2400, []⟩ = .error .reservedOp
    ∧ decode ⟨0x3500, []⟩ = .error .reservedOp ∧ decode ⟨0x4500, []⟩ = .error .reservedOp
    ∧ decode ⟨0x5400, []⟩ = .error .reservedOp := by decide

/-- A tuple that is not the row's (log 25). -/
theorem test_decode_operandTuple :
    decode ⟨0x0000, [1]⟩ = .error .operandTuple ∧ decode ⟨0x1200, [0x100]⟩ = .error .operandTuple
    ∧ decode ⟨0x4000, [0, 0, 2, 0]⟩ = .error .operandTuple
    ∧ decode ⟨0x5100, [0x100000000]⟩ = .error .operandTuple := by decide

theorem test_decodeTableWord :
    decodeTableWord 16 0x0105 = some (.emBlock 5) ∧ decodeTableWord 16 0x4000 = some (.twStart 0 0 false 0)
    ∧ decodeTableWord 16 0x5100 = some (.schAdd 0) ∧ decodeTableWord 16 0x1200 = some (.rbPush [])
    ∧ decodeTableWord 16 0x6000 = none := by decide

theorem test_withFetchWord :
    goesOn (step (State.reset.withFetchWord 16 0x5000)) (fun t => t.ev.opened && t.script == []) = true
    ∧ refuses (step (State.reset.withFetchWord 16 0x0100)) .uninitialised = true
    ∧ faults (step (State.reset.withFetchWord 16 0x4100)) .twAckState = true
    ∧ refuses (step (State.reset.withFetchWord 16 0x6000)) .invalidSelector = true := by decide

/-! ## Unit EM (95_test_vectors.md section 2.1) -/

/-- V-EM-15 -/
theorem test_emOpen : goesOn (exec .emOpen (withCounts [0, 0, 1, 2, 0] booted))
    (fun t => t.em.count == [0, 0, 0, 0, 0]) = true := by decide

/-- V-EM-9, V-EM-10 -/
theorem test_emBlock :
    goesOn (exec (.emBlock 3) booted) (fun t => t.em.count == [0, 0, 0, 1, 0]) = true
    ∧ goesOn (exec (.emBlock 1) (withCounts [0, 3, 0, 0, 0] booted))
        (fun t => t.em.count == [0, 4, 0, 0, 0]) = true := by decide

/-- V-EM-11, V-EM-14, V-EM-16, V-EM-20 -/
theorem test_emBlock_stops :
    faults (exec (.emBlock 1) (withCounts [0, 4, 0, 0, 0] booted)) .emCeilingHit = true
    ∧ refuses (exec (.emBlock 5) booted) .emDepthRange = true
    ∧ refuses (exec (.emBlock 0) unbooted) .uninitialised = true
    ∧ refuses (exec .emFloor (asleepAt 3 booted)) .mainAsleep = true := by decide

/-- V-EM-12, V-EM-13 -/
theorem test_emUnblock :
    goesOn (exec (.emUnblock 3) (withCounts [0, 0, 0, 1, 0] booted))
      (fun t => t.em.count == [0, 0, 0, 0, 0]) = true
    ∧ faults (exec (.emUnblock 3) booted) .emUnderflow = true := by decide

/-- V-EM-1 to V-EM-5 -/
theorem test_emFloor :
    (withCounts [0, 0, 1, 2, 0] booted).floor = 2 ∧ booted.floor = 4
    ∧ (withCounts [0, 0, 0, 0, 3] booted).floor = 4 ∧ (withCounts [1, 0, 0, 0, 0] booted).floor = 0
    ∧ goesOn (exec .emFloor (withCounts [0, 1, 0, 0, 0] booted))
        (fun t => t.ret == some (.depth 1)) = true := by decide

/-- V-EM-4 to V-EM-8 -/
theorem test_emSleep :
    goesOn (exec .emSleep (withCounts [1, 0, 0, 0, 0] booted)) (fun t => t.pwrDepth == 0) = true
    ∧ goesOn (exec .emSleep (withCounts [0, 1, 0, 0, 0] booted)) (fun t => t.pwrDepth == 0) = true
    ∧ goesOn (exec .emSleep (withCounts [0, 0, 1, 1, 0] booted)) (fun t => t.pwrDepth == 1) = true
    ∧ goesOn (exec .emSleep (withCounts [0, 0, 0, 1, 0] booted)) (fun t => t.pwrDepth == 2) = true
    ∧ goesOn (exec .emSleep booted) (fun t => t.pwrDepth == 3) = true := by decide

/-! ## Unit RB (section 2.2) -/

/-- V-RB-13 -/
theorem test_rbInit : goesOn (exec .rbInit (withCursors 10 6 ringHi))
    (fun t => t.rb.wr == 0 && t.rb.rd == 0 && t.rb.buf == ringHi.rb.buf && t.rb.space == 63) = true := by
  decide

/-- V-RB-1, V-RB-11 -/
theorem test_rbSpace :
    goesOn (exec .rbSpace booted) (fun t => t.ret == some (.space 63)) = true
    ∧ goesOn (exec .rbSpace (withCursors 3 60 booted)) (fun t => t.ret == some (.space 56)) = true := by
  decide

/-- V-RB-2, and the wrap of 20_memory.md R32 -/
theorem test_rbPush :
    goesOn (exec (.rbPush [0x48, 0x65, 0x6C, 0x6C, 0x6F]) booted) (fun t =>
      t.rb.buf == [(0, 6), (1, 0x48), (2, 0x65), (3, 0x6C), (4, 0x6C), (5, 0x6F)]
        && t.rb.wr == 6 && t.rb.space == 57) = true
    ∧ goesOn (exec (.rbPush [1, 2, 3]) (withCursors 62 62 booted)) (fun t =>
      t.rb.buf == [(0, 2), (1, 3), (62, 4), (63, 1)] && t.rb.wr == 2) = true := by decide

/-- V-RB-6, V-RB-7, V-RB-12, V-RB-14 -/
theorem test_rbPush_stops :
    faults (exec (.rbPush []) ringFull) .rbOverflow = true
    ∧ goesOn (exec (.rbPush (List.replicate 62 0x78)) booted)
        (fun t => t.rb.wr == 63 && t.rb.space == 0) = true
    ∧ refuses (exec (.rbPush [0x41, 0, 0x42]) unbooted) .payloadHasZeroByte = true
    ∧ refuses (exec (.rbPush []) (from_ .serial booted)) .rbFromIsr = true := by decide

/-- V-RB-3, V-RB-5: test mode -/
theorem test_rbPop_test :
    goesOn (exec (.rbPop true) ringHi) (fun t =>
      t.ret == some (.popped .consumed) && t.rb.rd == 3 && t.tx == ringHi.tx
        && t.rb.testSlot == [(0, 0x48), (1, 0x69), (2, 0)] && t.rb.scratch == t.rb.testSlot) = true
    ∧ goesOn (exec (.rbPop true) { ringHi with tx := sendingHi.tx }) (fun t =>
      t.ret == some (.popped .notReady) && t.rb == ringHi.rb) = true := by decide

/-- V-RB-4, V-RB-9, and the example of 41_ring_buffer.md R71: normal mode -/
theorem test_rbPop_normal :
    goesOn (exec (.rbPop false) { booted with tx := sendingHi.tx })
      (fun t => t.ret == some (.popped .empty)) = true
    ∧ goesOn (exec (.rbPop false) ringHi) (fun t =>
      t.ret == some (.popped .consumed) && t.tx == sendingHi.tx
        && t.em.count == [0, 0, 0, 1, 0] && t.rb.testSlot == []) = true := by decide

/-! ## Unit TX (section 2.3) -/

/-- V-TX-1 -/
theorem test_txStart : goesOn (exec (.txStart [0x48, 0x69]) booted)
    (fun t => t.tx == sendingHi.tx && t.em.count == [0, 0, 0, 1, 0]) = true := by decide

/-- V-TX-8, V-TX-9, V-TX-13 -/
theorem test_txStart_stops :
    refuses (exec (.txStart [0x42]) sendingHi) .txStartWhileBusy = true
    ∧ refuses (exec (.txStart (List.replicate 64 1)) booted) .txTextTooLong = true
    ∧ goesOn (exec (.txStart (List.replicate 63 1)) booted) (fun t => t.tx.len == 63) = true
    ∧ faults (exec (.txStart [0x41]) (withCounts [0, 0, 0, 4, 0] booted)) .emCeilingHit = true := by
  decide

/-- V-TX-12 -/
theorem test_txBusy :
    goesOn (exec .txBusy sentHi) (fun t => t.ret == some (.busy true)) = true
    ∧ goesOn (exec .txBusy booted) (fun t => t.ret == some (.busy false)) = true := by decide

/-- V-TX-2, V-TX-10 -/
theorem test_txTxbl :
    goesOn (exec .txTxbl (from_ .serial sendingHi)) (fun t =>
      t.txLine == [0x48] && t.tx.idx == 1 && t.tx.state == .sendChar) = true
    ∧ goesOn (exec .txTxbl (from_ .serial sendingLast)) (fun t =>
      t.txLine == [0x48, 0x69] && t.tx == sentHi.tx) = true
    ∧ goesOn (exec .txTxbl (from_ .serial sendingNothing)) (fun t =>
      t.txLine == [] && t.tx.state == .waitTxc && t.tx.busy && t.tx.txcIen) = true := by decide

/-- V-TX-3, V-TX-6 -/
theorem test_txTxbl_stops :
    faults (exec .txTxbl (from_ .serial sentHi)) .txTxblState = true
    ∧ faults (exec .txTxbl (from_ .serial booted)) .txTxblState = true := by decide

/-- V-TX-4 -/
theorem test_txTxc : goesOn (exec .txTxc (from_ .serial sentHi)) (fun t =>
    !t.tx.busy && !t.tx.txcIen && t.em.count == [0, 0, 0, 0, 0] && t.ev.mask == 0x10
      && t.tx.state == .finish) = true := by decide

/-- V-TX-7 -/
theorem test_txTxc_stops : faults (exec .txTxc (from_ .serial sendingHi)) .txTxcState = true := by decide

/-! ## Unit RX (section 2.4) -/

theorem test_rxOpen : goesOn (exec .rxOpen unbooted) (fun t =>
    t.rx.state == .idle && t.rx.block && t.rx.idx == 0 && t.rx.startByte == 0x23) = true := by decide

/-- V-EM-18, V-EM-19 -/
theorem test_rxLine :
    goesOn (exec (.rxLine 0x41) (from_ .serial (asleepAt 3 booted))) (fun t =>
      t.pwrDepth == 3 && t.rx == booted.rx) = true
    ∧ goesOn (exec (.rxLine 0x23) (from_ .serial (asleepAt 3 booted))) (fun t =>
      t.pwrDepth == 0 && t.rx == receiving.rx) = true := by decide

/-- V-RX-8, V-RX-10, V-RX-1, V-RX-7 -/
theorem test_rxLine_stops :
    refuses (exec (.rxLine 0x23) (from_ .serial receiving)) .rxStartInFrame = true
    ∧ refuses (exec (.rxLine 0x23) (from_ .serial unbooted)) .uninitialised = true
    ∧ goesOn (exec (.rxLine 0x21) (from_ .serial booted)) (fun t => t.rx == booted.rx) = true
    ∧ faults (exec (.rxLine 0x4F) (from_ .serial (receivingAt 15))) .rxOverflow = true := by decide

/-- The example of 43_serial_rx.md R82, and its gate. -/
theorem test_rxStartf :
    goesOn (exec .rxStartf (from_ .serial booted)) (fun t => t.rx == receiving.rx) = true
    ∧ refuses (exec .rxStartf (from_ .serial receiving)) .rxEventGate = true := by decide

/-- V-RX-3, V-RX-11, V-RX-9 -/
theorem test_rxRxdatav :
    goesOn (exec (.rxRxdatav 0x61) (from_ .serial receiving)) (fun t =>
      t.rx.buf == [(0, 0x23), (1, 0x61)] && t.rx.idx == 2 && t.rx.state == .receiving) = true
    ∧ goesOn (exec (.rxRxdatav 0) (from_ .serial receiving)) (fun t =>
      t.rx.buf == [(0, 0x23), (1, 0)]) = true
    ∧ refuses (exec (.rxRxdatav 0x41) (from_ .serial booted)) .rxEventGate = true := by decide

/-- V-RX-4, V-RX-6 -/
theorem test_rxSigf :
    goesOn (exec .rxSigf (from_ .serial receiving)) (fun t =>
      t.rx.buf == [(0, 0x23), (1, 0)] && t.rx.idx == 0 && t.rx.block && t.rx.state == .finished
        && t.ev.mask == 0x20) = true
    ∧ goesOn (exec .rxSigf (from_ .serial (receivingAt 15))) (fun t => t.rx.buf == [(15, 0)]) = true := by
  decide

/-! ## Unit TW (section 2.5) -/

/-- V-TW-1 -/
theorem test_twStart : goesOn (exec (.twStart 0x40 0xF3 true 2) booted) (fun t =>
    t.twOut == [.start, .tx 0x80] && t.tw == (transactionIn .sendMeasure).tw
      && t.em.count == [0, 0, 1, 0, 0]) = true := by decide

/-- V-TW-5, V-TW-10, V-TW-11, V-TW-14 -/
theorem test_twStart_stops :
    faults (exec (.twStart 0x40 0xF3 true 2) (transactionIn .sendMeasure)) .twBusNotIdle = true
    ∧ refuses (exec (.twStart 0x80 0xF3 true 2) booted) .twAddrRange = true
    ∧ refuses (exec (.twStart 0x40 0xF3 false 2) booted) .twFormNotDescribed = true
    ∧ refuses (exec (.twStart 0x40 0xF3 true 1) booted) .twFormNotDescribed = true
    ∧ faults (exec (.twStart 0x40 0xF3 true 2) (withCounts [0, 0, 4, 0, 0] booted)) .emCeilingHit
      = true := by decide

/-- V-TW-1, V-EM-17 -/
theorem test_twAck :
    goesOn (exec .twAck (from_ .twoWire (asleepAt 2 (transactionIn .sendMeasure)))) (fun t =>
      t.twOut == [.tx 0xF3] && t.tw.state == .sendRead && t.pwrDepth == 0) = true
    ∧ goesOn (exec .twAck (from_ .twoWire (transactionIn .sendRead))) (fun t =>
      t.twOut == [.start, .tx 0x81] && t.tw.state == .wack3) = true
    ∧ goesOn (exec .twAck (from_ .twoWire (transactionIn .wack3))) (fun t =>
      t.twOut == [] && t.tw.state == .getMsb) = true := by decide

/-- V-TW-6, V-TW-13 -/
theorem test_twAck_stops :
    faults (exec .twAck (from_ .twoWire booted)) .twAckState = true
    ∧ faults (exec .twAck (from_ .twoWire (transactionIn .endState))) .twAckState = true := by decide

/-- V-TW-3, V-TW-4 -/
theorem test_twNack :
    goesOn (exec .twNack (from_ .twoWire (transactionIn .wack3))) (fun t =>
      t.twOut == [.start, .tx 0x81] && t.tw.state == .wack3) = true
    ∧ faults (exec .twNack (from_ .twoWire (transactionIn .sendMeasure))) .twNackState = true := by
  decide

/-- V-TW-1, V-TW-12: the first byte is assigned, the second is OR-ed in. -/
theorem test_twRxdatav :
    goesOn (exec (.twRxdatav 0x01) (from_ .twoWire
      { transactionIn .getMsb with tw := { (transactionIn .getMsb).tw with result := 0xFFFF } }))
      (fun t => t.tw.result == 0x100 && t.twOut == [.ackCmd] && t.tw.state == .getLsbStop) = true
    ∧ goesOn (exec (.twRxdatav 0x35) (from_ .twoWire
      { transactionIn .getLsbStop with tw := { (transactionIn .getLsbStop).tw with result := 0x4E00 } }))
      (fun t => t.tw.result == 0x4E35 && t.twOut == [.nackCmd, .stopCmd] && t.tw.state == .endState)
      = true := by decide

/-- V-TW-7 -/
theorem test_twRxdatav_stops :
    faults (exec (.twRxdatav 5) (from_ .twoWire (transactionIn .wack3))) .twRxdataState = true := by
  decide

/-- V-TW-1 -/
theorem test_twMstop : goesOn (exec .twMstop (from_ .twoWire (transactionIn .endState))) (fun t =>
    t.em.count == [0, 0, 0, 0, 0] && t.ev.mask == 8 && !t.tw.busBusy && t.tw.state == .endState)
    = true := by decide

/-- V-TW-8, V-TW-9 -/
theorem test_twMstop_stops :
    faults (exec .twMstop (from_ .twoWire (transactionIn .getLsbStop))) .twMstopState = true
    ∧ faults (exec .twMstop (from_ .twoWire (withCounts [0, 0, 0, 0, 0] (transactionIn .endState))))
      .emUnderflow = true := by decide

/-! ## The event set (section 2.6) -/

/-- V-SCH-9 -/
theorem test_schOpen : goesOn (exec .schOpen (withMask 0x18 booted)) (fun t => t.ev.mask == 0) = true := by
  decide

/-- V-SCH-1, V-SCH-5, and program 3.3 step 3 -/
theorem test_schAdd :
    goesOn (exec (.schAdd 0x18) (withMask 8 booted)) (fun t => t.ev.mask == 0x18) = true
    ∧ goesOn (exec (.schAdd 0x80000001) (withMask 0x10 booted)) (fun t => t.ev.mask == 0x80000011) = true
    ∧ goesOn (exec (.schAdd 1) (from_ .timer (asleepAt 3 booted)))
        (fun t => t.ev.mask == 1 && t.pwrDepth == 0 && t.agent == .main) = true := by decide

/-- V-SCH-2, V-SCH-6 -/
theorem test_schRemove :
    goesOn (exec (.schRemove 8) (withMask 0x18 booted)) (fun t => t.ev.mask == 0x10) = true
    ∧ goesOn (exec (.schRemove 0xFFFFFFFF) (withMask 0x80000011 booted)) (fun t => t.ev.mask == 0)
      = true := by decide

/-- V-SCH-7 -/
theorem test_schGet : goesOn (exec .schGet (withMask 0x10 booted))
    (fun t => t.ret == some (.events 0x10)) = true := by decide

/-! ## Stores, marks and interface facts -/

/-- 10_state.md R26: no byte store lists anything at reset. -/
theorem test_reset_stores : State.reset.StoresCanonical ∧ State.reset.rb.buf = [] := by decide

/-- Program 3.6: the fault of an event step is marked and the step has woken the processor. -/
theorem test_settle_fault :
    (settle { asleepAt 1 (transactionIn .sendMeasure) with script := [lineOf .twoWire .twNack] }
      (.fault .twNackState)).sys.fault = some .twNackState
    ∧ (settle { asleepAt 1 (transactionIn .sendMeasure) with script := [lineOf .twoWire .twNack] }
      (.fault .twNackState)).pwrDepth = 0 := by decide

/-- Section 2.7. -/
theorem test_celsius :
    celsius 0x4E35 = 11193213 / 1638400 ∧ celsius 0 = -4685 / 100 ∧ fahrenheit 0 = -5233 / 100 := by
  have h : (0x4E35 : Word32).toNat = 20021 ∧ (0 : Word32).toNat = 0 := by decide
  refine ⟨?_, ?_, ?_⟩ <;> simp only [fahrenheit, celsius, h.1, h.2] <;> norm_num

/-! ## Witnesses: for each statement with hypotheses, and each of its clauses, a state and operands that
meet them together, at a boundary where the clause has one -/

theorem witness_decoding : decode ⟨0x01FF, []⟩ = .ok (.emBlock 0xFF)
    ∧ ∃ r ∈ stimulusTable, r.admits 0x01FF = true := by decide

/-- A block about to take a line. -/
def waiting (a : Agent) (w : Stimulus) : State := { booted with script := [⟨a, w⟩] }

theorem witness_AStepRunsTheDecodedStimulus (w : Stimulus) (a : Agent) :
    (waiting a w).cfg.Valid ∧ (waiting a w).sys.fault = none ∧ (waiting a w).sys.refused = none
    ∧ (waiting a w).script = [⟨a, w⟩] ∧ decode ⟨0x5300, []⟩ = .ok .schGet
    ∧ decode ⟨0x6000, []⟩ = .error .reservedUnit ∧ booted.cfg.Valid ∧ booted.script = [] :=
  ⟨(by decide : Config.tc1.Valid), rfl, rfl, rfl, by decide, by decide, by decide, rfl⟩

theorem witness_AStoppedBlockStaysStopped_fault :
    booted.cfg.Valid ∧ booted.sys.fault = none ∧ booted.sys.refused = none
    ∧ step (waiting .twoWire ⟨0x4100, []⟩) = .fault .twAckState
    ∧ step (waiting .main ⟨0x0200, []⟩) = .fault .emUnderflow :=
  ⟨by decide, rfl, rfl, rfl, rfl⟩

theorem witness_AStoppedBlockStaysStopped_refused :
    step (waiting .main ⟨0x0105, []⟩) = .refused .emDepthRange
    ∧ step (waiting .main ⟨0x6000, []⟩) = .refused .invalidSelector := ⟨rfl, rfl⟩

def emClosed (s : State) : State := { s with em := { s.em with opened := false } }

def evClosed (s : State) : State := { s with ev := { s.ev with opened := false } }

theorem witness_AReadBeforeInitialisationIsRefused :
    unbooted.MainReady ∧ unbooted.em.opened = false ∧ (4 : Byte).toNat < unbooted.cfg.nDepths
    ∧ unbooted.cfg.txBlockDepth < unbooted.cfg.nDepths ∧ unbooted.tx.busy = false ∧ NoZeroByte []
    ∧ ([] : List Byte).length + 1 ≤ unbooted.cfg.txBufSize ∧ unbooted.cfg.twBlockDepth < unbooted.cfg.nDepths
    ∧ unbooted.tw.busBusy = false ∧ unbooted.rb.ready = false ∧ unbooted.ev.opened = false
    ∧ (from_ .timer unbooted).agent = .timer ∧ (from_ .timer unbooted).ev.opened = false
    ∧ (from_ .serial unbooted).agent = .serial ∧ (from_ .serial unbooted).rx.state = .init := by decide

theorem witness_AReadBeforeInitialisationIsRefused_pop :
    (emClosed ringHi).em.opened = false ∧ (emClosed ringHi).MainReady ∧ (emClosed ringHi).rb.ready = true
    ∧ (emClosed ringHi).tx.busy = false ∧ (emClosed ringHi).rb.wr ≠ (emClosed ringHi).rb.rd
    ∧ headFrame (emClosed ringHi) = .ok ([0x48, 0x69], 3) ∧ NoZeroByte [0x48, 0x69]
    ∧ 2 + 1 ≤ (emClosed ringHi).cfg.txBufSize
    ∧ (emClosed ringHi).cfg.txBlockDepth < (emClosed ringHi).cfg.nDepths :=
  ⟨rfl, by decide, rfl, rfl, by decide, rfl, by decide, by decide, by decide⟩

theorem witness_AReadBeforeInitialisationIsRefused_inner :
    (∀ s ∈ [emClosed sentHi, evClosed sentHi], (from_ .serial s).agent = .serial
      ∧ s.tx.state = .waitTxc ∧ s.cfg.txBlockDepth < s.cfg.nDepths ∧ 1 ≤ s.countAt s.cfg.txBlockDepth)
    ∧ (∀ s ∈ [emClosed (transactionIn .endState), evClosed (transactionIn .endState)],
      (from_ .twoWire s).agent = .twoWire ∧ s.tw.state = .endState
      ∧ s.cfg.twBlockDepth < s.cfg.nDepths ∧ 1 ≤ s.countAt s.cfg.twBlockDepth)
    ∧ (evClosed sentHi).em.opened = true ∧ (evClosed (transactionIn .endState)).em.opened = true
    ∧ (from_ .serial (evClosed (receivingAt 15))).agent = .serial
    ∧ (evClosed (receivingAt 15)).rx.state ≠ .init ∧ (evClosed (receivingAt 15)).rx.block = false
    ∧ (evClosed (receivingAt 15)).rx.idx < (evClosed (receivingAt 15)).cfg.rxBufSize := by
  and_intros <;> decide

theorem witness_AForeignAgentAndASleepingMainAreRefused :
    (from_ .timer booted).agent ∉ Instr.rbSpace.issuers ∧ (from_ .twoWire booted).agent ∉ Instr.txTxbl.issuers
    ∧ .main ∈ (Instr.schAdd 1).issuers ∧ (asleepAt 1 booted).agent = .main
    ∧ 0 < (asleepAt 1 booted).pwrDepth := by decide

theorem witness_AnEventStepWakesAndReturnsToMain :
    (from_ .serial (asleepAt 3 booted)).agent ≠ .main
    ∧ booted.rx.block = true ∧ 0x41 ≠ booted.rx.startByte ∧ 0x23 = booted.rx.startByte
    ∧ (∃ t, exec (.rxLine 0x41) (from_ .serial (asleepAt 3 booted)) = .next t)
    ∧ (∃ t, exec (.rxLine 0x23) (from_ .serial (asleepAt 3 booted)) = .next t)
    ∧ ∃ t, exec (.schAdd 1) (from_ .timer (asleepAt 3 booted)) = .next t :=
  ⟨by decide, rfl, by decide, by decide, ⟨_, rfl⟩, ⟨_, rfl⟩, ⟨_, rfl⟩⟩

/-- `MainReady` alone is the hypothesis of the statements on `EM.OPEN`, `RB.INIT`, `TX.BUSY`, `RX.OPEN`
and `SCH.OPEN`. -/
theorem witness_MainReady : booted.MainReady ∧ unbooted.MainReady
    ∧ (4 : Byte).toNat < unbooted.cfg.nDepths := by decide

theorem witness_EmBlock :
    (∀ s ∈ [booted, withCounts [0, 0, 0, 0, 3] booted, withCounts [0, 0, 0, 0, 4] booted],
      s.MainReady ∧ s.em.opened = true ∧ s.em.count.length = s.cfg.nDepths
      ∧ (4 : Byte).toNat < s.cfg.nDepths ∧ s.cfg.nDepths ≤ (5 : Byte).toNat)
    ∧ (withCounts [0, 0, 0, 0, 3] booted).countAt 4 + 1 < booted.cfg.emCeiling
    ∧ booted.cfg.emCeiling ≤ (withCounts [0, 0, 0, 0, 4] booted).countAt 4 + 1 := by decide

theorem witness_EmUnblock :
    (∀ s ∈ [booted, withCounts [0, 0, 0, 0, 1] booted],
      s.MainReady ∧ s.em.opened = true ∧ s.em.count.length = s.cfg.nDepths
      ∧ (4 : Byte).toNat < s.cfg.nDepths ∧ s.cfg.nDepths ≤ (5 : Byte).toNat)
    ∧ 1 ≤ (withCounts [0, 0, 0, 0, 1] booted).countAt 4
    ∧ (withCounts [0, 0, 0, 0, 1] booted).countAt 4 = 1 ∧ booted.countAt 4 = 0 := by decide

theorem witness_EmFloor_EmSleep :
    (∀ s ∈ [booted, withCounts [0, 1, 0, 0, 0] booted],
      s.MainReady ∧ s.em.opened = true ∧ 0 < s.cfg.nDepths ∧ s.em.count.length = s.cfg.nDepths)
    ∧ booted.IsFloor 4 ∧ (withCounts [0, 1, 0, 0, 0] booted).IsFloor 1 := by
  refine ⟨by decide, ?_, ?_⟩ <;> unfold State.IsFloor <;> decide

theorem witness_RbSpace :
    booted.MainReady ∧ booted.rb.ready = true ∧ booted.cfg.Valid
    ∧ booted.rb.capacity = booted.cfg.capacity ∧ booted.rb.mask = booted.cfg.capacity - 1
    ∧ booted.rb.wr = booted.rb.rd := by and_intros <;> decide

theorem witness_RbPush :
    ringWrapped.MainReady ∧ ringWrapped.cfg.Valid ∧ ringWrapped.rb.ready = true ∧ ringWrapped.RingInv
    ∧ NoZeroByte (List.replicate 59 1) ∧ (List.replicate 59 (1 : Byte)).length + 1 ≤ ringWrapped.rb.space
    ∧ ringWrapped.rb.frames = some [[0x48, 0x69]] :=
  ⟨by decide, by decide, by decide, by decide, by decide, by decide, by decide⟩

theorem witness_RbPushStops :
    (∀ s ∈ [booted, ringFull], s.MainReady ∧ s.rb.ready = true ∧ s.cfg.Valid
      ∧ s.rb.capacity = s.cfg.capacity ∧ s.cfg.capacity - 2 < (List.replicate 63 (1 : Byte)).length)
    ∧ ¬ NoZeroByte [0] ∧ NoZeroByte [] ∧ NoZeroByte (List.replicate 63 1)
    ∧ ringFull.rb.space < ([] : List Byte).length + 1 := by and_intros <;> decide

theorem witness_RbPushAppendsToTheFrames :
    ringHi.cfg.Valid ∧ ringHi.RingInv ∧ ringHi.rb.frames = some [[0x48, 0x69]]
    ∧ ∃ t, exec (.rbPush []) ringHi = .next t :=
  ⟨by decide, by decide, by decide, ⟨_, rfl⟩⟩

/-- A ring with a chosen header pending. -/
def ringHeader (cells : Memory) : State :=
  { booted with rb := { booted.rb with buf := cells, wr := 3 } }

theorem witness_RbPopAnswers :
    (∀ s ∈ [booted, sendingHi, ringHeader [], ringHeader [(0, 0)], ringHeader [(0, 65)]],
      s.MainReady ∧ s.rb.ready = true)
    ∧ booted.rb.wr = booted.rb.rd
    ∧ { sendingHi with rb := ringHi.rb }.rb.wr ≠ { sendingHi with rb := ringHi.rb }.rb.rd
    ∧ { sendingHi with rb := ringHi.rb }.tx.busy = true
    ∧ (∀ cells ∈ [[], [(0, (0 : Byte))], [(0, 65)]],
      (ringHeader cells).rb.wr ≠ (ringHeader cells).rb.rd ∧ (ringHeader cells).tx.busy = false)
    ∧ Memory.read (ringHeader []).rb.buf (ringHeader []).rb.rd = none
    ∧ Memory.read (ringHeader [(0, 0)]).rb.buf (ringHeader [(0, 0)]).rb.rd = some 0
    ∧ Memory.read (ringHeader [(0, 65)]).rb.buf (ringHeader [(0, 65)]).rb.rd = some 65
    ∧ booted.cfg.scratchSize < (65 : Byte).toNat := by and_intros <;> decide

theorem witness_RbPop_consumes :
    (∀ s ∈ [withCounts [0, 0, 0, 3, 0] ringWrapped, withCounts [0, 0, 0, 4, 0] ringWrapped],
      s.MainReady ∧ s.cfg.Valid ∧ s.rb.ready = true ∧ s.RingInv ∧ s.tx.busy = false
      ∧ s.rb.frames = some [[0x48, 0x69]] ∧ s.em.opened = true
      ∧ s.em.count.length = s.cfg.nDepths)
    ∧ (withCounts [0, 0, 0, 3, 0] ringWrapped).countAt 3 + 1 < ringWrapped.cfg.emCeiling
    ∧ ringWrapped.cfg.emCeiling ≤ (withCounts [0, 0, 0, 4, 0] ringWrapped).countAt 3 + 1
    ∧ ringWrapped.cfg.txBlockDepth = 3 := by and_intros <;> decide

/-- A configuration that overrides the transmit buffer's size, beside a ring of 4 bytes
(70_reset_and_hazards.md R131). -/
def smallRing : State :=
  { State.booted { Config.tc1 with capacity := 4, txBufSize := 2 } with
    rb := { capacity := 4, mask := 3, wr := 3, rd := 0, ready := true, scratch := [], testSlot := [],
            buf := [(0, 3), (1, 0x48), (2, 0x69)] } }

theorem witness_RbPop_textTooLong :
    smallRing.MainReady ∧ smallRing.rb.ready = true ∧ smallRing.rb.wr ≠ smallRing.rb.rd
    ∧ smallRing.tx.busy = false ∧ headFrame smallRing = .ok ([0x48, 0x69], 3)
    ∧ smallRing.cfg.txBufSize < 2 + 1 := ⟨by decide, rfl, by decide, rfl, rfl, by decide⟩

/-- 00_scope.md R6, R7: the sizes of the table, and a configuration that overrides one is refused. -/
theorem test_overridden_size : Config.tc1.Valid ∧ ¬ smallRing.cfg.Valid
    ∧ step { smallRing with script := [lineOf .main .rbSpace] } = .refused .configInvalid :=
  ⟨by decide, by decide, rfl⟩

theorem witness_TxStart :
    (∀ s ∈ [withCounts [0, 0, 0, 3, 0] booted, withCounts [0, 0, 0, 4, 0] booted],
      s.MainReady ∧ s.tx.busy = false ∧ s.cfg.Valid ∧ s.em.opened = true
      ∧ s.em.count.length = s.cfg.nDepths
      ∧ (List.replicate 63 (1 : Byte)).length + 1 ≤ s.cfg.txBufSize
      ∧ s.cfg.txBufSize < (List.replicate 64 (1 : Byte)).length + 1
      ∧ ([0] : List Byte).length + 1 ≤ s.cfg.txBufSize)
    ∧ NoZeroByte (List.replicate 63 1) ∧ ¬ NoZeroByte [0]
    ∧ (withCounts [0, 0, 0, 3, 0] booted).countAt booted.cfg.txBlockDepth + 1 < booted.cfg.emCeiling
    ∧ booted.cfg.emCeiling ≤ (withCounts [0, 0, 0, 4, 0] booted).countAt booted.cfg.txBlockDepth + 1
    ∧ sendingHi.MainReady ∧ sendingHi.tx.busy = true := by and_intros <;> decide

theorem witness_TxBusy :
    (∃ t, exec (.txStart [1]) booted = .next t) ∧ (∃ t, exec .txTxc (from_ .serial sentHi) = .next t)
    ∧ (∃ t, exec .txTxbl (from_ .serial sendingHi) = .next t) ∧ sendingHi.tx.busy = true :=
  ⟨⟨_, rfl⟩, ⟨_, rfl⟩, ⟨_, rfl⟩, rfl⟩

theorem witness_TxTxbl :
    (∀ s ∈ [sendingHi, sendingLast, sendingNothing, sentHi], (from_ .serial s).agent = .serial)
    ∧ sendingLast.tx.state = .sendChar ∧ sendingLast.tx.idx < sendingLast.tx.len
    ∧ Memory.read sendingLast.tx.buf sendingLast.tx.idx = some 0x69
    ∧ sendingNothing.tx.state = .sendChar ∧ sendingNothing.tx.idx = sendingNothing.tx.len
    ∧ sentHi.tx.state ≠ .sendChar := by decide

theorem witness_TxTxc :
    (∀ s ∈ [from_ .serial sentHi, from_ .serial (withCounts [0, 0, 0, 0, 0] sentHi)],
      s.agent = .serial ∧ s.tx.state = .waitTxc ∧ s.cfg.Valid ∧ s.em.opened = true
      ∧ s.em.count.length = s.cfg.nDepths ∧ s.ev.opened = true)
    ∧ 1 ≤ sentHi.countAt sentHi.cfg.txBlockDepth
    ∧ (withCounts [0, 0, 0, 0, 0] sentHi).countAt sentHi.cfg.txBlockDepth = 0
    ∧ (from_ .serial sendingHi).agent = .serial ∧ sendingHi.tx.state ≠ .waitTxc := by
  and_intros <;> decide

theorem witness_RxLine :
    (∀ s ∈ [from_ .serial booted, from_ .serial receiving, from_ .serial (receivingAt 14)],
      s.agent = .serial ∧ s.rx.state ≠ .init ∧ s.rx.startByte = 0x23 ∧ s.rx.sigByte = 0x21)
    ∧ booted.rx.block = true ∧ receiving.rx.block = false ∧ (receivingAt 14).rx.block = false
    ∧ (0x23 : Byte) ≠ receiving.rx.sigByte ∧ (0 : Byte) ≠ receiving.rx.sigByte
    ∧ (0 : Byte) ≠ receiving.rx.startByte ∧ (receivingAt 14).rx.idx + 2 ≤ booted.cfg.rxBufSize := by
  and_intros <;> decide

theorem witness_RxStartf_RxRxdatav_RxSigf :
    (∀ s ∈ [from_ .serial booted, from_ .serial (receivingAt 14), from_ .serial (receivingAt 15)],
      s.agent = .serial ∧ s.rx.state ≠ .init ∧ s.cfg.Valid ∧ s.ev.opened = true)
    ∧ booted.rx.block = true ∧ (receivingAt 14).rx.block = false ∧ (receivingAt 15).rx.block = false
    ∧ (receivingAt 14).rx.idx + 2 ≤ booted.cfg.rxBufSize
    ∧ booted.cfg.rxBufSize < (receivingAt 15).rx.idx + 2
    ∧ (receivingAt 15).rx.idx < booted.cfg.rxBufSize := by and_intros <;> decide

theorem witness_TwStart :
    (∀ s ∈ [withCounts [0, 0, 3, 0, 0] booted, withCounts [0, 0, 4, 0, 0] booted],
      s.MainReady ∧ s.tw.busBusy = false ∧ s.cfg.Valid ∧ s.em.opened = true
      ∧ s.em.count.length = s.cfg.nDepths)
    ∧ 0x7F ≤ 0x7F ∧ 0x7F < 0x80
    ∧ (withCounts [0, 0, 3, 0, 0] booted).countAt booted.cfg.twBlockDepth + 1 < booted.cfg.emCeiling
    ∧ booted.cfg.emCeiling ≤ (withCounts [0, 0, 4, 0, 0] booted).countAt booted.cfg.twBlockDepth + 1
    ∧ (transactionIn .sendMeasure).MainReady
    ∧ (transactionIn .sendMeasure).tw.busBusy = true := by and_intros <;> decide

theorem witness_TwEvents (q : TwState) :
    (from_ .twoWire (transactionIn q)).agent = .twoWire ∧ (transactionIn q).tw.state = q
    ∧ (transactionIn q).cfg.Valid ∧ (transactionIn q).BetweenSteps ∧ (transactionIn q).em.opened = true
    ∧ (transactionIn q).em.count.length = (transactionIn q).cfg.nDepths
    ∧ (transactionIn q).ev.opened = true
    ∧ 1 ≤ (transactionIn q).countAt (transactionIn q).cfg.twBlockDepth
    ∧ (withCounts [0, 0, 0, 0, 0] (transactionIn q)).countAt (transactionIn q).cfg.twBlockDepth = 0 :=
  ⟨rfl, rfl, (by decide : Config.tc1.Valid), ⟨rfl, rfl, rfl⟩, rfl, rfl, rfl,
    by cases q <;> decide, by cases q <;> decide⟩

theorem witness_Sch :
    booted.MainReady ∧ booted.ev.opened = true ∧ (from_ .timer booted).agent = .timer
    ∧ (from_ .timer booted).agent ≠ .main := by decide

/-- Every invariant holds of a state in the midst of things: a frame pending across the end of the ring,
a byte of a transmit gone, a receive frame open, a transaction awaiting its second byte. -/
def busyState : State :=
  { transactionIn .getLsbStop with
    em := { count := [0, 0, 1, 1, 0], opened := true }
    rb := ringWrapped.rb, tx := sendingLast.tx, rx := receiving.rx, pwrDepth := 1
    tw := { (transactionIn .getLsbStop).tw with result := 0x4E00 } }

theorem witness_invariants :
    busyState.StoresCanonical ∧ busyState.ArbiterInv ∧ busyState.RingInv ∧ busyState.TransmitterInv
    ∧ busyState.ReceiverInv ∧ busyState.TwoWireInv ∧ busyState.BetweenSteps ∧ busyState.cfg.Valid :=
  ⟨by decide, by decide, by decide, by decide, by decide, by decide, by decide, by decide⟩

theorem witness_EveryStepKeeps :
    ∃ t, step { busyState with script := [lineOf .twoWire (.twRxdatav 0x35)] } = .next t := ⟨_, rfl⟩

/-- Both units in flight, and a block of MAIN's own on the transmitter's depth. -/
def busyAndBlocked : State := withCounts [0, 0, 1, 2, 0] (asleepAt 0 busyState)

theorem witness_AUnitInFlightHoldsItsBlock :
    (∀ s ∈ [from_ .serial busyState, busyAndBlocked, booted], s.BlocksHeld)
    ∧ (∀ s ∈ [from_ .serial busyState, busyAndBlocked, booted], s.TransmitterInv
      ∧ s.em.count.length = s.cfg.nDepths ∧ s.Deliverable (.emUnblock 3) = true
      ∧ s.Deliverable .emOpen = true)
    ∧ (from_ .serial busyState).Deliverable .txTxbl = true
    ∧ (∃ t, exec .txTxbl (from_ .serial busyState) = .next t)
    ∧ busyAndBlocked.heldBlocks (3 : Byte).toNat ≠ 0
    ∧ busyAndBlocked.heldBlocks (3 : Byte).toNat < busyAndBlocked.countAt (3 : Byte).toNat
    ∧ (∃ t, exec (.emUnblock 3) busyAndBlocked = .next t)
    ∧ booted.tx.busy = false ∧ booted.tw.busBusy = false ∧ ∃ t, exec .emOpen booted = .next t := by
  simp only [blocksHeld_iff]
  exact ⟨by decide, by decide, by decide, ⟨_, rfl⟩, by decide, by decide, ⟨_, rfl⟩, rfl, rfl, ⟨_, rfl⟩⟩

theorem witness_UnderTheContracts :
    (transactionIn .sendRead).TransmitterInv ∧ (transactionIn .sendRead).Deliverable .twNack = true
    ∧ exec .twNack (from_ .twoWire (transactionIn .sendRead)) = .fault .twNackState
    ∧ Fault.twNackState.faultClass = some 1 := ⟨by decide, by decide, rfl, rfl⟩

theorem witness_TransmitAndReceiveEventsCommute :
    (∃ u t, exec .txTxbl (from_ .serial sendingLast) = .next u
      ∧ exec (.rxLine 0x23) (from_ .serial u) = .next t)
    ∧ ∃ u t, exec (.rxLine 0x41) (from_ .serial sendingLast) = .next u
      ∧ exec .txTxbl (from_ .serial u) = .next t :=
  ⟨⟨_, _, rfl, rfl⟩, ⟨_, _, rfl, rfl⟩⟩

theorem witness_EventBits :
    (∃ t, exec (.schRemove 8) (withMask 8 booted) = .next t
      ∧ (withMask 8 booted).ev.mask &&& ~~~t.ev.mask ≠ 0)
    ∧ ∃ t, exec (.schAdd 8) booted = .next t ∧ t.ev.mask &&& ~~~booted.ev.mask ≠ 0 :=
  ⟨⟨_, rfl, by decide⟩, ⟨_, rfl, by decide⟩⟩

theorem witness_TracesGrow :
    (∃ t, exec .twAck (from_ .twoWire (transactionIn .sendMeasure)) = .next t ∧ t.twOut = [.tx 0xF3])
    ∧ exec .twAck (from_ .twoWire booted) = .fault .twAckState
    ∧ exec (.emBlock 5) booted = .refused .emDepthRange := ⟨⟨_, rfl, rfl⟩, rfl, rfl⟩

theorem witness_EachUnitIsWrittenOnlyByItsWriters :
    (∃ t, exec (.rbPush [1]) booted = .next t ∧ t.rb.buf ≠ booted.rb.buf ∧ t.rb.wr ≠ booted.rb.wr)
    ∧ (∃ t, exec (.rbPop true) ringHi = .next t ∧ t.rb.rd ≠ ringHi.rb.rd
      ∧ t.rb.scratch ≠ ringHi.rb.scratch ∧ t.rb.testSlot ≠ ringHi.rb.testSlot ∧ t.ret ≠ ringHi.ret)
    ∧ (∃ t, exec (.txStart [1]) booted = .next t ∧ t.em.count ≠ booted.em.count
      ∧ t.tx.buf ≠ booted.tx.buf ∧ t.tx.busy ≠ booted.tx.busy ∧ t.tx.state ≠ booted.tx.state)
    ∧ (∃ t, exec .rxStartf (from_ .serial booted) = .next t ∧ t.rx.buf ≠ booted.rx.buf
      ∧ t.rx.block ≠ booted.rx.block)
    ∧ (∃ t, exec .rxOpen unbooted = .next t ∧ t.rx.startByte ≠ unbooted.rx.startByte)
    ∧ (∃ t, exec (.twRxdatav 1) (from_ .twoWire (transactionIn .getMsb)) = .next t ∧ t.tw.result ≠ 0
      ∧ t.tw.state ≠ (transactionIn .getMsb).tw.state)
    ∧ (∃ t, exec .emSleep booted = .next t ∧ t.pwrDepth ≠ booted.pwrDepth)
    ∧ ∃ t, exec (.twStart 1 2 true 2) booted = .next t ∧ t.tw.addr ≠ booted.tw.addr
      ∧ t.tw.busBusy ≠ booted.tw.busBusy :=
  ⟨⟨_, rfl, by decide, by decide⟩, ⟨_, rfl, by decide, by decide, by decide, by decide⟩,
    ⟨_, rfl, by decide, by decide, by decide, by decide⟩, ⟨_, rfl, by decide, by decide⟩,
    ⟨_, rfl, by decide⟩, ⟨_, rfl, by decide, by decide⟩, ⟨_, rfl, by decide⟩,
    ⟨_, rfl, by decide, by decide⟩⟩

theorem witness_TheBootSequenceMayBePermuted :
    Config.tc1.Valid ∧ [Instr.rbInit, .rxOpen, .schOpen, .emOpen].Perm [.emOpen, .schOpen, .rxOpen, .rbInit] :=
  ⟨by decide, by decide⟩

theorem witness_runs :
    (∀ s ∈ [withCounts [0, 0, 3, 3, 0] booted],
      s.cfg.Valid ∧ s.BetweenSteps ∧ s.pwrDepth = 0 ∧ s.em.opened = true
      ∧ s.em.count.length = s.cfg.nDepths ∧ s.ev.opened = true
      ∧ s.countAt s.cfg.txBlockDepth + 1 < s.cfg.emCeiling
      ∧ s.countAt s.cfg.twBlockDepth + 1 < s.cfg.emCeiling
      ∧ s.tx.busy = false ∧ s.tw.busBusy = false ∧ [(1 : Byte)].length + 1 ≤ s.cfg.txBufSize)
    ∧ NoZeroByte [1] ∧ 1 ≤ [(1 : Byte)].length ∧ 0x7F ≤ 0x7F := by and_intros <;> decide

theorem witness_AReceivedFrameIsATerminatedString :
    booted.cfg.Valid ∧ booted.BetweenSteps ∧ booted.ev.opened = true
    ∧ booted.ReceiverInv ∧ booted.rx.state = .idle
    ∧ (∀ b ∈ List.replicate 14 (0x41 : Byte), b ≠ booted.cfg.rxStartByte ∧ b ≠ booted.cfg.rxSigByte)
    ∧ (List.replicate 14 (0x41 : Byte)).length + 2 ≤ booted.cfg.rxBufSize := by and_intros <;> decide

theorem witness_PushedStringsArePoppedInOrder :
    booted.cfg.Valid ∧ booted.BetweenSteps ∧ booted.pwrDepth = 0 ∧ booted.tx.busy = false
    ∧ booted.rb.ready = true ∧ booted.RingInv ∧ booted.rb.frames = some []
    ∧ (∀ p ∈ [List.replicate 30 (1 : Byte), List.replicate 31 2], NoZeroByte p)
    ∧ ([List.replicate 30 (1 : Byte), List.replicate 31 2].map fun p => p.length + 1).sum
      ≤ booted.cfg.capacity - 1 := by and_intros <;> decide

end Sys2Proof.Tests
end

section
/-! The energy-mode arbiter: proofs of the statements about `EM.OPEN` (40_energy_arbiter.md R60) and
`EM.FLOOR` (R63). -/

namespace Sys2Proof.Machine

/-- Settles O14: the scan's result is the floor R63 describes, and there is only one floor. -/
theorem emFloorReturnsTheFirstBlockedDepth : Obligations.EmFloorReturnsTheFirstBlockedDepth := by
  intro s hready hopen hpos hlen
  have hfloor : s.IsFloor s.floor := floor_isFloor hpos hlen
  exact ⟨s.setRet (.depth s.floor), s.floor, exec_emFloor_next.2 ⟨hready, hopen, rfl⟩, rfl, hfloor,
    fun _ hg => isFloor_unique hg hfloor⟩

/-- The state `EM.OPEN` leaves (R60). -/
def State.emOpened (s : State) : State :=
  { s with em := { count := List.replicate s.cfg.nDepths 0, opened := true } }

theorem exec_emOpen {s : State} (hready : s.MainReady) : exec .emOpen s = .next s.emOpened :=
  exec_emOpen_next.2 ⟨hready, rfl⟩

/-- After `EM.OPEN` every depth, of the table or past its end, has the count 0. -/
theorem emOpened_countAt (s : State) (d : Nat) : s.emOpened.countAt d = 0 := by
  rw [State.countAt, List.getD_eq_getElem?_getD]
  exact List.getElem?_getD_replicate_default_eq 0 s.cfg.nDepths d

/-- `EM.UNBLOCK` of a depth of the table whose count is 0 faults (R62). -/
theorem exec_emUnblock_underflow {s : State} {d : Byte} (hready : s.MainReady)
    (hopen : s.em.opened = true) (hd : d.toNat < s.cfg.nDepths) (hzero : s.countAt d.toNat = 0) :
    exec (.emUnblock d) s = .fault .emUnderflow := by
  calc exec (.emUnblock d) s
      = unblockDepth d.toNat s := asMain_ready hready _
    _ = .fault .emUnderflow := unblockDepth_underflow hd hopen hzero

/-- Settles O11: the opened table is all zeros, so a later unblock finds the count 0 and faults. -/
theorem emOpenZeroesEveryCount : Obligations.EmOpenZeroesEveryCount := by
  intro s hready
  have hzero : ∀ d, s.emOpened.countAt d = 0 := emOpened_countAt s
  exact ⟨s.emOpened, exec_emOpen hready, fun d _ => hzero d, List.length_replicate, rfl, rfl,
    fun d hd => exec_emUnblock_underflow hready rfl hd (hzero d.toNat)⟩

end Sys2Proof.Machine
end

section
/-! The ring buffer: proofs of the statements about `RB.INIT` (41_ring_buffer.md R68) and `RB.SPACE`
(R69). -/

namespace Sys2Proof.Machine

/-- Equal cursors leave no byte in use, whatever the mask. -/
theorem ringUsed_self (mask c : Nat) : ringUsed mask c c = 0 := by
  rw [ringUsed, sub_self]
  exact Nat.zero_and mask

/-- A ring whose cursors are equal has no frame pending. -/
theorem frames_of_cursors_eq {u : RbUnit} (h : u.wr = u.rd) : u.frames = some [] := by
  have hused : u.used = 0 := by rw [RbUnit.used, h, ringUsed_self]
  have hlive : u.live = some [] := by rw [RbUnit.live, hused]; rfl
  exact frames_eq_some.2 ⟨hlive, by simp⟩

/-- The used bytes of a ring of a valid capacity: the cursors' distance modulo the capacity. -/
theorem used_mod {c : Config} {u : RbUnit} (hc : c.Valid) (hm : u.mask = c.capacity - 1) :
    (u.used : Int) = ((u.wr : Int) - u.rd) % c.capacity := by
  obtain ⟨k, -, -, hk⟩ := capacity_pow hc
  rw [RbUnit.used, hm, hk, ringUsed_mod]

/-- A ring of a valid capacity uses fewer bytes than its capacity. -/
theorem used_lt {c : Config} {u : RbUnit} (hc : c.Valid) (hm : u.mask = c.capacity - 1) :
    u.used < c.capacity := by
  obtain ⟨k, -, -, hk⟩ := capacity_pow hc
  rw [RbUnit.used, hm, hk]
  exact ringUsed_lt k u.wr u.rd

/-- Settles O17: the used bytes are the remainder of the cursors' distance and fewer than the capacity,
so that neither subtraction of `space` truncates. -/
theorem rbSpaceReturnsTheFreeBytesButOne : Obligations.RbSpaceReturnsTheFreeBytesButOne := by
  intro s hready hinit hvalid hcap hmask
  have hspace : s.rb.space = s.cfg.capacity - s.rb.used - 1 := by rw [RbUnit.space, hcap]
  have hmod := used_mod hvalid hmask
  have hlt := used_lt hvalid hmask
  refine ⟨s.setRet (.space s.rb.space), s.rb.space, exec_rbSpace_next.2 ⟨hready, hinit, rfl⟩, rfl,
    ?_, ?_, ?_⟩
  · rw [← hmod]; omega
  · omega
  · intro hempty
    have hused : s.rb.used = 0 := by rw [RbUnit.used, hempty, ringUsed_self]
    omega

/-- The state `RB.INIT` leaves (R68). -/
def State.rbInitialised (s : State) : State :=
  { s with rb := { s.rb with
      capacity := s.cfg.capacity, mask := s.cfg.capacity - 1, wr := 0, rd := 0, ready := true } }

theorem exec_rbInit {s : State} (hready : s.MainReady) : exec .rbInit s = .next s.rbInitialised :=
  exec_rbInit_next.2 ⟨hready, rfl⟩

/-- Settles O16: both cursors at 0 discard the pending frames without a byte written. -/
theorem rbInitSetsSizesAndZeroesCursors : Obligations.RbInitSetsSizesAndZeroesCursors := by
  intro s hready
  have hframes : s.rbInitialised.rb.frames = some [] := frames_of_cursors_eq rfl
  exact ⟨s.rbInitialised, exec_rbInit hready, rfl, rfl, rfl, rfl, hframes, rfl, rfl, rfl, rfl, rfl⟩

end Sys2Proof.Machine
end

section
/-! The scheduler's event set: the proof of the statement about `SCH.GET`
(45_scheduler_and_externals.md R100). -/

namespace Sys2Proof.Machine

/-- Settles O42: a ready MAIN passes the agent test, and the open set has a mask to return. -/
theorem schGetReturnsTheEventSet : Obligations.SchGetReturnsTheEventSet := by
  intro s hready hopen
  exact exec_schGet_next.2 ⟨hready, hopen, rfl⟩

end Sys2Proof.Machine
end

section
/-! The encoding: proofs of the statements about the decoder and the encoder (30_encoding.md sections 1
and 2). -/

namespace Sys2Proof

/-- What format S decodes at a unit and an operation encodes to the word of that position (R44). -/
theorem encode_of_decodeS {w : Stimulus} {u o : BitVec 4} {i j : Instr} (h : decodeS w i = .ok j)
    (hi : encode i = ⟨selector u o 0, []⟩) (hu : w.unit = u.toNat) (ho : w.op = o.toNat) :
    encode j = w := by
  obtain ⟨himm, hops, rfl⟩ := decodeS_eq_ok.1 h
  exact hi.trans (by rw [stimulus_eta hu ho, himm, hops])

theorem encode_of_decodeB {w : Stimulus} {u o : BitVec 4} {i : Byte → Instr} {j : Instr}
    (h : decodeB w i = .ok j) (hi : ∀ b, encode (i b) = ⟨selector u o b, []⟩)
    (hu : w.unit = u.toNat) (ho : w.op = o.toNat) : encode j = w := by
  obtain ⟨hops, rfl⟩ := decodeB_eq_ok.1 h
  exact (hi w.imm8).trans (hops ▸ (stimulus_eta hu ho).symm)

theorem encode_of_decodePop {w : Stimulus} {j : Instr} (h : decodePop w = .ok j)
    (hu : w.unit = 0x1) (ho : w.op = 0x3) : encode j = w := by
  have hw : w = ⟨selector 0x1 0x3 w.imm8, w.ops⟩ := stimulus_eta hu ho
  obtain ⟨hops, ⟨himm, rfl⟩ | ⟨himm, rfl⟩⟩ := decodePop_eq_ok.1 h
  · rw [hw, himm, hops]; rfl
  · rw [hw, himm, hops]; rfl

theorem encode_of_decodeX {α : Type} {w : Stimulus} {u o : BitVec 4}
    {read : List Nat → Option Instr} {i : α → Instr} {write : α → List Nat} {j : Instr}
    (h : decodeX w read = .ok j) (hread : read w.ops = some j → ∃ x, write x = w.ops ∧ i x = j)
    (hi : ∀ x, encode (i x) = ⟨selector u o 0, write x⟩)
    (hu : w.unit = u.toNat) (ho : w.op = o.toNat) : encode j = w := by
  obtain ⟨himm, hops⟩ := decodeX_eq_ok.1 h
  obtain ⟨x, hx, rfl⟩ := hread hops
  rw [hi x, hx, stimulus_eta hu ho, himm]

/-- A byte string read from an operand tuple is the tuple's own numbers (30_encoding.md R48). -/
theorem readBytes_map_eq_some {i : List Byte → Instr} {ops : List Nat} {j : Instr} :
    (readBytes ops).map i = some j ↔ ∃ p, p.map BitVec.toNat = ops ∧ i p = j := by
  simp only [Option.map_eq_some_iff, readBytes_eq_some]

/-- A mask read from an operand tuple is the tuple's one number. -/
theorem readMask_eq_some {i : EventMask → Instr} {ops : List Nat} {j : Instr} :
    readMask i ops = some j ↔ ∃ m : EventMask, [m.toNat] = ops ∧ i m = j := by
  constructor
  · intro h
    unfold readMask at h
    split at h
    · split at h
      · rename_i m hm
        exact ⟨BitVec.ofNat 32 m, by rw [BitVec.toNat_ofNat, Nat.mod_eq_of_lt hm], Option.some.inj h⟩
      · cases h
    · cases h
  · rintro ⟨m, rfl, rfl⟩
    simp only [readMask, m.isLt, if_true, BitVec.ofNat_toNat, BitVec.setWidth_eq]

/-- The operands of `TW.START` read from a tuple are the tuple's numbers. -/
theorem readTwStart_eq_some {ops : List Nat} {j : Instr} :
    readTwStart ops = some j ↔ ∃ x : Nat × Byte × Bool × Nat,
      [x.1, x.2.1.toNat, if x.2.2.1 then 1 else 0, x.2.2.2] = ops
      ∧ .twStart x.1 x.2.1 x.2.2.1 x.2.2.2 = j := by
  constructor
  · intro h
    unfold readTwStart at h
    split at h
    · split at h
      · rename_i addr cmd rd n hlt
        obtain ⟨hcmd, hrd⟩ := hlt
        refine ⟨(addr, BitVec.ofNat 8 cmd, rd == 1, n), ?_, Option.some.inj h⟩
        have hbit : (if (rd == 1) = true then 1 else 0) = rd := by
          obtain rfl | rfl : rd = 0 ∨ rd = 1 := by omega
          all_goals rfl
        rw [hbit, BitVec.toNat_ofNat, Nat.mod_eq_of_lt hcmd]
      · cases h
    · cases h
  · rintro ⟨⟨addr, cmd, rd, n⟩, rfl, rfl⟩
    cases rd <;> simp [readTwStart, cmd.isLt]

/-- Settles O1: the fields of the encoded selector pick the stimulus's own row, whose format reads the
operands back. -/
theorem decodingAnEncodedStimulusGivesItBack : Obligations.DecodingAnEncodedStimulusGivesItBack := by
  intro i
  cases i with
  | emBlock b | emUnblock b | rxLine b | rxRxdatav b | twRxdatav b =>
    simp [decode, encode, decodeB_eq_ok]
  | rbPush p | txStart p => simp [decode, encode, decodeX_eq_ok]
  | schAdd m | schRemove m => simp [decode, encode, decodeX_eq_ok, readMask_eq_some]
  | twStart addr cmd rd n =>
    have hread := readTwStart_eq_some.2 ⟨(addr, cmd, rd, n), rfl, rfl⟩
    simpa [decode, encode, decodeX_eq_ok] using hread
  | rbPop t => cases t <;> rfl
  | _ => rfl

/-- Settles O2: each format pins down the immediate and the tuple, and the branch the other two fields. -/
theorem encodingADecodedStimulusGivesItsWordBack :
    Obligations.EncodingADecodedStimulusGivesItsWordBack := by
  intro w i h
  unfold decode at h
  split at h
  -- format S
  case h_1 | h_4 | h_5 | h_7 | h_8 | h_13 | h_14 | h_15 | h_17 | h_19 | h_21 | h_24 | h_25 | h_27
      | h_29 | h_32 =>
    rename_i hu ho
    exact encode_of_decodeS h rfl hu ho
  -- format B
  case h_2 | h_3 | h_18 | h_20 | h_26 =>
    rename_i hu ho
    exact encode_of_decodeB h (fun _ => rfl) hu ho
  case h_10 =>
    rename_i hu ho
    exact encode_of_decodePop h hu ho
  -- format X, by the shape of the tuple
  case h_9 | h_12 =>
    rename_i hu ho
    exact encode_of_decodeX h readBytes_map_eq_some.1 (fun _ => rfl) hu ho
  case h_23 =>
    rename_i hu ho
    exact encode_of_decodeX h readTwStart_eq_some.1 (fun _ => rfl) hu ho
  case h_30 | h_31 =>
    rename_i hu ho
    exact encode_of_decodeX h readMask_eq_some.1 (fun _ => rfl) hu ho
  -- reserved codes
  case h_6 | h_11 | h_16 | h_22 | h_28 | h_33 | h_34 => cases h

/-- Every selector is the one of its three fields. -/
theorem exists_selector (sel : Selector) : ∃ u o b, sel = selector u o b :=
  ⟨_, _, _, congrArg Stimulus.sel (stimulus_eta (w := ⟨sel, []⟩) (u := sel.extractLsb' 12 4)
    (o := sel.extractLsb' 8 4) rfl rfl)⟩

/-- The unit and operation fields of a selector decide it up to its immediate. -/
theorem selector_of_under_fields {sel : Selector} {u o : BitVec 4}
    (h : sel &&& 0xFF00 = selector u o 0) : ∃ b, sel = selector u o b := by
  obtain ⟨u', o', b, rfl⟩ := exists_selector sel
  rw [Laws.SelectorRow.under_fields] at h
  have hu := congrArg (fun sel => Stimulus.unit ⟨sel, []⟩) h
  have ho := congrArg (fun sel => Stimulus.op ⟨sel, []⟩) h
  simp only [unit_selector, op_selector, BitVec.toNat_inj] at hu ho
  exact ⟨b, by rw [hu, ho]⟩

/-- The selector of every stimulus belongs to the row with its mnemonic (30_encoding.md R46). -/
theorem selectorRow (i : Instr) : Laws.SelectorRow.Statement i := by
  cases i with
  | emOpen => exact Laws.SelectorRow.emOpen
  | emBlock d => exact Laws.SelectorRow.emBlock d
  | emUnblock d => exact Laws.SelectorRow.emUnblock d
  | emFloor => exact Laws.SelectorRow.emFloor
  | emSleep => exact Laws.SelectorRow.emSleep
  | rbInit => exact Laws.SelectorRow.rbInit
  | rbSpace => exact Laws.SelectorRow.rbSpace
  | rbPush p => exact Laws.SelectorRow.rbPush p
  | rbPop t => exact Laws.SelectorRow.rbPop t
  | txStart p => exact Laws.SelectorRow.txStart p
  | txBusy => exact Laws.SelectorRow.txBusy
  | txTxbl => exact Laws.SelectorRow.txTxbl
  | txTxc => exact Laws.SelectorRow.txTxc
  | rxOpen => exact Laws.SelectorRow.rxOpen
  | rxLine b => exact Laws.SelectorRow.rxLine b
  | rxStartf => exact Laws.SelectorRow.rxStartf
  | rxRxdatav b => exact Laws.SelectorRow.rxRxdatav b
  | rxSigf => exact Laws.SelectorRow.rxSigf
  | twStart addr cmd rd n => exact Laws.SelectorRow.twStart addr cmd rd n
  | twAck => exact Laws.SelectorRow.twAck
  | twNack => exact Laws.SelectorRow.twNack
  | twRxdatav b => exact Laws.SelectorRow.twRxdatav b
  | twMstop => exact Laws.SelectorRow.twMstop
  | schOpen => exact Laws.SelectorRow.schOpen
  | schAdd m => exact Laws.SelectorRow.schAdd m
  | schRemove m => exact Laws.SelectorRow.schRemove m
  | schGet => exact Laws.SelectorRow.schGet

/-- What decodes has a selector of the row with its stimulus's mnemonic. -/
theorem row_of_decode {sel : Selector} {ops : List Nat} {i : Instr}
    (h : decode ⟨sel, ops⟩ = .ok i) :
    ∃ r ∈ stimulusTable, r.mnemonic = i.mnemonic ∧ r.admits sel = true := by
  have hsel := selectorRow i
  rwa [Laws.SelectorRow.Statement, encodingADecodedStimulusGivesItsWordBack ⟨sel, ops⟩ i h] at hsel

theorem admits_iff {r : TableRow} {sel : Selector} :
    r.admits sel = true ↔ sel &&& r.mask = r.pattern := beq_iff_eq

/-- The three kinds of rows: one word, whose zero operands decode; `RB.POP`; one word per immediate. -/
theorem row_kinds : ∀ r ∈ stimulusTable,
    (r.mask = 0xFFFF ∧ (decode ⟨r.pattern, zeroOperands r.pattern⟩).isOk = true)
    ∨ (r.mask = 0xFFFE ∧ r.pattern = selector 0x1 0x3 0)
    ∨ (r.mask = 0xFF00 ∧ r.pattern ∈ [selector 0x0 0x1 0, selector 0x0 0x2 0, selector 0x3 0x1 0,
        selector 0x3 0x3 0, selector 0x4 0x3 0]) := by decide

theorem pop_immediate : ∀ b : Byte, selector 0x1 0x3 b &&& 0xFFFE = selector 0x1 0x3 0 →
    b = if b.getLsbD 0 then 1 else 0 := by decide

/-- A selector that a row admits is the selector of some stimulus. -/
theorem exists_encode_of_admits {r : TableRow} {sel : Selector} (hr : r ∈ stimulusTable)
    (h : r.admits sel = true) : ∃ i, (encode i).sel = sel := by
  rw [admits_iff] at h
  obtain ⟨hm, hok⟩ | ⟨hm, hp⟩ | ⟨hm, hp⟩ := row_kinds r hr
  · have hsel : sel = r.pattern := by
      rw [← h, hm]
      exact (BitVec.and_allOnes (x := sel)).symm
    cases hd : decode ⟨r.pattern, zeroOperands r.pattern⟩ with
    | error e => rw [hd] at hok; cases hok
    | ok i => exact ⟨i, by rw [encodingADecodedStimulusGivesItsWordBack _ i hd, hsel]⟩
  · rw [hm, hp] at h
    have hfields : sel &&& 0xFF00 = selector 0x1 0x3 0 := by
      calc sel &&& 0xFF00 = sel &&& 0xFFFE &&& 0xFF00 := by rw [BitVec.and_assoc]; rfl
        _ = selector 0x1 0x3 0 := by rw [h]; rfl
    obtain ⟨b, rfl⟩ := selector_of_under_fields hfields
    exact ⟨.rbPop (b.getLsbD 0), congrArg (selector 0x1 0x3) (pop_immediate b h).symm⟩
  · rw [hm] at h
    simp only [List.mem_cons, List.not_mem_nil, or_false] at hp
    obtain hp | hp | hp | hp | hp := hp
    all_goals obtain ⟨b, rfl⟩ := selector_of_under_fields (h.trans hp)
    exacts [⟨.emBlock b, rfl⟩, ⟨.emUnblock b, rfl⟩, ⟨.rxLine b, rfl⟩, ⟨.rxRxdatav b, rfl⟩,
      ⟨.twRxdatav b, rfl⟩]

/-- Two rows whose patterns agree under both masks are one row. -/
theorem row_eq_of_common : ∀ r ∈ stimulusTable, ∀ r' ∈ stimulusTable,
    r.pattern &&& r'.mask = r'.pattern &&& r.mask → r = r' := by decide

/-- At most one row admits a selector. -/
theorem row_unique {r r' : TableRow} {sel : Selector} (hr : r ∈ stimulusTable)
    (hr' : r' ∈ stimulusTable) (h : r.admits sel = true) (h' : r'.admits sel = true) : r = r' := by
  rw [admits_iff] at h h'
  refine row_eq_of_common r hr r' hr' ?_
  calc r.pattern &&& r'.mask = sel &&& r'.mask &&& r.mask := by
        rw [← h, BitVec.and_assoc, BitVec.and_comm r.mask, ← BitVec.and_assoc]
    _ = r'.pattern &&& r.mask := by rw [h']

/-- Settles O3: what a selector decodes to encodes to it, in its mnemonic's row; an admitted selector is
some stimulus's; and no two rows share a selector. -/
theorem aSelectorIsValidExactlyWhenOneRowAdmitsIt :
    Obligations.ASelectorIsValidExactlyWhenOneRowAdmitsIt := by
  intro sel
  refine ⟨⟨?_, ?_⟩, fun r hr r' hr' => row_unique hr hr', fun ops i h => ?_⟩
  · rintro ⟨ops, i, h⟩
    obtain ⟨r, hr, -, hadm⟩ := row_of_decode h
    exact ⟨r, hr, hadm⟩
  · rintro ⟨r, hr, hadm⟩
    obtain ⟨i, rfl⟩ := exists_encode_of_admits hr hadm
    exact ⟨(encode i).ops, i, decodingAnEncodedStimulusGivesItBack i⟩
  · obtain ⟨r, hr, hmn, hadm⟩ := row_of_decode h
    exact ⟨r, hr, hadm, hmn⟩

/-- Settles O4: each word is decoded by evaluation. -/
theorem wordsOfTheTableDecodeToTheirStimuli : Obligations.WordsOfTheTableDecodeToTheirStimuli := by
  unfold Obligations.WordsOfTheTableDecodeToTheirStimuli
  and_intros <;> rfl

end Sys2Proof
end

section
/-! What a completed stimulus can do, said once: every next state of `exec`, written out with the tests it
passed. The invariants and the rules of the whole machine are read off this relation. -/

namespace Sys2Proof.Machine

/-- The tests `TX.START` makes before it takes a text (42_serial_tx.md R74, 40_energy_arbiter.md R61). -/
structure State.TakesText (s : State) (p : List Byte) : Prop where
  idle : s.tx.busy = false
  fits : p.length + 1 ≤ s.cfg.txBufSize
  nonzero : NoZeroByte p
  depth : s.cfg.txBlockDepth < s.cfg.nDepths
  opened : s.em.opened = true
  below : s.countAt s.cfg.txBlockDepth + 1 < s.cfg.emCeiling

/-- Taking a frame off the ring leaves the transmitter's and the arbiter's units alone. -/
theorem State.TakesText.takeFrame {s : State} {p q : List Byte} {c : Nat} (h : s.TakesText p) :
    (takeFrame q c s).TakesText p :=
  ⟨h.idle, h.fits, h.nonzero, h.depth, h.opened, h.below⟩

/-- The state a taken text leaves (R74). -/
def State.transmitStarted (p : List Byte) (s : State) : State :=
  { s.setCount s.cfg.txBlockDepth (s.countAt s.cfg.txBlockDepth + 1) with
    tx := { s.tx with
      buf := Memory.writeList 0 p s.tx.buf, len := p.length, idx := 0, state := .sendChar,
      busy := true, txblIen := true } }

theorem startTransmit_next_iff {p : List Byte} {s t : State} :
    startTransmit p s = .next t ↔ s.TakesText p ∧ t = s.transmitStarted p := by
  rw [startTransmit_eq_next]
  constructor
  · rintro ⟨hb, hfit, hz, u, hu, rfl⟩
    obtain ⟨hd, ho, hc, rfl⟩ := blockDepth_eq_next.1 hu
    exact ⟨⟨hb, hfit, hz, hd, ho, hc⟩, rfl⟩
  · rintro ⟨⟨hb, hfit, hz, hd, ho, hc⟩, rfl⟩
    exact ⟨hb, hfit, hz, _, blockDepth_eq_next.2 ⟨hd, ho, hc, rfl⟩, rfl⟩

/-- `Completes s i t`: the stimulus `i`, issued in `s`, passes its tests and answers the next state `t`.
One constructor for each way a stimulus can go on; the receive events have one for the event and for the
line byte that is it (43_serial_rx.md R81). -/
inductive Completes (s : State) : Instr → State → Prop
  | emOpen (hm : s.MainReady) : Completes s .emOpen s.emOpened
  | emBlock {d : Byte} (hm : s.MainReady) (hd : d.toNat < s.cfg.nDepths) (ho : s.em.opened = true)
      (hc : s.countAt d.toNat + 1 < s.cfg.emCeiling) :
      Completes s (.emBlock d) (s.setCount d.toNat (s.countAt d.toNat + 1))
  | emUnblock {d : Byte} (hm : s.MainReady) (hd : d.toNat < s.cfg.nDepths)
      (ho : s.em.opened = true) (hc : 1 ≤ s.countAt d.toNat) :
      Completes s (.emUnblock d) (s.setCount d.toNat (s.countAt d.toNat - 1))
  | emFloor (hm : s.MainReady) (ho : s.em.opened = true) :
      Completes s .emFloor (s.setRet (.depth s.floor))
  | emSleep (hm : s.MainReady) (ho : s.em.opened = true) :
      Completes s .emSleep { s with pwrDepth := s.sleepTarget }
  | rbInit (hm : s.MainReady) : Completes s .rbInit s.rbInitialised
  | rbSpace (hm : s.MainReady) (hr : s.rb.ready = true) :
      Completes s .rbSpace (s.setRet (.space s.rb.space))
  | rbPush {p : List Byte} {buf : Memory} {c : Nat} (hm : s.MainReady) (hz : NoZeroByte p)
      (hr : s.rb.ready = true) (hsp : p.length + 1 ≤ s.rb.space)
      (hw : ringWrite s.cfg.capacity s.rb.mask (frameBytes p) s.rb.buf s.rb.wr = some (buf, c)) :
      Completes s (.rbPush p) { s with rb := { s.rb with buf := buf, wr := c } }
  | rbPopEmpty {b : Bool} (hm : s.MainReady) (hr : s.rb.ready = true) (he : s.rb.wr = s.rb.rd) :
      Completes s (.rbPop b) (s.setRet (.popped .empty))
  | rbPopNotReady {b : Bool} (hm : s.MainReady) (hr : s.rb.ready = true) (he : s.rb.wr ≠ s.rb.rd)
      (hb : s.tx.busy = true) : Completes s (.rbPop b) (s.setRet (.popped .notReady))
  | rbPopToSlot {p : List Byte} {c : Nat} (hm : s.MainReady) (hr : s.rb.ready = true)
      (he : s.rb.wr ≠ s.rb.rd) (hb : s.tx.busy = false) (hf : headFrame s = .ok (p, c)) :
      Completes s (.rbPop true)
        ((copyToTestSlot p (takeFrame p c s)).setRet (.popped .consumed))
  | rbPopToTx {p : List Byte} {c : Nat} (hm : s.MainReady) (hr : s.rb.ready = true)
      (he : s.rb.wr ≠ s.rb.rd) (hf : headFrame s = .ok (p, c)) (ht : s.TakesText p) :
      Completes s (.rbPop false)
        (((takeFrame p c s).transmitStarted p).setRet (.popped .consumed))
  | txStart {p : List Byte} (hm : s.MainReady) (ht : s.TakesText p) :
      Completes s (.txStart p) (s.transmitStarted p)
  | txBusy (hm : s.MainReady) : Completes s .txBusy (s.setRet (.busy s.tx.busy))
  | txblByte {b : Byte} (ha : s.agent = .serial) (hs : s.tx.state = .sendChar)
      (hi : s.tx.idx < s.tx.len) (hl : s.tx.idx + 1 ≠ s.tx.len)
      (hb : Memory.read s.tx.buf s.tx.idx = some b) :
      Completes s .txTxbl { s with
        agent := .main, pwrDepth := 0, txLine := s.txLine ++ [b],
        tx := { s.tx with idx := s.tx.idx + 1 } }
  | txblLastByte {b : Byte} (ha : s.agent = .serial) (hs : s.tx.state = .sendChar)
      (hl : s.tx.idx + 1 = s.tx.len) (hb : Memory.read s.tx.buf s.tx.idx = some b) :
      Completes s .txTxbl { s with
        agent := .main, pwrDepth := 0, txLine := s.txLine ++ [b],
        tx := { s.tx with
          idx := s.tx.idx + 1, txblIen := false, txcIen := true, state := .waitTxc } }
  | txblAtEnd (ha : s.agent = .serial) (hs : s.tx.state = .sendChar) (hl : s.tx.idx = s.tx.len) :
      Completes s .txTxbl { s with
        agent := .main, pwrDepth := 0,
        tx := { s.tx with txblIen := false, txcIen := true, state := .waitTxc } }
  | txblPastEnd (ha : s.agent = .serial) (hs : s.tx.state = .sendChar) (hl : s.tx.len < s.tx.idx) :
      Completes s .txTxbl { s with agent := .main, pwrDepth := 0 }
  | txTxc (ha : s.agent = .serial) (hs : s.tx.state = .waitTxc)
      (hd : s.cfg.txBlockDepth < s.cfg.nDepths) (ho : s.em.opened = true)
      (hc : 1 ≤ s.countAt s.cfg.txBlockDepth) (hev : s.ev.opened = true) :
      Completes s .txTxc
        { (s.wake.returnToMain).setCount s.cfg.txBlockDepth
            (s.countAt s.cfg.txBlockDepth - 1) with
          tx := { s.tx with busy := false, txcIen := false, state := .finish }
          ev := { s.ev with mask := eventsAdd s.ev.mask s.cfg.evtTxDone } }
  | rxOpen (hm : s.MainReady) : Completes s .rxOpen { s with rx := { s.rx with
      startByte := s.cfg.rxStartByte, sigByte := s.cfg.rxSigByte, block := true, idx := 0,
      state := .idle } }
  | rxStartf {i : Instr} (hi : i = .rxStartf ∨ i = .rxLine s.rx.startByte)
      (ha : s.agent = .serial) (hs : s.rx.state ≠ .init) (hb : s.rx.block = true)
      (hx : 0 < s.cfg.rxBufSize) :
      Completes s i { s with agent := .main, pwrDepth := 0, rx := { s.rx with
        block := false, buf := Memory.write 0 s.rx.startByte s.rx.buf, idx := 1,
        state := .started } }
  | rxRxdatav {i : Instr} {b : Byte}
      (hi : i = .rxRxdatav b ∨ (i = .rxLine b ∧ b ≠ s.rx.sigByte ∧ b ≠ s.rx.startByte))
      (ha : s.agent = .serial) (hs : s.rx.state ≠ .init) (hb : s.rx.block = false)
      (hx : s.rx.idx + 2 ≤ s.cfg.rxBufSize) :
      Completes s i { s with agent := .main, pwrDepth := 0, rx := { s.rx with
        buf := Memory.write s.rx.idx b s.rx.buf, idx := s.rx.idx + 1, state := .receiving } }
  | rxSigf {i : Instr} (hi : i = .rxSigf ∨ i = .rxLine s.rx.sigByte) (ha : s.agent = .serial)
      (hs : s.rx.state ≠ .init) (hb : s.rx.block = false) (hx : s.rx.idx < s.cfg.rxBufSize)
      (hev : s.ev.opened = true) :
      Completes s i { s with
        agent := .main, pwrDepth := 0,
        ev := { s.ev with mask := eventsAdd s.ev.mask s.cfg.evtRxDone }
        rx := { s.rx with
          block := true, buf := Memory.write s.rx.idx 0 s.rx.buf, idx := 0, state := .finished } }
  | rxDropped {b : Byte} (ha : s.agent = .serial) (hs : s.rx.state ≠ .init)
      (hb : s.rx.block = true) (hne : b ≠ s.rx.startByte) :
      Completes s (.rxLine b) s.returnToMain
  | twStart {addr : Nat} {cmd : Byte} (hm : s.MainReady) (haddr : addr ≤ 0x7F)
      (hb : s.tw.busBusy = false) (hd : s.cfg.twBlockDepth < s.cfg.nDepths)
      (ho : s.em.opened = true) (hc : s.countAt s.cfg.twBlockDepth + 1 < s.cfg.emCeiling) :
      Completes s (.twStart addr cmd true 2)
        { s.setCount s.cfg.twBlockDepth (s.countAt s.cfg.twBlockDepth + 1) with
          tw := { s.tw with
            addr := BitVec.ofNat 7 addr, cmd := cmd, isRead := true, nbytes := 2, busBusy := true,
            state := .sendMeasure }
          twOut := s.twOut ++ [.start, .tx (addressByte (BitVec.ofNat 7 addr) false)] }
  | twAckMeasure (ha : s.agent = .twoWire) (hs : s.tw.state = .sendMeasure) :
      Completes s .twAck (((s.wake.returnToMain).emitBus [.tx s.tw.cmd]).twGoto .sendRead)
  | twAckRead (ha : s.agent = .twoWire) (hs : s.tw.state = .sendRead) :
      Completes s .twAck (((s.wake.returnToMain).emitBus (readAddress s)).twGoto .wack3)
  | twAckWait (ha : s.agent = .twoWire) (hs : s.tw.state = .wack3) :
      Completes s .twAck ((s.wake.returnToMain).twGoto .getMsb)
  | twNack (ha : s.agent = .twoWire) (hs : s.tw.state = .wack3) :
      Completes s .twNack (((s.wake.returnToMain).emitBus (readAddress s)).twGoto .wack3)
  | twDataHigh {b : Byte} (ha : s.agent = .twoWire) (hs : s.tw.state = .getMsb) :
      Completes s (.twRxdatav b)
        ((((s.wake.returnToMain).setResult (resultMsb b)).emitBus [.ackCmd]).twGoto .getLsbStop)
  | twDataLow {b : Byte} (ha : s.agent = .twoWire) (hs : s.tw.state = .getLsbStop) :
      Completes s (.twRxdatav b)
        ((((s.wake.returnToMain).setResult (resultLsb s.tw.result b)).emitBus
          [.nackCmd, .stopCmd]).twGoto .endState)
  | twMstop (ha : s.agent = .twoWire) (hs : s.tw.state = .endState)
      (hd : s.cfg.twBlockDepth < s.cfg.nDepths) (ho : s.em.opened = true)
      (hc : 1 ≤ s.countAt s.cfg.twBlockDepth) (hev : s.ev.opened = true) :
      Completes s .twMstop
        { (s.wake.returnToMain).setCount s.cfg.twBlockDepth
            (s.countAt s.cfg.twBlockDepth - 1) with
          tw := { s.tw with busBusy := false }
          ev := { s.ev with mask := eventsAdd s.ev.mask s.cfg.evtTwDone } }
  | schOpen (hm : s.MainReady) : Completes s .schOpen { s with ev := { mask := 0, opened := true } }
  | schAdd {m : EventMask} (ha : s.MainReady ∨ s.agent = .timer) (hev : s.ev.opened = true) :
      Completes s (.schAdd m) { s with
        agent := .main, pwrDepth := 0, ev := { s.ev with mask := eventsAdd s.ev.mask m } }
  | schRemove {m : EventMask} (hm : s.MainReady) (hev : s.ev.opened = true) :
      Completes s (.schRemove m)
        { s with ev := { s.ev with mask := eventsRemove s.ev.mask m } }
  | schGet (hm : s.MainReady) (hev : s.ev.opened = true) :
      Completes s .schGet (s.setRet (.events s.ev.mask))

variable {s t : State} {i : Instr}

/-! The composite stimuli, one lemma each. -/

theorem completes_of_rbPop {b : Bool} (h : exec (.rbPop b) s = .next t) :
    Completes s (.rbPop b) t := by
  obtain ⟨hm, hr, ⟨he, rfl⟩ | ⟨he, hb, rfl⟩ | ⟨he, hb, p, c, hf, hbranch⟩⟩ := exec_rbPop_next.1 h
  · exact .rbPopEmpty hm hr he
  · exact .rbPopNotReady hm hr he hb
  · obtain ⟨rfl, rfl⟩ | ⟨rfl, u, hu, rfl⟩ := hbranch
    · exact .rbPopToSlot hm hr he hb hf
    · obtain ⟨ht, rfl⟩ := startTransmit_next_iff.1 hu
      exact .rbPopToTx hm hr he hf ⟨ht.idle, ht.fits, ht.nonzero, ht.depth, ht.opened, ht.below⟩

theorem completes_of_txTxbl (h : exec .txTxbl s = .next t) : Completes s .txTxbl t := by
  obtain ⟨ha, hs, ⟨hi, b, hb, rfl⟩ | ⟨hi, rfl⟩⟩ := exec_txTxbl_cases.1 h
  · by_cases hl : s.tx.idx + 1 = s.tx.len
    · rw [if_pos hl]; exact .txblLastByte ha hs hl hb
    · rw [if_neg hl]; exact .txblByte ha hs hi hl hb
  · by_cases hl : s.tx.idx = s.tx.len
    · rw [if_pos hl]; exact .txblAtEnd ha hs hl
    · rw [if_neg hl]; exact .txblPastEnd ha hs (by omega)

theorem completes_of_rxStartf (h : exec .rxStartf s = .next t)
    (hi : i = .rxStartf ∨ i = .rxLine s.rx.startByte) : Completes s i t := by
  obtain ⟨ha, u, hu, rfl⟩ := exec_rxStartf_next.1 h
  obtain ⟨hs, hb, hx, rfl⟩ := receiveStart_eq_next.1 hu
  exact .rxStartf hi ha hs hb hx

theorem completes_of_rxRxdatav {b : Byte} (h : exec (.rxRxdatav b) s = .next t)
    (hi : i = .rxRxdatav b ∨ (i = .rxLine b ∧ b ≠ s.rx.sigByte ∧ b ≠ s.rx.startByte)) :
    Completes s i t := by
  obtain ⟨ha, u, hu, rfl⟩ := exec_rxRxdatav_next.1 h
  obtain ⟨hs, hb, hx, rfl⟩ := receiveByte_eq_next.1 hu
  exact .rxRxdatav hi ha hs hb hx

theorem completes_of_rxSigf (h : exec .rxSigf s = .next t)
    (hi : i = .rxSigf ∨ i = .rxLine s.rx.sigByte) : Completes s i t := by
  obtain ⟨ha, u, hu, rfl⟩ := exec_rxSigf_next.1 h
  obtain ⟨hs, hb, hx, hev, rfl⟩ := receiveSignal_eq_next.1 hu
  exact .rxSigf hi ha hs hb hx hev

theorem completes_of_rxLine {b : Byte} (h : exec (.rxLine b) s = .next t) :
    Completes s (.rxLine b) t := by
  obtain ⟨ha, hs, ⟨hb, hne, rfl⟩ | ⟨_, rfl, hx⟩ | ⟨_, rfl, hx⟩ | ⟨_, hsig, hst, hx⟩⟩ :=
    exec_rxLine_next.1 h
  · exact .rxDropped ha hs hb hne
  · exact completes_of_rxStartf hx (.inr rfl)
  · exact completes_of_rxSigf hx (.inr rfl)
  · exact completes_of_rxRxdatav hx (.inr ⟨rfl, hsig, hst⟩)

/-- All that a stimulus which answers a next state can do. -/
theorem completes_of_exec (h : exec i s = .next t) : Completes s i t := by
  cases i with
  | emOpen => obtain ⟨hm, rfl⟩ := exec_emOpen_next.1 h; exact .emOpen hm
  | emBlock d =>
    obtain ⟨hm, hb⟩ := exec_emBlock_next.1 h
    obtain ⟨hd, ho, hc, rfl⟩ := blockDepth_eq_next.1 hb
    exact .emBlock hm hd ho hc
  | emUnblock d =>
    obtain ⟨hm, hb⟩ := exec_emUnblock_next.1 h
    obtain ⟨hd, ho, hc, rfl⟩ := unblockDepth_eq_next.1 hb
    exact .emUnblock hm hd ho hc
  | emFloor => obtain ⟨hm, ho, rfl⟩ := exec_emFloor_next.1 h; exact .emFloor hm ho
  | emSleep => obtain ⟨hm, ho, rfl⟩ := exec_emSleep_next.1 h; exact .emSleep hm ho
  | rbInit => obtain ⟨hm, rfl⟩ := exec_rbInit_next.1 h; exact .rbInit hm
  | rbSpace => obtain ⟨hm, hr, rfl⟩ := exec_rbSpace_next.1 h; exact .rbSpace hm hr
  | rbPush p =>
    obtain ⟨hm, hz, hr, hsp, buf, c, hw, rfl⟩ := exec_rbPush_next.1 h
    exact .rbPush hm hz hr hsp hw
  | rbPop b => exact completes_of_rbPop h
  | txStart p =>
    obtain ⟨hm, hu⟩ := exec_txStart_next.1 h
    obtain ⟨ht, rfl⟩ := startTransmit_next_iff.1 hu
    exact .txStart hm ht
  | txBusy => obtain ⟨hm, rfl⟩ := exec_txBusy_next.1 h; exact .txBusy hm
  | txTxbl => exact completes_of_txTxbl h
  | txTxc =>
    obtain ⟨ha, hs, hd, ho, hc, hev, rfl⟩ := exec_txTxc_next.1 h
    exact .txTxc ha hs hd ho hc hev
  | rxOpen => obtain ⟨hm, rfl⟩ := exec_rxOpen_next.1 h; exact .rxOpen hm
  | rxLine b => exact completes_of_rxLine h
  | rxStartf => exact completes_of_rxStartf h (.inl rfl)
  | rxRxdatav b => exact completes_of_rxRxdatav h (.inl rfl)
  | rxSigf => exact completes_of_rxSigf h (.inl rfl)
  | twStart addr cmd rd n =>
    obtain ⟨hm, haddr, rfl, rfl, hb, hd, ho, hc, rfl⟩ := exec_twStart_next.1 h
    exact .twStart hm haddr hb hd ho hc
  | twAck =>
    obtain ⟨ha, ⟨hs, rfl⟩ | ⟨hs, rfl⟩ | ⟨hs, rfl⟩⟩ := exec_twAck_next.1 h
    · exact .twAckMeasure ha hs
    · exact .twAckRead ha hs
    · exact .twAckWait ha hs
  | twNack => obtain ⟨ha, hs, rfl⟩ := exec_twNack_next.1 h; exact .twNack ha hs
  | twRxdatav b =>
    obtain ⟨ha, ⟨hs, rfl⟩ | ⟨hs, rfl⟩⟩ := exec_twRxdatav_next.1 h
    · exact .twDataHigh ha hs
    · exact .twDataLow ha hs
  | twMstop =>
    obtain ⟨ha, hs, hd, ho, hc, hev, rfl⟩ := exec_twMstop_next.1 h
    exact .twMstop ha hs hd ho hc hev
  | schOpen => obtain ⟨hm, rfl⟩ := exec_schOpen_next.1 h; exact .schOpen hm
  | schAdd m => obtain ⟨ha, hev, rfl⟩ := exec_schAdd_next.1 h; exact .schAdd ha hev
  | schRemove m => obtain ⟨hm, hev, rfl⟩ := exec_schRemove_next.1 h; exact .schRemove hm hev
  | schGet => obtain ⟨hm, hev, rfl⟩ := exec_schGet_next.1 h; exact .schGet hm hev

/-- Every listed way of going on is one: the relation is exactly the next states of `exec`. -/
theorem exec_of_completes (h : Completes s i t) : exec i s = .next t := by
  cases h with
  | emOpen hm => exact exec_emOpen_next.2 ⟨hm, rfl⟩
  | emBlock hm hd ho hc =>
    exact exec_emBlock_next.2 ⟨hm, blockDepth_eq_next.2 ⟨hd, ho, hc, rfl⟩⟩
  | emUnblock hm hd ho hc =>
    exact exec_emUnblock_next.2 ⟨hm, unblockDepth_eq_next.2 ⟨hd, ho, hc, rfl⟩⟩
  | emFloor hm ho => exact exec_emFloor_next.2 ⟨hm, ho, rfl⟩
  | emSleep hm ho => exact exec_emSleep_next.2 ⟨hm, ho, rfl⟩
  | rbInit hm => exact exec_rbInit_next.2 ⟨hm, rfl⟩
  | rbSpace hm hr => exact exec_rbSpace_next.2 ⟨hm, hr, rfl⟩
  | rbPush hm hz hr hsp hw => exact exec_rbPush_next.2 ⟨hm, hz, hr, hsp, _, _, hw, rfl⟩
  | rbPopEmpty hm hr he => exact exec_rbPop_next.2 ⟨hm, hr, .inl ⟨he, rfl⟩⟩
  | rbPopNotReady hm hr he hb => exact exec_rbPop_next.2 ⟨hm, hr, .inr (.inl ⟨he, hb, rfl⟩)⟩
  | rbPopToSlot hm hr he hb hf =>
    exact exec_rbPop_next.2 ⟨hm, hr, .inr (.inr ⟨he, hb, _, _, hf, .inl ⟨rfl, rfl⟩⟩)⟩
  | @rbPopToTx p c hm hr he hf ht =>
    have hstart : startTransmit p (takeFrame p c s) = .next ((takeFrame p c s).transmitStarted p) :=
      startTransmit_next_iff.2 ⟨ht.takeFrame, rfl⟩
    exact exec_rbPop_next.2
      ⟨hm, hr, .inr (.inr ⟨he, ht.idle, _, _, hf, .inr ⟨rfl, _, hstart, rfl⟩⟩)⟩
  | txStart hm ht => exact exec_txStart_next.2 ⟨hm, startTransmit_next_iff.2 ⟨ht, rfl⟩⟩
  | txBusy hm => exact exec_txBusy_next.2 ⟨hm, rfl⟩
  | txblByte ha hs hi hl hb =>
    exact exec_txTxbl_cases.2 ⟨ha, hs, .inl ⟨hi, _, hb, by rw [if_neg hl]⟩⟩
  | txblLastByte ha hs hl hb =>
    exact exec_txTxbl_cases.2 ⟨ha, hs, .inl ⟨by omega, _, hb, by rw [if_pos hl]⟩⟩
  | txblAtEnd ha hs hl => exact exec_txTxbl_cases.2 ⟨ha, hs, .inr ⟨hl.ge, by rw [if_pos hl]⟩⟩
  | txblPastEnd ha hs hl =>
    exact exec_txTxbl_cases.2 ⟨ha, hs, .inr ⟨hl.le, by rw [if_neg hl.ne']⟩⟩
  | txTxc ha hs hd ho hc hev => exact exec_txTxc_next.2 ⟨ha, hs, hd, ho, hc, hev, rfl⟩
  | rxOpen hm => exact exec_rxOpen_next.2 ⟨hm, rfl⟩
  | rxStartf hi ha hs hb hx =>
    have hx := exec_rxStartf_next.2 ⟨ha, _, receiveStart_eq_next.2 ⟨hs, hb, hx, rfl⟩, rfl⟩
    obtain rfl | rfl := hi
    · exact hx
    · exact exec_rxLine_next.2 ⟨ha, hs, .inr (.inl ⟨hb, rfl, hx⟩)⟩
  | @rxRxdatav _ b hi ha hs hb hx =>
    have hx := (exec_rxRxdatav_next (b := b)).2 ⟨ha, _, receiveByte_eq_next.2 ⟨hs, hb, hx, rfl⟩, rfl⟩
    obtain rfl | ⟨rfl, hsig, hst⟩ := hi
    · exact hx
    · exact exec_rxLine_next.2 ⟨ha, hs, .inr (.inr (.inr ⟨hb, hsig, hst, hx⟩))⟩
  | rxSigf hi ha hs hb hx hev =>
    have hx := exec_rxSigf_next.2 ⟨ha, _, receiveSignal_eq_next.2 ⟨hs, hb, hx, hev, rfl⟩, rfl⟩
    obtain rfl | rfl := hi
    · exact hx
    · exact exec_rxLine_next.2 ⟨ha, hs, .inr (.inr (.inl ⟨hb, rfl, hx⟩))⟩
  | rxDropped ha hs hb hne => exact exec_rxLine_next.2 ⟨ha, hs, .inl ⟨hb, hne, rfl⟩⟩
  | twStart hm haddr hb hd ho hc =>
    exact exec_twStart_next.2 ⟨hm, haddr, rfl, rfl, hb, hd, ho, hc, rfl⟩
  | twAckMeasure ha hs => exact exec_twAck_next.2 ⟨ha, .inl ⟨hs, rfl⟩⟩
  | twAckRead ha hs => exact exec_twAck_next.2 ⟨ha, .inr (.inl ⟨hs, rfl⟩)⟩
  | twAckWait ha hs => exact exec_twAck_next.2 ⟨ha, .inr (.inr ⟨hs, rfl⟩)⟩
  | twNack ha hs => exact exec_twNack_next.2 ⟨ha, hs, rfl⟩
  | twDataHigh ha hs => exact exec_twRxdatav_next.2 ⟨ha, .inl ⟨hs, rfl⟩⟩
  | twDataLow ha hs => exact exec_twRxdatav_next.2 ⟨ha, .inr ⟨hs, rfl⟩⟩
  | twMstop ha hs hd ho hc hev => exact exec_twMstop_next.2 ⟨ha, hs, hd, ho, hc, hev, rfl⟩
  | schOpen hm => exact exec_schOpen_next.2 ⟨hm, rfl⟩
  | schAdd ha hev => exact exec_schAdd_next.2 ⟨ha, hev, rfl⟩
  | schRemove hm hev => exact exec_schRemove_next.2 ⟨hm, hev, rfl⟩
  | schGet hm hev => exact exec_schGet_next.2 ⟨hm, hev, rfl⟩

/-- The processor is awake after every completed stimulus but a sleep and a dropped byte
(40_energy_arbiter.md R64, R65). -/
theorem completes_pwrDepth (h : Completes s i t) :
    t.pwrDepth = 0
    ∨ (s.agent = .main ∧ i = .emSleep ∧ t = { s with pwrDepth := s.sleepTarget })
    ∨ ∃ b, i = .rxLine b ∧ s.rx.block = true ∧ b ≠ s.rx.startByte ∧ t = s.returnToMain := by
  cases h with
  | emSleep hm => exact .inr (.inl ⟨hm.1, rfl, rfl⟩)
  | rxDropped _ _ hb hne => exact .inr (.inr ⟨_, rfl, hb, hne, rfl⟩)
  | txblByte | txblLastByte | txblAtEnd | txblPastEnd | txTxc | rxStartf | rxRxdatav | rxSigf
  | twAckMeasure | twAckRead | twAckWait | twNack | twDataHigh | twDataLow | twMstop | schAdd =>
    exact .inl rfl
  | _ hm => exact .inl hm.2

/-- Every completed stimulus ends in the main context (60_exceptions.md R116). -/
theorem completes_agent (h : Completes s i t) : t.agent = .main := by
  cases h with
  | txblByte | txblLastByte | txblAtEnd | txblPastEnd | txTxc | rxStartf | rxRxdatav | rxSigf
  | rxDropped | twAckMeasure | twAckRead | twAckWait | twNack | twDataHigh | twDataLow | twMstop
  | schAdd => rfl
  | _ hm => exact hm.1

/-- No stimulus writes the configuration, the rest of the script or the marks. -/
theorem completes_frame (h : Completes s i t) :
    t.cfg = s.cfg ∧ t.script = s.script ∧ t.sys = s.sys := by
  cases h with
  | _ => exact ⟨rfl, rfl, rfl⟩

/-! ## Who has a step (30_encoding.md R46, 40_energy_arbiter.md R65) -/

theorem asMain_foreign (h : s.agent ≠ .main) (k : State → Result) :
    asMain s k = .refused .wrongAgent := if_pos h

theorem asMain_asleep (ha : s.agent = .main) (hp : 0 < s.pwrDepth) (k : State → Result) :
    asMain s k = .refused .mainAsleep := by
  unfold asMain
  rw [if_neg (not_not.2 ha), if_pos hp.ne']

theorem asMainRing_foreign (h : s.agent ≠ .main) (k : State → Result) :
    asMainRing s k = .refused .rbFromIsr := if_pos h

theorem asMainRing_asleep (ha : s.agent = .main) (hp : 0 < s.pwrDepth) (k : State → Result) :
    asMainRing s k = .refused .mainAsleep :=
  (if_neg (not_not.2 ha)).trans (asMain_asleep ha hp k)

theorem asEvent_foreign {a : Agent} (h : s.agent ≠ a) (k : State → Result) :
    asEvent a s k = .refused .wrongAgent := if_pos h

/-- An event whose rule faults faults. -/
theorem asEvent_fault {a : Agent} {k : State → Result} {c : Fault} (ha : s.agent = a)
    (hk : k s = .fault c) : asEvent a s k = .fault c :=
  asEvent_eq_fault.2 ⟨ha, hk⟩

/-- An event whose rule is refused is refused. -/
theorem asEvent_refused {a : Agent} {k : State → Result} {c : Refusal} (ha : s.agent = a)
    (hk : k s = .refused c) : asEvent a s k = .refused c := by
  rw [asEvent_ready ha, hk, andThen_refused]

/-! ## Steps -/

/-- Only a valid configuration steps on (00_scope.md R7, log 3). -/
theorem valid_of_step (h : step s = .next t) : s.cfg.Valid := by
  by_contra hv
  have hstop : s.stopped = some (.refused .configInvalid) := by
    simp only [State.stopped]
    rw [if_pos hv]
  simp [step, hstop] at h

/-- An invariant that neither the script nor the context enters is kept by every step if every completed
stimulus keeps it. -/
theorem step_keeps {P : State → Prop} (hline : ∀ s rest a, P s → P { s with script := rest, agent := a })
    (hexec : ∀ s i t, s.cfg.Valid → P s → Completes s i t → P t) (hs : P s)
    (h : step s = .next t) : P t := by
  have hv := valid_of_step h
  obtain ⟨-, rfl⟩ | ⟨line, rest, i, -, -, hx⟩ := step_eq_next h
  · exact hs
  · refine hexec _ i t ?_ (hline s rest line.agent hs) (completes_of_exec hx)
    exact hv

end Sys2Proof.Machine
end

section
/-! The ring buffer's frames: proofs of the statements about `RB.PUSH` (41_ring_buffer.md R70), `RB.POP`
(R71) and the ring invariant (R72, R73). -/

namespace Sys2Proof.Machine

/-- An initialised ring `u` of the configured size `2 ^ k` in which exactly the strings `ps` are pending:
the ring invariant with its two existentials named. -/
structure RbUnit.Holds (u : RbUnit) (c : Config) (k : Nat) (ps : List (List Byte)) : Prop where
  size : c.capacity = 2 ^ k
  le_eight : k ≤ 8
  capacity : u.capacity = 2 ^ k
  mask : u.mask = 2 ^ k - 1
  wr_lt : u.wr < 2 ^ k
  rd_lt : u.rd < 2 ^ k
  frames : u.frames = some ps
  nonzero : ∀ p ∈ ps, NoZeroByte p

theorem all_noZeroByte_iff {ps : List (List Byte)} :
    (ps.all fun p => !p.contains 0) = true ↔ ∀ p ∈ ps, NoZeroByte p := by
  have hone : ∀ p : List Byte, (!p.contains 0) = true ↔ NoZeroByte p := fun p => by
    rw [Bool.not_eq_true', ← Bool.not_eq_true, contains_zero_iff, not_not]
  simp only [List.all_eq_true, hone]

/-- What the ring invariant says of an initialised ring. -/
theorem exists_holds {s : State} (hv : s.cfg.Valid) (hr : s.rb.ready = true) (hinv : s.RingInv) :
    ∃ k ps, s.rb.Holds s.cfg k ps := by
  obtain ⟨k, -, hk, hsize⟩ := capacity_pow hv
  obtain ⟨hcap, hmask, hwr, hrd, hframes⟩ := hinv hr
  rw [hsize] at hcap hmask hwr hrd
  obtain ⟨ps, hps, hall⟩ := (Option.any_eq_true _ _).1 hframes
  exact ⟨k, ps, hsize, hk, hcap, hmask, hwr, hrd, hps, all_noZeroByte_iff.1 hall⟩

/-- The same with the pending strings given. -/
theorem holds_of_frames {s : State} {ps : List (List Byte)} (hv : s.cfg.Valid)
    (hr : s.rb.ready = true) (hinv : s.RingInv) (hf : s.rb.frames = some ps) :
    ∃ k, s.rb.Holds s.cfg k ps := by
  obtain ⟨k, qs, h⟩ := exists_holds hv hr hinv
  obtain rfl : qs = ps := Option.some.inj (h.frames.symm.trans hf)
  exact ⟨k, h⟩

namespace RbUnit.Holds

variable {u : RbUnit} {c : Config} {k : Nat} {p : List Byte} {ps : List (List Byte)}

/-- A ring that holds strings meets the ring invariant. -/
theorem ringInv {s : State} (h : s.rb.Holds s.cfg k ps) : s.RingInv := by
  intro _
  rw [h.size, h.frames]
  exact ⟨h.capacity, h.mask, h.wr_lt, h.rd_lt, all_noZeroByte_iff.2 h.nonzero⟩

theorem size_le (h : u.Holds c k ps) : 2 ^ k ≤ 256 :=
  Nat.pow_le_pow_right (n := 2) (by decide) h.le_eight

/-- The used bytes are those of the frames (R72). -/
theorem used_eq (h : u.Holds c k ps) : u.used = (ps.map fun p => p.length + 1).sum := by
  obtain ⟨hlive, -⟩ := frames_eq_some.1 h.frames
  obtain ⟨hlen, -⟩ := (live_eq_some h.mask h.rd_lt).1 hlive
  rw [← hlen, List.length_flatten, List.map_map]
  rfl

theorem used_lt (h : u.Holds c k ps) : u.used < 2 ^ k := by
  rw [RbUnit.used, h.mask]
  exact ringUsed_lt k u.wr u.rd

theorem space_eq (h : u.Holds c k ps) : u.space = 2 ^ k - u.used - 1 := by
  rw [RbUnit.space, h.capacity]

/-- The cursors meet exactly when nothing is pending. -/
theorem cursors_eq_iff (h : u.Holds c k ps) : u.wr = u.rd ↔ ps = [] := by
  constructor
  · intro he
    exact Option.some.inj (h.frames.symm.trans (frames_of_cursors_eq he))
  · rintro rfl
    have hwr := wr_eq h.wr_lt h.rd_lt
    rw [← h.mask, ← RbUnit.used, h.used_eq] at hwr
    exact hwr.symm.trans (Nat.mod_eq_of_lt h.rd_lt)

/-- A frame that the space admits is shorter than its header byte can count. -/
theorem length_lt (h : u.Holds c k ps) (hsp : p.length + 1 ≤ u.space) : p.length < 255 := by
  have := h.space_eq
  have := h.size_le
  omega

/-- The write of a frame that fits: its bytes at the write cursor, the others kept, and the string
pending after the others (R70, R72). -/
theorem push (h : u.Holds c k ps) (hz : NoZeroByte p) (hsp : p.length + 1 ≤ u.space) :
    ∃ buf, ringWrite c.capacity u.mask (frameBytes p) u.buf u.wr
        = some (buf, (u.wr + (p.length + 1)) % 2 ^ k)
      ∧ (∀ j < p.length + 1, Memory.read buf ((u.wr + j) % 2 ^ k) = (frameBytes p)[j]?)
      ∧ (∀ a, (∀ j < p.length + 1, a ≠ (u.wr + j) % 2 ^ k) →
          Memory.read buf a = Memory.read u.buf a)
      ∧ RbUnit.Holds { u with buf := buf, wr := (u.wr + (p.length + 1)) % 2 ^ k } c k (ps ++ [p])
      := by
  have hspace := h.space_eq
  have hlen := h.length_lt hsp
  have hfit : (frameBytes p).length ≤ 2 ^ k := by rw [frameBytes_length]; omega
  obtain ⟨buf, hw, hin, hout⟩ := ringWrite_eq_some (m := u.buf) h.size h.wr_lt hfit
  rw [frameBytes_length] at hw hin hout
  have hframes := frames_push h.mask h.wr_lt h.rd_lt (by omega) hlen h.frames hin hout
  refine ⟨buf, by rw [h.mask]; exact hw, hin, hout, h.size, h.le_eight, h.capacity, h.mask,
    Nat.mod_lt _ (Nat.two_pow_pos k), h.rd_lt, hframes, fun q hq => ?_⟩
  rcases List.mem_append.1 hq with hq | hq
  · exact h.nonzero q hq
  · rwa [List.mem_singleton.1 hq]

/-- Two rings whose cursors and sizes are equal use the same bytes; a push takes its frame off the
space. -/
theorem space_push {buf : Memory} (h : u.Holds c k ps) (hsp : p.length + 1 ≤ u.space)
    (hpush : RbUnit.Holds { u with buf := buf, wr := (u.wr + (p.length + 1)) % 2 ^ k } c k
      (ps ++ [p])) :
    RbUnit.space { u with buf := buf, wr := (u.wr + (p.length + 1)) % 2 ^ k } + (p.length + 1)
      = u.space := by
  have hnew := hpush.used_eq
  have hold := h.used_eq
  rw [List.map_append, List.sum_append, ← hold] at hnew
  simp only [List.map_cons, List.map_nil, List.sum_cons, List.sum_nil] at hnew
  have := h.space_eq
  have := hpush.space_eq
  omega

/-- The oldest string of a ring is the frame at its read cursor (R71). -/
theorem headFrame {s : State} (hv : s.cfg.Valid) (h : s.rb.Holds s.cfg k (p :: ps)) :
    headFrame s = .ok (p, (s.rb.rd + (p.length + 1)) % 2 ^ k) := by
  obtain ⟨hlen, hle, hread, hring⟩ := ringRead_head h.mask h.rd_lt h.frames
  have hhead := frameHeader_toNat hlen
  have hused := h.used_lt
  have hsize := h.size
  have hscratch := (valid_sizes hv).1
  refine headFrame_eq_ok.2
    ⟨frameHeader p, hread, frameHeader_ne_zero hlen, by omega, ?_⟩
  rw [hhead, Nat.add_sub_cancel]
  exact hring

/-- With the read cursor past the oldest frame the other strings are left. -/
theorem pop (h : u.Holds c k (p :: ps)) (scratch slot : Memory) :
    RbUnit.Holds { u with
      rd := (u.rd + (p.length + 1)) % 2 ^ k, scratch := scratch, testSlot := slot } c k ps :=
  ⟨h.size, h.le_eight, h.capacity, h.mask, h.wr_lt, Nat.mod_lt _ (Nat.two_pow_pos k),
    frames_pop h.mask h.rd_lt h.frames, fun q hq => h.nonzero q (List.mem_cons_of_mem p hq)⟩

/-- A pop of a ring that is not empty takes the oldest string off it. -/
theorem pop_headFrame {s : State} {c : Nat} {scratch slot : Memory} (hv : s.cfg.Valid)
    (h : s.rb.Holds s.cfg k ps) (hne : s.rb.wr ≠ s.rb.rd) (hf : Machine.headFrame s = .ok (p, c)) :
    RbUnit.Holds { s.rb with rd := c, scratch := scratch, testSlot := slot } s.cfg k ps.tail := by
  cases ps with
  | nil => exact absurd (h.cursors_eq_iff.2 rfl) hne
  | cons q qs =>
    obtain ⟨rfl, rfl⟩ := Prod.mk.inj (Except.ok.inj (hf.symm.trans (h.headFrame hv)))
    exact h.pop scratch slot

/-- Every pending string fits a buffer as large as the ring (decisions D4, D5). -/
theorem head_fits (h : u.Holds c k (p :: ps)) : p.length + 2 ≤ 2 ^ k := by
  have hused := h.used_eq
  have hlt := h.used_lt
  simp only [List.map_cons, List.sum_cons] at hused
  omega

end RbUnit.Holds

/-- Settles O24: the used bytes are those of the frames, and no bytes are used exactly when the cursors
meet. -/
theorem theRingHoldsExactlyItsFrames : Obligations.TheRingHoldsExactlyItsFrames := by
  intro s hv hr hinv
  obtain ⟨k, ps, h⟩ := exists_holds hv hr hinv
  have hwr := h.wr_lt
  have hrd := h.rd_lt
  have hused := h.used_lt
  rw [h.size]
  exact ⟨by omega, by omega, by omega, ps, h.frames, h.used_eq, h.cursors_eq_iff⟩

/-- Settles O18: a frame no longer than the space is written without a lap. -/
theorem rbPushWritesOneFrameAtTheWriteCursor :
    Obligations.RbPushWritesOneFrameAtTheWriteCursor := by
  intro s p hm hv hr hinv hz hsp
  obtain ⟨k, ps, h⟩ := exists_holds hv hr hinv
  obtain ⟨buf, hw, hin, hout, hpush⟩ := h.push hz hsp
  have hlen := h.length_lt hsp
  rw [h.size] at hw ⊢
  refine ⟨_, exec_rbPush_next.2 ⟨hm, hz, hr, hsp, buf, _, h.size ▸ hw, rfl⟩, ?_, by omega, ?_, ?_,
    rfl, h.space_push hsp hpush, rfl⟩
  · have hhead := hin 0 (by omega)
    rwa [Nat.add_zero, Nat.mod_eq_of_lt h.wr_lt] at hhead
  · intro j hj
    have hbyte := hin (j + 1) (by omega)
    rwa [← Nat.add_assoc, Nat.add_right_comm] at hbyte
  · exact fun a ha => hout a fun j hj => ha j (by omega)

/-- A completed push, its payload pending after the others. -/
theorem holds_of_rbPush {s : State} {k : Nat} {ps : List (List Byte)} {p : List Byte} {buf : Memory}
    {c : Nat} (h : s.rb.Holds s.cfg k ps) (hz : NoZeroByte p) (hsp : p.length + 1 ≤ s.rb.space)
    (hw : ringWrite s.cfg.capacity s.rb.mask (frameBytes p) s.rb.buf s.rb.wr = some (buf, c)) :
    RbUnit.Holds { s.rb with buf := buf, wr := c } s.cfg k (ps ++ [p]) := by
  obtain ⟨buf', hw', -, -, hpush⟩ := h.push hz hsp
  obtain ⟨rfl, rfl⟩ := Prod.mk.inj (Option.some.inj (hw.symm.trans hw'))
  exact hpush

/-- Settles O20. -/
theorem rbPushAppendsToTheFrames : Obligations.RbPushAppendsToTheFrames := by
  intro s t p ps hv hinv hf hx
  obtain ⟨-, hz, hr, hsp, buf, c, hw, rfl⟩ := exec_rbPush_next.1 hx
  obtain ⟨k, h⟩ := holds_of_frames hv hr hinv hf
  exact (holds_of_rbPush h hz hsp hw).frames

/-- A terminated string read back from the start of a buffer. -/
theorem read_terminated (p : List Byte) (m : Memory) {j : Nat} (hj : j ≤ p.length) :
    Memory.read (Memory.writeList 0 (p ++ [0]) m) j = (p ++ [0])[j]? := by
  rw [Memory.read_writeList, if_pos (by simp; omega), Nat.sub_zero]

theorem read_past_terminator (p : List Byte) (m : Memory) {j : Nat} (hj : p.length < j) :
    Memory.read (Memory.writeList 0 (p ++ [0]) m) j = Memory.read m j := by
  rw [Memory.read_writeList, if_neg (by simp; omega)]

/-- A string read back from the start of a buffer, and what lies past it. -/
theorem read_text (p : List Byte) (m : Memory) {j : Nat} (hj : j < p.length) :
    Memory.read (Memory.writeList 0 p m) j = p[j]? := by
  rw [Memory.read_writeList, if_pos (by omega), Nat.sub_zero]

theorem read_past_text (p : List Byte) (m : Memory) {j : Nat} (hj : p.length ≤ j) :
    Memory.read (Memory.writeList 0 p m) j = Memory.read m j := by
  rw [Memory.read_writeList, if_neg (by omega)]

/-- Settles O22: the pending string at the head is the frame at the read cursor. -/
theorem rbPopInTestModeTakesTheOldestFrame : Obligations.RbPopInTestModeTakesTheOldestFrame := by
  intro s p ps hm hv hr hinv hb hf
  obtain ⟨k, h⟩ := holds_of_frames hv hr hinv hf
  have hne : s.rb.wr ≠ s.rb.rd := fun he => absurd (h.cursors_eq_iff.1 he) (by simp)
  have hx := exec_of_completes (.rbPopToSlot hm hr hne hb (h.headFrame hv))
  refine ⟨_, hx, rfl, (h.pop _ _).frames, by rw [h.size]; rfl, ?_, ?_, rfl⟩
  · exact fun j hj => ⟨read_terminated p _ hj, read_terminated p _ hj⟩
  · exact fun j hj => ⟨read_past_terminator p _ hj, read_past_terminator p _ hj⟩

/-! ### Stops (41_ring_buffer.md R70, R71) -/

theorem exec_rbPush_zeroByte {s : State} {p : List Byte} (hm : s.MainReady) (hz : ¬ NoZeroByte p) :
    exec (.rbPush p) s = .refused .payloadHasZeroByte :=
  (asMainRing_ready hm _).trans (if_pos (contains_zero_iff.2 hz))

theorem exec_rbPush_overflow {s : State} {p : List Byte} (hm : s.MainReady) (hz : NoZeroByte p)
    (hr : s.rb.ready = true) (hsp : s.rb.space < p.length + 1) :
    exec (.rbPush p) s = .fault .rbOverflow := by
  refine (asMainRing_ready hm _).trans ?_
  rw [if_neg (mt contains_zero_iff.1 (not_not.2 hz)), if_neg (by simp [hr]), if_pos hsp]

/-- Settles O19: the space is never more than the capacity less the reserved byte. -/
theorem rbPushStopsOnAZeroByteOrWithoutRoom : Obligations.RbPushStopsOnAZeroByteOrWithoutRoom := by
  intro s p hm
  refine ⟨exec_rbPush_zeroByte hm, exec_rbPush_overflow hm, fun hz hr hv hcap hlen => ?_⟩
  have hspace : s.rb.space ≤ s.cfg.capacity - 1 := by rw [RbUnit.space, hcap]; omega
  have hbounds := capacity_bounds hv
  exact exec_rbPush_overflow hm hz hr (by omega)

theorem headFrame_unwritten {s : State} (h : Memory.read s.rb.buf s.rb.rd = none) :
    headFrame s = .error .uninitialised := by
  simp only [headFrame, h]

theorem headFrame_zero {s : State} (h : Memory.read s.rb.buf s.rb.rd = some 0) :
    headFrame s = .error .rbHeaderZero := by
  simp only [headFrame, h, if_true]

theorem headFrame_tooLong {s : State} {b : Byte} (h : Memory.read s.rb.buf s.rb.rd = some b)
    (hb : b ≠ 0) (hlen : s.cfg.scratchSize < b.toNat) :
    headFrame s = .error .rbFrameExceedsScratch := by
  simp only [headFrame, h, if_neg hb, if_pos hlen]

/-- A pop of a ring that is not empty, by an idle transmitter, is refused for what its head frame is
refused for. -/
theorem exec_rbPop_headFrame {s : State} {b : Bool} {e : Refusal} (hm : s.MainReady)
    (hr : s.rb.ready = true) (hne : s.rb.wr ≠ s.rb.rd) (hb : s.tx.busy = false)
    (hf : headFrame s = .error e) : exec (.rbPop b) s = .refused e := by
  refine (asMainRing_ready hm _).trans ?_
  simp only [hr, hb, hf, if_neg hne, Bool.true_eq_false, Bool.false_eq_true, if_false]

/-- Settles O21. -/
theorem rbPopAnswersEmptyOrNotReadyUnchanged :
    Obligations.RbPopAnswersEmptyOrNotReadyUnchanged := by
  intro s b hm hr
  refine ⟨fun he => exec_of_completes (.rbPopEmpty hm hr he),
    fun hne hb => exec_of_completes (.rbPopNotReady hm hr hne hb), fun hne hb => ⟨?_, ?_, ?_⟩⟩
  · exact fun h => exec_rbPop_headFrame hm hr hne hb (headFrame_unwritten h)
  · exact fun h => exec_rbPop_headFrame hm hr hne hb (headFrame_zero h)
  · exact fun h hread h0 hlen => exec_rbPop_headFrame hm hr hne hb (headFrame_tooLong hread h0 hlen)

end Sys2Proof.Machine
end

section
/-! The transmitter: proofs of the statements about `TX.START` (42_serial_tx.md R74), `RB.POP` in normal
mode, which runs it (41_ring_buffer.md R71), `TX.BUSY` (R75), `TX.TXBL` (R76) and `TX.TXC` (R77). -/

namespace Sys2Proof.Machine

variable {s t : State} {p : List Byte}

/-- A text that meets the rule's own tests gets as far as the inner block. -/
theorem startTransmit_block (hb : s.tx.busy = false) (hfit : p.length + 1 ≤ s.cfg.txBufSize)
    (hz : NoZeroByte p) {r : Result} (hr : ∀ k, andThen (blockDepth s.cfg.txBlockDepth s) k = r) :
    startTransmit p s = r := by
  unfold startTransmit
  rw [if_neg (by simp [hb]), if_neg (by omega), if_neg (mt contains_zero_iff.1 (not_not.2 hz))]
  exact hr _

theorem startTransmit_ceiling (hb : s.tx.busy = false) (hfit : p.length + 1 ≤ s.cfg.txBufSize)
    (hz : NoZeroByte p) (hd : s.cfg.txBlockDepth < s.cfg.nDepths) (ho : s.em.opened = true)
    (hc : s.cfg.emCeiling ≤ s.countAt s.cfg.txBlockDepth + 1) :
    startTransmit p s = .fault .emCeilingHit :=
  startTransmit_block hb hfit hz fun _ => by rw [blockDepth_ceiling hd ho hc, andThen_fault]

theorem startTransmit_closed (hb : s.tx.busy = false) (hfit : p.length + 1 ≤ s.cfg.txBufSize)
    (hz : NoZeroByte p) (hd : s.cfg.txBlockDepth < s.cfg.nDepths) (ho : s.em.opened = false) :
    startTransmit p s = .refused .uninitialised :=
  startTransmit_block hb hfit hz fun _ => by rw [blockDepth_closed hd ho, andThen_refused]

theorem startTransmit_tooLong (hb : s.tx.busy = false) (hlen : s.cfg.txBufSize < p.length + 1) :
    startTransmit p s = .refused .txTextTooLong := by
  unfold startTransmit
  rw [if_neg (by simp [hb]), if_pos hlen]

theorem startTransmit_zeroByte (hb : s.tx.busy = false) (hfit : p.length + 1 ≤ s.cfg.txBufSize)
    (hz : ¬ NoZeroByte p) : startTransmit p s = .refused .payloadHasZeroByte := by
  unfold startTransmit
  rw [if_neg (by simp [hb]), if_neg (by omega), if_pos (contains_zero_iff.2 hz)]

/-- In a table of full length a write of one count of the table is read back, and no other is changed. -/
theorem countAt_setCount_self {d n : Nat} (hd : d < s.em.count.length) :
    (s.setCount d n).countAt d = n := by
  rw [countAt_setCount, if_pos ⟨rfl, hd⟩]

theorem countAt_setCount_ne {d e n : Nat} (he : e ≠ d) :
    (s.setCount d n).countAt e = s.countAt e := by
  rw [countAt_setCount, if_neg fun h => he h.1]

/-- Settles O25: a text that fits is taken unless the inner block stops the start. -/
theorem txStartTakesTheTextOrStops : Obligations.TxStartTakesTheTextOrStops := by
  intro s p hm
  have hstart : exec (.txStart p) s = startTransmit p s := asMain_ready hm _
  rw [hstart]
  refine ⟨fun hb hfit hz hv ho hl => ?_, fun hb => if_pos hb, startTransmit_tooLong,
    startTransmit_zeroByte⟩
  obtain ⟨-, -, -, -, -, -, -, hd, -⟩ := hv
  refine ⟨fun hc => ?_, startTransmit_ceiling hb hfit hz hd ho⟩
  refine ⟨_, startTransmit_next_iff.2 ⟨⟨hb, hfit, hz, hd, ho, hc⟩, rfl⟩, ?_, ?_, rfl,
    countAt_setCount_self (hl ▸ hd), fun e he => countAt_setCount_ne he, ho, rfl⟩
  · exact fun j hj => read_text p _ hj
  · exact fun j hj => read_past_text p _ hj

/-- In normal mode a pop hands its head frame to the transmitter (R71). -/
theorem exec_rbPop_startTransmit {c : Nat} (hm : s.MainReady) (hr : s.rb.ready = true)
    (hne : s.rb.wr ≠ s.rb.rd) (hb : s.tx.busy = false) (hf : headFrame s = .ok (p, c)) :
    exec (.rbPop false) s = andThen (startTransmit p (takeFrame p c s)) fun t =>
      .next (t.setRet (.popped .consumed)) := by
  refine (asMainRing_ready hm _).trans ?_
  simp only [hr, hb, hf, if_neg hne, Bool.true_eq_false, Bool.false_eq_true, if_false]

/-- Settles O23: the oldest frame fits the transmit buffer, so only the inner block can stop its start. -/
theorem rbPopInNormalModeStartsTheTransmitter :
    Obligations.RbPopInNormalModeStartsTheTransmitter := by
  constructor
  · intro s p ps hm hv hr hinv hb hf ho hl
    obtain ⟨k, h⟩ := holds_of_frames hv hr hinv hf
    have hne : s.rb.wr ≠ s.rb.rd := fun he => absurd (h.cursors_eq_iff.1 he) (by simp)
    have hhead := h.headFrame hv
    have hz := h.nonzero p List.mem_cons_self
    have hfit : p.length + 1 ≤ s.cfg.txBufSize := by
      have := h.head_fits
      have := h.size
      have := (valid_sizes hv).2.1
      omega
    obtain ⟨-, -, -, -, -, -, -, hd, -⟩ := hv
    constructor
    · intro hc
      have hx := exec_of_completes (.rbPopToTx hm hr hne hhead ⟨hb, hfit, hz, hd, ho, hc⟩)
      refine ⟨_, hx, rfl, (h.pop _ _).frames, by rw [h.size]; rfl, ?_, ?_, ?_, ?_, rfl,
        countAt_setCount_self (hl ▸ hd), fun e he => countAt_setCount_ne he, ho, rfl⟩
      · exact fun j hj => read_terminated p _ hj
      · exact fun j hj => read_past_terminator p _ hj
      · exact fun j hj => read_text p _ hj
      · exact fun j hj => read_past_text p _ hj
    · intro hc
      rw [exec_rbPop_startTransmit hm hr hne hb hhead,
        startTransmit_ceiling (by exact hb) (by exact hfit) hz (by exact hd) (by exact ho)
          (by exact hc), andThen_fault]
  · intro s p c hm hr hne hb hf hlen
    rw [exec_rbPop_startTransmit hm hr hne hb hf,
      startTransmit_tooLong (by exact hb) (by exact hlen), andThen_refused]

/-- Only the completion event clears the busy flag. -/
theorem completes_keeps_busy {i : Instr} (h : Completes s i t) (hb : s.tx.busy = true)
    (hi : i ≠ .txTxc) : t.tx.busy = true := by
  cases h with
  | txTxc => exact absurd rfl hi
  | txStart | rbPopToTx => rfl
  | _ => exact hb

/-- Settles O26. -/
theorem txBusyReturnsWhetherATransmitIsInFlight :
    Obligations.TxBusyReturnsWhetherATransmitIsInFlight := by
  refine ⟨fun s hm => exec_of_completes (.txBusy hm), fun _ => rfl, fun s t p hx => ?_,
    fun s t i hx hb hi => completes_keeps_busy (completes_of_exec hx) hb hi, fun s t hx => ?_⟩
  · obtain ⟨-, hu⟩ := exec_txStart_next.1 hx
    obtain ⟨-, rfl⟩ := startTransmit_next_iff.1 hu
    rfl
  · obtain ⟨-, -, -, -, -, -, rfl⟩ := exec_txTxc_next.1 hx
    rfl

/-- Settles O27. -/
theorem txTxblSendsTheCurrentByte : Obligations.TxTxblSendsTheCurrentByte := by
  intro s ha
  refine ⟨fun b hs hi hread => ?_, fun hs hl => exec_of_completes (.txblAtEnd ha hs hl),
    fun hs => ?_⟩
  rotate_left
  · show execTxTxbl s = _
    exact asEvent_fault ha (if_pos hs)
  by_cases hl : s.tx.idx + 1 = s.tx.len
  · rw [if_pos hl]
    exact ⟨_, exec_of_completes (.txblLastByte ha hs hl hread), rfl, rfl, rfl⟩
  · rw [if_neg hl]
    exact ⟨_, exec_of_completes (.txblByte ha hs hi hl hread), rfl, rfl, rfl⟩

/-- Settles O28: in `WAIT_TXC` only the inner unblock can stop the completion. -/
theorem txTxcCompletesTheTransmit : Obligations.TxTxcCompletesTheTransmit := by
  intro s ha
  refine ⟨fun hs hv ho hl hev => ?_, fun hs => ?_⟩
  rotate_left
  · show execTxTxc s = _
    exact asEvent_fault ha (if_pos hs)
  obtain ⟨-, -, -, -, -, -, -, hd, -⟩ := hv
  constructor
  · intro hc
    exact ⟨_, exec_of_completes (.txTxc ha hs hd ho hc hev), rfl, countAt_setCount_self (hl ▸ hd),
      fun e he => countAt_setCount_ne he, ho, rfl, rfl⟩
  · intro hc
    show execTxTxc s = _
    refine asEvent_fault ha ?_
    rw [if_neg (not_not.2 hs), unblockDepth_underflow (by exact hd) (by exact ho) (by exact hc),
      andThen_fault]

end Sys2Proof.Machine
end

section
/-! The invariants of a run: each of them is kept by every completed stimulus, and so by every step. -/

namespace Sys2Proof.Machine

variable {s t : State} {i : Instr}

/-! ## The byte stores (20_memory.md R27) -/

/-- A list written from the start of a canonical store that it fits leaves a canonical store. -/
theorem canonical_writeList {m : Memory} {size : Nat} {bs : List Byte}
    (hm : Memory.wf m ∧ Memory.Below size m) (hlen : bs.length ≤ size) :
    Memory.wf (Memory.writeList 0 bs m) ∧ Memory.Below size (Memory.writeList 0 bs m) :=
  ⟨Memory.wf_writeList bs 0 hm.1, Memory.below_writeList bs (by omega) hm.2⟩

theorem canonical_write {m : Memory} {size i : Nat} (b : Byte)
    (hm : Memory.wf m ∧ Memory.Below size m) (hi : i < size) :
    Memory.wf (Memory.write i b m) ∧ Memory.Below size (Memory.write i b m) :=
  ⟨Memory.wf_write i b hm.1, Memory.below_write b hi hm.2⟩

/-- A frame that `RB.POP` takes fits the scratch buffer with its terminator (41_ring_buffer.md R71). -/
theorem terminated_length_of_headFrame {p : List Byte} {c : Nat} (h : headFrame s = .ok (p, c)) :
    (p ++ [0]).length ≤ s.cfg.scratchSize := by
  obtain ⟨b, -, hb, hle, hread⟩ := headFrame_eq_ok.1 h
  have hlen := ringRead_length hread
  have hpos : b.toNat ≠ 0 := fun h0 => hb (BitVec.eq_of_toNat_eq h0)
  rw [List.length_append, List.length_singleton]
  omega

theorem completes_keeps_storesCanonical (hs : s.StoresCanonical) (h : Completes s i t) :
    t.StoresCanonical := by
  obtain ⟨hring, hscratch, hslot, htx, hrx⟩ := hs
  cases h with
  | rbPush _ _ _ _ hw => exact ⟨ringWrite_keeps hw hring.1 hring.2, hscratch, hslot, htx, hrx⟩
  | rbPopToSlot _ _ _ _ hf =>
    have hlen := terminated_length_of_headFrame hf
    exact ⟨hring, canonical_writeList hscratch hlen, canonical_writeList hslot hlen, htx, hrx⟩
  | rbPopToTx _ _ _ hf ht =>
    have hscratch' := canonical_writeList hscratch (terminated_length_of_headFrame hf)
    have htx' := canonical_writeList htx (Nat.le_of_succ_le ht.fits)
    exact ⟨hring, hscratch', hslot, htx', hrx⟩
  | txStart _ ht =>
    have htx' := canonical_writeList htx (Nat.le_of_succ_le ht.fits)
    exact ⟨hring, hscratch, hslot, htx', hrx⟩
  | rxStartf _ _ _ _ hx => exact ⟨hring, hscratch, hslot, htx, canonical_write _ hrx hx⟩
  | rxRxdatav _ _ _ _ hx =>
    have hidx : s.rx.idx < s.cfg.rxBufSize := by omega
    exact ⟨hring, hscratch, hslot, htx, canonical_write _ hrx hidx⟩
  | rxSigf _ _ _ _ hx => exact ⟨hring, hscratch, hslot, htx, canonical_write _ hrx hx⟩
  | _ => exact ⟨hring, hscratch, hslot, htx, hrx⟩

/-- Settles O44. -/
theorem everyStepKeepsTheStoresCanonical : Obligations.EveryStepKeepsTheStoresCanonical :=
  fun _ _ => step_keeps (fun _ _ _ h => h) fun _ _ _ _ => completes_keeps_storesCanonical

/-! ## The arbiter (40_energy_arbiter.md R66) -/

/-- The part of the arbiter's invariant that speaks of the counts. -/
def State.CountsBelow (s : State) : Prop :=
  s.em.count.length = s.cfg.nDepths ∧ ∀ n ∈ s.em.count, n < s.cfg.emCeiling

theorem countsBelow_setCount {d n : Nat} (hs : s.CountsBelow) (hn : n < s.cfg.emCeiling) :
    (s.setCount d n).CountsBelow := by
  obtain ⟨hlen, hbelow⟩ := hs
  refine ⟨by simpa using hlen, fun m hm => ?_⟩
  rcases List.mem_or_eq_of_mem_set hm with hm | rfl
  · exact hbelow m hm
  · exact hn

theorem countsBelow_emOpened (hpos : 0 < s.cfg.emCeiling) : s.emOpened.CountsBelow :=
  ⟨List.length_replicate, fun _ hn => (List.eq_of_mem_replicate hn).symm ▸ hpos⟩

/-- A count, of the table or past its end, is below the ceiling. -/
theorem countAt_lt (hs : s.CountsBelow) (hpos : 0 < s.cfg.emCeiling) (d : Nat) :
    s.countAt d < s.cfg.emCeiling := by
  rw [State.countAt, List.getD_eq_getElem?_getD]
  cases hd : s.em.count[d]? with
  | none => exact hpos
  | some n => exact hs.2 n (List.mem_of_getElem? hd)

theorem completes_keeps_countsBelow (hpos : 0 < s.cfg.emCeiling) (hs : s.CountsBelow)
    (h : Completes s i t) : t.CountsBelow := by
  have hdown : ∀ d, s.countAt d - 1 < s.cfg.emCeiling := fun d => by
    have := countAt_lt hs hpos d
    omega
  cases h with
  | emOpen => exact countsBelow_emOpened hpos
  | emBlock _ _ _ hc => exact countsBelow_setCount hs hc
  | emUnblock => exact countsBelow_setCount hs (hdown _)
  | rbPopToTx _ _ _ _ ht | txStart _ ht => exact countsBelow_setCount hs ht.below
  | twStart _ _ _ _ _ hc => exact countsBelow_setCount hs hc
  | txTxc | twMstop => exact countsBelow_setCount hs (hdown _)
  | _ => exact hs

theorem completes_keeps_arbiterInv (hv : s.cfg.Valid) (hs : s.ArbiterInv) (h : Completes s i t) :
    t.ArbiterInv := by
  obtain ⟨hlen, hbelow, hsleep⟩ := hs
  have hpos : 0 < s.cfg.emCeiling := by have := hv.2.1; omega
  obtain ⟨hlen', hbelow'⟩ := completes_keeps_countsBelow hpos ⟨hlen, hbelow⟩ h
  refine ⟨hlen', hbelow', ?_⟩
  obtain hawake | ⟨-, -, rfl⟩ | ⟨b, -, -, -, rfl⟩ := completes_pwrDepth h
  · exact .inl hawake
  · show s.floor - 1 = 0 ∨ s.floor - 1 < s.floor
    omega
  · exact hsleep

/-- Settles O45. -/
theorem everyStepKeepsTheArbiterInvariant : Obligations.EveryStepKeepsTheArbiterInvariant :=
  fun _ _ => step_keeps (fun _ _ _ h => h) fun _ _ _ => completes_keeps_arbiterInv

/-! ## The ring (41_ring_buffer.md R73) -/

theorem completes_keeps_ringInv (hv : s.cfg.Valid) (hs : s.RingInv) (h : Completes s i t) :
    t.RingInv := by
  cases h with
  | rbInit =>
    have hcap := (capacity_bounds hv).1
    have hpos : 0 < s.cfg.capacity := by omega
    have hframes : s.rbInitialised.rb.frames = some [] := frames_of_cursors_eq rfl
    intro _
    rw [hframes]
    exact ⟨rfl, rfl, hpos, hpos, rfl⟩
  | rbPush _ hz hr hsp hw =>
    obtain ⟨k, ps, hold⟩ := exists_holds hv hr hs
    exact (holds_of_rbPush hold hz hsp hw).ringInv
  | rbPopToSlot _ hr hne _ hf =>
    obtain ⟨k, ps, hold⟩ := exists_holds hv hr hs
    exact (hold.pop_headFrame hv hne hf).ringInv
  | rbPopToTx _ hr hne hf =>
    obtain ⟨k, ps, hold⟩ := exists_holds hv hr hs
    exact (hold.pop_headFrame hv hne hf).ringInv
  | _ => exact hs

/-- Settles O46. -/
theorem everyStepKeepsTheRingInvariant : Obligations.EveryStepKeepsTheRingInvariant :=
  fun _ _ => step_keeps (fun _ _ _ h => h) fun _ _ _ => completes_keeps_ringInv

/-! ## The transmitter (42_serial_tx.md R79) -/

/-- A taken text leaves the transmitter at its first byte, or at the end of an empty text. -/
theorem transmitStarted_transmitterInv {p : List Byte} (hs : s.TransmitterInv)
    (ht : s.TakesText p) : (s.transmitStarted p).TransmitterInv := by
  obtain ⟨hbusy, -, htxc, -⟩ := hs
  have hfit := ht.fits
  have hidle : s.tx.state ≠ .waitTxc := fun hw => by
    rw [ht.idle, hw] at hbusy
    exact absurd hbusy (by decide)
  have hread : ∀ j < p.length, (Memory.read (Memory.writeList 0 p s.tx.buf) j).isSome := by
    intro j hj
    rw [read_text p _ hj, List.getElem?_eq_getElem hj]
    rfl
  refine ⟨rfl, rfl, htxc.trans (beq_false_of_ne hidle), Nat.zero_le _, fun _ => hfit, fun _ => ?_, ?_⟩
  · exact ⟨Nat.eq_zero_or_pos p.length |>.symm, hread⟩
  · rintro (h | h) <;> cases h

theorem completes_keeps_transmitterInv (hs : s.TransmitterInv) (h : Completes s i t) :
    t.TransmitterInv := by
  cases h with
  | txStart _ ht => exact transmitStarted_transmitterInv hs ht
  | rbPopToTx _ _ _ _ ht => exact transmitStarted_transmitterInv hs ht.takeFrame
  | txblByte _ hst hi hl =>
    obtain ⟨hbusy, htxbl, htxc, -, hlen, hsend, hend⟩ := hs
    obtain ⟨-, hread⟩ := hsend hst
    refine ⟨hbusy, htxbl, htxc, hi, hlen, fun _ => ⟨.inl ?_, hread⟩, fun hw => ?_⟩
    · exact lt_of_le_of_ne hi hl
    · exact absurd hw (by simp [hst])
  | txblLastByte _ hst hl =>
    obtain ⟨hbusy, -, -, -, hlen, -⟩ := hs
    rw [hst] at hbusy hlen
    exact ⟨hbusy, rfl, rfl, hl.le, fun _ => hlen (by decide), fun h => (by cases h), fun _ => hl⟩
  | txblAtEnd _ hst hl =>
    obtain ⟨hbusy, -, -, -, hlen, -⟩ := hs
    rw [hst] at hbusy hlen
    exact ⟨hbusy, rfl, rfl, hl.le, fun _ => hlen (by decide), fun h => (by cases h), fun _ => hl⟩
  | txTxc _ hst =>
    obtain ⟨-, htxbl, -, hle, hlen, -, hend⟩ := hs
    rw [hst] at htxbl hlen
    exact ⟨rfl, htxbl, rfl, hle, fun _ => hlen (by decide), fun h => (by cases h),
      fun _ => hend (.inl hst)⟩
  | _ => exact hs

/-- Settles O47. -/
theorem everyStepKeepsTheTransmitterInvariant : Obligations.EveryStepKeepsTheTransmitterInvariant :=
  fun _ _ => step_keeps (fun _ _ _ h => h) fun _ _ _ _ => completes_keeps_transmitterInv

/-! ## The receiver (43_serial_rx.md R85) -/

/-- A byte written at the end of a run of written bytes makes the run one longer. -/
theorem written_write {m : Memory} {n : Nat} (b : Byte) (h : ∀ i < n, (Memory.read m i).isSome = true) :
    ∀ i < n + 1, (Memory.read (Memory.write n b m) i).isSome = true := by
  intro i hi
  rw [Memory.read_write]
  split
  · rfl
  · exact h i (by omega)

theorem completes_keeps_receiverInv (hv : s.cfg.Valid) (hs : s.ReceiverInv) (h : Completes s i t) :
    t.ReceiverInv := by
  obtain ⟨-, -, -, -, -, hsize, -⟩ := hv
  have hpos : 0 < s.cfg.rxBufSize := by omega
  cases h with
  | rxOpen =>
    exact fun _ => ⟨rfl, rfl, rfl, fun _ => rfl, fun h => (nomatch h), fun h => (nomatch h), hpos,
      fun _ hj => absurd hj (Nat.not_lt_zero _)⟩
  | rxStartf _ _ hst =>
    obtain ⟨hstart, hsig, -⟩ := hs hst
    exact fun _ => ⟨hstart, hsig, rfl, fun h => (by simp at h), fun _ => rfl, fun h => (nomatch h),
      hsize, written_write _ fun _ hj => absurd hj (Nat.not_lt_zero _)⟩
  | rxRxdatav _ _ hst hb hx =>
    obtain ⟨hstart, hsig, hblock, -, hstarted, hreceiving, -, hread⟩ := hs hst
    have hidx : 1 ≤ s.rx.idx := by
      rw [hb] at hblock
      cases hstate : s.rx.state with
      | init => exact absurd hstate hst
      | idle | finished => rw [hstate] at hblock; cases hblock
      | started => exact (hstarted hstate).ge
      | receiving => exact Nat.le_of_succ_le (hreceiving hstate)
    exact fun _ => ⟨hstart, hsig, hb, fun h => (by simp at h), fun h => (nomatch h),
      fun _ => Nat.succ_le_succ hidx, hx, written_write _ hread⟩
  | rxSigf _ _ hst =>
    obtain ⟨hstart, hsig, -⟩ := hs hst
    exact fun _ => ⟨hstart, hsig, rfl, fun _ => rfl, fun h => (nomatch h), fun h => (nomatch h), hpos,
      fun _ hj => absurd hj (Nat.not_lt_zero _)⟩
  | _ => exact hs

/-- Settles O48. -/
theorem everyStepKeepsTheReceiverInvariant : Obligations.EveryStepKeepsTheReceiverInvariant :=
  fun _ _ => step_keeps (fun _ _ _ h => h) fun _ _ _ => completes_keeps_receiverInv

/-! ## The two-wire machine (44_two_wire.md R92, R94, R95) -/

/-- The first data byte is in bits 15:8 only (R90). -/
theorem resultMsb_masked : ∀ b : Byte, resultMsb b &&& 0xFFFF00FF = 0 := by decide

/-- A byte OR-ed into a slot that holds bits 15:8 only gives a 16-bit value (R94). -/
theorem resultLsb_lt {r : Word32} (b : Byte) (h : r &&& 0xFFFF00FF = 0) :
    (resultLsb r b).toNat < 65536 := by
  have hr : r = r &&& 0xFF00 := by
    calc r = r &&& (0xFFFF00FF ||| 0xFF00) := (BitVec.and_allOnes (x := r)).symm
      _ = (r &&& 0xFFFF00FF) ||| (r &&& 0xFF00) := BitVec.and_or_distrib_left
      _ = r &&& 0xFF00 := by rw [h]; exact BitVec.zero_or
  have hhigh : r.toNat < 2 ^ 16 := by
    rw [hr, BitVec.toNat_and]
    exact Nat.lt_of_le_of_lt Nat.and_le_right (by decide)
  have hlow : (b.setWidth 32).toNat < 2 ^ 16 := by
    have := b.isLt
    rw [BitVec.toNat_setWidth]
    omega
  rw [resultLsb, BitVec.toNat_or]
  exact Nat.or_lt_two_pow hhigh hlow

theorem completes_keeps_twoWireInv (hs : s.TwoWireInv) (h : Completes s i t) : t.TwoWireInv := by
  obtain ⟨hbusy, hidle, hform, hmsb, hend⟩ := hs
  have hbusy' : s.tw.state ≠ .init → s.tw.state ≠ .endState → s.tw.busBusy = true :=
    fun h h' => hbusy ⟨h, h'⟩
  cases h with
  | twStart =>
    exact ⟨fun _ => rfl, fun h => (nomatch h), fun _ => ⟨rfl, rfl⟩, fun h => (nomatch h),
      fun h => (nomatch h)⟩
  | twAckMeasure _ hst | twAckRead _ hst | twAckWait _ hst | twNack _ hst =>
    rw [hst] at hbusy' hform
    exact ⟨fun _ => hbusy' (by decide) (by decide), fun h => (nomatch h),
      fun _ => hform (by decide), fun h => (nomatch h), fun h => (nomatch h)⟩
  | twDataHigh _ hst =>
    rw [hst] at hbusy' hform
    exact ⟨fun _ => hbusy' (by decide) (by decide), fun h => (nomatch h),
      fun _ => hform (by decide), fun _ => resultMsb_masked _, fun h => (nomatch h)⟩
  | twDataLow _ hst =>
    rw [hst] at hform
    exact ⟨fun h => absurd rfl h.2, fun h => (nomatch h), fun _ => hform (by decide),
      fun h => (nomatch h), fun _ => resultLsb_lt _ (hmsb hst)⟩
  | twMstop _ hst =>
    exact ⟨fun h => absurd hst h.2, fun _ => rfl, hform, hmsb, hend⟩
  | _ => exact ⟨hbusy, hidle, hform, hmsb, hend⟩

/-- Settles O49. -/
theorem everyStepKeepsTheTwoWireInvariant : Obligations.EveryStepKeepsTheTwoWireInvariant :=
  fun _ _ => step_keeps (fun _ _ _ h => h) fun _ _ _ _ => completes_keeps_twoWireInv

/-! ## The blocks of the units in flight (40_energy_arbiter.md R66 clause 3) -/

/-- What a unit holds on depth `d` when it is in flight exactly if `busy`, and blocks `depth`. -/
def unitHolds (busy : Bool) (depth d : Nat) : Nat := if busy = true ∧ depth = d then 1 else 0

theorem heldBlocks_eq (s : State) (d : Nat) : s.heldBlocks d =
    unitHolds s.tx.busy s.cfg.txBlockDepth d + unitHolds s.tw.busBusy s.cfg.twBlockDepth d := rfl

@[simp] theorem unitHolds_idle (depth d : Nat) : unitHolds false depth d = 0 := by simp [unitHolds]

@[simp] theorem unitHolds_self (depth : Nat) : unitHolds true depth depth = 1 := by simp [unitHolds]

theorem unitHolds_ne {busy : Bool} {depth d : Nat} (h : d ≠ depth) : unitHolds busy depth d = 0 := by
  simp [unitHolds, h.symm]

/-- The blocks stay held when the count of one depth of the table moves at least as far as what is held
there, and what is held elsewhere stays. -/
theorem blocksHeld_of_setCount {d n : Nat} (hs : s.BlocksHeld) (hd : d < s.em.count.length)
    (ht : t.em = (s.setCount d n).em) (hself : t.heldBlocks d ≤ n)
    (hother : ∀ e, e ≠ d → t.heldBlocks e = s.heldBlocks e) : t.BlocksHeld := by
  intro e
  have hcount : t.countAt e = (s.setCount d n).countAt e := by rw [State.countAt, ht]; rfl
  rw [hcount]
  by_cases he : e = d
  · rw [he, countAt_setCount_self hd]
    exact hself
  · rw [countAt_setCount_ne he, hother e he]
    exact hs e

theorem transmitStarted_blocksHeld {p : List Byte} (hs : s.BlocksHeld) (ht : s.TakesText p)
    (hlen : s.em.count.length = s.cfg.nDepths) : (s.transmitStarted p).BlocksHeld := by
  refine blocksHeld_of_setCount hs (hlen ▸ ht.depth) rfl ?_ fun e he => ?_
  · have hold := hs s.cfg.txBlockDepth
    rw [heldBlocks_eq, ht.idle, unitHolds_idle, Nat.zero_add] at hold
    rw [heldBlocks_eq]
    show unitHolds true s.cfg.txBlockDepth s.cfg.txBlockDepth + _ ≤ _
    rw [unitHolds_self, Nat.add_comm]
    exact Nat.succ_le_succ hold
  · rw [heldBlocks_eq, heldBlocks_eq, unitHolds_ne (by exact he), unitHolds_ne he]
    rfl

/-- Settles O50: a start takes a block and a completion gives its own back; the two provisos are about
what else takes blocks away. -/
theorem aUnitInFlightHoldsItsBlock : Obligations.AUnitInFlightHoldsItsBlock := by
  intro s t i hs htx hlen hdel hopen hunblock hx
  cases completes_of_exec hx with
  | emOpen =>
    obtain ⟨hbusy, hbus⟩ := hopen rfl
    intro d
    rw [heldBlocks_eq]
    show unitHolds s.tx.busy _ d + unitHolds s.tw.busBusy _ d ≤ _
    rw [hbusy, hbus, unitHolds_idle, unitHolds_idle]
    exact Nat.zero_le _
  | @emBlock d _ hd =>
    exact blocksHeld_of_setCount hs (hlen ▸ hd) rfl (Nat.le_succ_of_le (hs _)) fun _ _ => rfl
  | @emUnblock d _ hd =>
    refine blocksHeld_of_setCount hs (hlen ▸ hd) rfl ?_ fun _ _ => rfl
    show s.heldBlocks d.toNat ≤ _
    by_cases hheld : s.heldBlocks d.toNat = 0
    · rw [hheld]; exact Nat.zero_le _
    · exact Nat.le_sub_one_of_lt (hunblock d rfl hheld)
  | txStart _ ht => exact transmitStarted_blocksHeld hs ht hlen
  | rbPopToTx _ _ _ _ ht => exact transmitStarted_blocksHeld hs ht.takeFrame hlen
  | txTxc _ hst hd =>
    have hbusy : s.tx.busy = true := by rw [htx.1, hst]; rfl
    refine blocksHeld_of_setCount hs (hlen ▸ hd) rfl ?_ fun e he => ?_
    · have hold := hs s.cfg.txBlockDepth
      rw [heldBlocks_eq, hbusy, unitHolds_self] at hold
      rw [heldBlocks_eq]
      show unitHolds false _ _ + unitHolds s.tw.busBusy _ _ ≤ _
      rw [unitHolds_idle, Nat.zero_add]
      exact Nat.le_sub_of_add_le ((Nat.add_comm _ _).trans_le hold)
    · rw [heldBlocks_eq, heldBlocks_eq, unitHolds_ne (by exact he), unitHolds_ne he]
      rfl
  | twStart _ _ hb hd =>
    refine blocksHeld_of_setCount hs (hlen ▸ hd) rfl ?_ fun e he => ?_
    · have hold := hs s.cfg.twBlockDepth
      rw [heldBlocks_eq, hb, unitHolds_idle, Nat.add_zero] at hold
      rw [heldBlocks_eq]
      show unitHolds s.tx.busy _ _ + unitHolds true s.cfg.twBlockDepth s.cfg.twBlockDepth ≤ _
      rw [unitHolds_self]
      exact Nat.succ_le_succ hold
    · rw [heldBlocks_eq, heldBlocks_eq, unitHolds_ne (depth := s.cfg.twBlockDepth) he]
      exact congrArg _ (unitHolds_ne (by exact he))
  | twMstop _ hst hd =>
    have hbusy : s.tw.busBusy = true := (Bool.and_eq_true _ _ ▸ hdel).1
    refine blocksHeld_of_setCount hs (hlen ▸ hd) rfl ?_ fun e he => ?_
    · have hold := hs s.cfg.twBlockDepth
      rw [heldBlocks_eq, hbusy, unitHolds_self] at hold
      rw [heldBlocks_eq]
      show unitHolds s.tx.busy _ _ + unitHolds false _ _ ≤ _
      rw [unitHolds_idle]
      exact Nat.le_sub_of_add_le hold
    · rw [heldBlocks_eq, heldBlocks_eq, unitHolds_ne (depth := s.cfg.twBlockDepth) he]
      exact congrArg _ (unitHolds_ne (by exact he))
  | _ => exact hs

/-! ## Reset (10_state.md R26) -/

/-- Settles O43: at reset every store is empty, no unit has left its first state and nothing is held. -/
theorem theInvariantsHoldAtReset : Obligations.TheInvariantsHoldAtReset := by
  intro c hv
  have hpos : 0 < c.emCeiling := by have := hv.2.1; omega
  have hempty : ∀ size, Memory.wf [] = true ∧ Memory.Below size [] :=
    fun _ => ⟨rfl, fun _ h => (nomatch h)⟩
  obtain ⟨hlen, hbelow⟩ : (State.resetWith c).CountsBelow :=
    ⟨List.length_replicate, fun _ hn => (List.eq_of_mem_replicate hn).symm ▸ hpos⟩
  refine ⟨⟨hempty _, hempty _, hempty _, hempty _, hempty _⟩, ⟨hlen, hbelow, .inl rfl⟩,
    fun h => (nomatch h), ?_, fun h => absurd rfl h, ?_, ⟨rfl, rfl, rfl⟩, fun d => ?_⟩
  · exact ⟨rfl, rfl, rfl, le_rfl, fun h => absurd rfl h, fun h => (nomatch h), fun _ => rfl⟩
  · exact ⟨fun h => absurd rfl h.1, fun _ => rfl, fun h => absurd rfl h, fun h => (nomatch h),
      fun h => (nomatch h)⟩
  · rw [heldBlocks_eq]
    exact Nat.zero_le _

end Sys2Proof.Machine
end

section
/-! Steps and agents: proofs of the statements about how a step takes its stimulus, who has no step, what
a stop leaves, and reset. -/

namespace Sys2Proof.Machine

variable {s t : State} {i : Instr}

/-! ## Steps (20_memory.md R34) -/

/-- Settles O5. -/
theorem aStepRunsTheDecodedStimulus : Obligations.AStepRunsTheDecodedStimulus := by
  intro s hv hf hr
  have hstop := stopped_eq_none hv hf hr
  refine ⟨fun line rest i hs hd => ?_, fun line rest e hs hd => ?_, fun hs => ?_⟩
  · simp only [step, hstop, State.nextLine, hs, hd]
  · simp only [step, hstop, State.nextLine, hs, hd]
  · simp only [step, hstop, State.nextLine, hs]

/-! ## Stops (60_exceptions.md R108, R111) -/

/-- The first fault is marked, and an event step that raises it has woken the processor. -/
theorem raiseFault_of_unmarked (hf : s.sys.fault = none) (c : Fault) :
    s.raiseFault c = { s with
      pwrDepth := if s.inEventStep = true then 0 else s.pwrDepth
      sys := { s.sys with fault := some c } } := by
  simp only [State.raiseFault, hf, true_and, Option.none_or]
  split <;> rfl

/-- A second fault changes nothing. -/
theorem raiseFault_of_marked {c : Fault} (hf : s.sys.fault = some c) (c' : Fault) :
    s.raiseFault c' = s := by
  simp only [State.raiseFault, hf, reduceCtorEq, false_and, if_false, Option.some_or]
  rw [← hf]

theorem markRefused_of_unmarked (hr : s.sys.refused = none) (c : Refusal) :
    s.markRefused c = { s with sys := { s.sys with refused := some c } } := by
  simp only [State.markRefused, hr, Option.none_or]

theorem markRefused_of_marked {c : Refusal} (hr : s.sys.refused = some c) (c' : Refusal) :
    s.markRefused c' = s := by
  simp only [State.markRefused, hr, Option.some_or]
  rw [← hr]

/-- A block with a marked fault stays at it (10_state.md R21). -/
theorem step_of_faulted {c : Fault} (hv : s.cfg.Valid) (hf : s.sys.fault = some c) :
    step s = .fault c := by
  have hstop : s.stopped = some (.fault c) := by
    simp only [State.stopped, hf]
    rw [if_neg (not_not.2 hv)]
  simp only [step, hstop]

theorem step_of_refused {c : Refusal} (hv : s.cfg.Valid) (hf : s.sys.fault = none)
    (hr : s.sys.refused = some c) : step s = .refused c := by
  have hstop : s.stopped = some (.refused c) := by
    simp only [State.stopped, hf, hr]
    rw [if_neg (not_not.2 hv)]
  simp only [step, hstop]

/-- Settles O6: the state left is marked, and a marked state answers its mark again. -/
theorem aStoppedBlockStaysStopped : Obligations.AStoppedBlockStaysStopped := by
  intro s hv hf hr
  constructor
  · rintro c t - rfl
    show (s.raiseFault c).sys = _ ∧ _
    rw [settle, raiseFault_of_unmarked hf]
    refine ⟨congrArg (SysMarks.mk _) hr, rfl, fun line rest hs => ?_, step_of_faulted hv rfl,
      raiseFault_of_marked rfl c⟩
    by_cases ha : line.agent = .main <;> simp [State.inEventStep, hs, ha]
  · rintro c t - rfl
    rw [settle, markRefused_of_unmarked hr]
    exact ⟨congrArg (fun m => { s with sys := ⟨m, some c⟩ }) hf, step_of_refused hv hf rfl, markRefused_of_marked rfl c⟩

/-! ## Agents -/

/-- Settles O9: each stimulus tests its agent first, and those of MAIN the sleep next. -/
theorem aForeignAgentAndASleepingMainAreRefused :
    Obligations.AForeignAgentAndASleepingMainAreRefused := by
  intro i s
  cases i with
  | rbInit | rbSpace | rbPush | rbPop =>
    dsimp only [exec]
    exact ⟨fun h => asMainRing_foreign (mt List.mem_singleton.2 h) _,
      fun _ ha hp => asMainRing_asleep ha hp _⟩
  | txTxbl | txTxc | rxLine | rxStartf | rxRxdatav | rxSigf | twAck | twNack | twRxdatav | twMstop =>
    dsimp only [exec]
    exact ⟨fun h => asEvent_foreign (mt List.mem_singleton.2 h) _,
      fun h => absurd h (by simp [Instr.issuers])⟩
  | schAdd m =>
    have hnottimer : s.agent ≠ .timer → exec (.schAdd m) s = asMain s fun s => post m s := by
      intro ht
      simp only [exec, execSchAdd]
    refine ⟨fun h => ?_, fun _ ha hp => ?_⟩
    · obtain ⟨hmain, htimer⟩ : s.agent ≠ .main ∧ s.agent ≠ .timer := by
        simpa [Instr.issuers] using h
      rw [hnottimer htimer]
      exact asMain_foreign hmain _
    · rw [hnottimer (by simp [ha])]
      exact asMain_asleep ha hp _
  | _ =>
    dsimp only [exec]
    exact ⟨fun h => asMain_foreign (mt List.mem_singleton.2 h) _, fun _ ha hp => asMain_asleep ha hp _⟩

/-- Settles O10: only a sleep, which is MAIN's, and a dropped byte leave the processor's depth. -/
theorem anEventStepWakesAndReturnsToMain : Obligations.AnEventStepWakesAndReturnsToMain := by
  intro i s t ha hx
  have h := completes_of_exec hx
  refine ⟨completes_agent h, ?_, fun hdrop => ?_⟩
  · rintro b rfl hb hne
    cases h with
    | rxDropped => rfl
    | rxStartf hi => simp [hne] at hi
    | rxRxdatav _ _ _ hb' | rxSigf _ _ _ hb' => exact absurd (hb.symm.trans hb') (by decide)
  · obtain hawake | ⟨hmain, -, -⟩ | ⟨b, hi, hb, hne, -⟩ := completes_pwrDepth h
    · exact hawake
    · exact absurd hmain ha
    · exact absurd (hdrop b hi hb) hne

/-! ## Reset (10_state.md R26) -/

/-- Settles O7. -/
theorem resetLeavesTheStatedValues : Obligations.ResetLeavesTheStatedValues := by
  intro c
  and_intros <;> rfl

end Sys2Proof.Machine
end

section
/-! The energy-mode arbiter: proofs of the statements about `EM.BLOCK` (40_energy_arbiter.md R61),
`EM.UNBLOCK` (R62) and `EM.SLEEP` (R64). -/

namespace Sys2Proof.Machine

/-- Settles O12. -/
theorem emBlockCountsUpOrHitsTheCeiling : Obligations.EmBlockCountsUpOrHitsTheCeiling := by
  intro s d hm ho hl
  have hrun : exec (.emBlock d) s = blockDepth d.toNat s := asMain_ready hm _
  refine ⟨fun hd hc => ⟨_, exec_of_completes (.emBlock hm hd ho hc),
    countAt_setCount_self (hl ▸ hd), fun _ he => countAt_setCount_ne he, rfl, ho, by simpa using hl⟩,
    fun hd hc => ?_, fun hd => ?_⟩
  · rw [hrun, blockDepth_ceiling hd ho hc]
  · rw [hrun, blockDepth_range hd]

/-- Settles O13. -/
theorem emUnblockCountsDownOrUnderflows : Obligations.EmUnblockCountsDownOrUnderflows := by
  intro s d hm ho hl
  refine ⟨fun hd hc => ?_, fun hd hc => exec_emUnblock_underflow hm ho hd hc, fun hd => ?_⟩
  · have hcount : (s.setCount d.toNat (s.countAt d.toNat - 1)).countAt d.toNat
        = s.countAt d.toNat - 1 := countAt_setCount_self (hl ▸ hd)
    refine ⟨_, exec_of_completes (.emUnblock hm hd ho hc), hcount,
      fun _ he => countAt_setCount_ne he, rfl, ho, by simpa using hl, fun hone => ?_⟩
    exact exec_emUnblock_underflow hm ho hd (by rw [hcount, hone])
  · exact (asMain_ready hm _).trans (unblockDepth_range hd)

/-- The floor is at most the deepest depth and at most every blocked one (R63). -/
theorem isFloor_le {s : State} {f : Nat} (hf : s.IsFloor f) :
    f < s.cfg.nDepths ∧ ∀ d < s.cfg.nDepths, s.countAt d ≠ 0 → f ≤ d := by
  obtain ⟨hlt, -, hfirst⟩ | ⟨hnone, hlast⟩ := hf
  · exact ⟨hlt, fun d _ hd => Nat.not_lt.1 fun hdf => hd (hfirst d hdf)⟩
  · exact ⟨by omega, fun d hdn hd => absurd (hnone d hdn) hd⟩

/-- Settles O15: one less than the floor is shallower than whatever the floor is at most. -/
theorem emSleepEntersJustShallowerThanTheFloor :
    Obligations.EmSleepEntersJustShallowerThanTheFloor := by
  intro s f hm ho hpos hl hf
  have hfloor : s.floor = f := isFloor_unique (floor_isFloor hpos hl) hf
  obtain ⟨hlt, hle⟩ := isFloor_le hf
  have htarget : s.sleepTarget = f - 1 := by rw [State.sleepTarget, hfloor]
  refine ⟨_, exec_of_completes (.emSleep hm ho), rfl, htarget, fun d hd hc => ?_, ?_⟩
  · have := hle d hd hc
    show s.sleepTarget = 0 ∨ s.sleepTarget < d
    omega
  · show s.sleepTarget = 0 ∨ s.sleepTarget + 1 < s.cfg.nDepths
    omega

end Sys2Proof.Machine
end

section
/-! The receiver: proofs of the statements about `RX.OPEN` (43_serial_rx.md R80) and the receive events
(R81 to R84). -/

namespace Sys2Proof.Machine

variable {s t : State}

/-- Settles O29. -/
theorem rxOpenArmsTheReceiver : Obligations.RxOpenArmsTheReceiver := by
  intro s hm
  exact ⟨_, exec_of_completes (.rxOpen hm), rfl, rfl, rfl, rfl, rfl, rfl, rfl⟩

/-! ### The gates (43_serial_rx.md R82 to R84) -/

theorem receiveStart_gate (hs : s.rx.state ≠ .init) (hb : s.rx.block = false) :
    receiveStart s = .refused .rxEventGate := by
  unfold receiveStart
  rw [if_neg hs, if_pos hb]

theorem receiveByte_gate (b : Byte) (hs : s.rx.state ≠ .init) (hb : s.rx.block = true) :
    receiveByte b s = .refused .rxEventGate := by
  unfold receiveByte
  rw [if_neg hs, if_pos hb]

theorem receiveByte_overflow (b : Byte) (hs : s.rx.state ≠ .init) (hb : s.rx.block = false)
    (hx : s.cfg.rxBufSize < s.rx.idx + 2) : receiveByte b s = .fault .rxOverflow := by
  unfold receiveByte
  rw [if_neg hs, if_neg (by simp [hb]), if_pos hx]

theorem receiveSignal_gate (hs : s.rx.state ≠ .init) (hb : s.rx.block = true) :
    receiveSignal s = .refused .rxEventGate := by
  unfold receiveSignal
  rw [if_neg hs, if_pos hb]

/-- What a read finds after one byte has been written. -/
theorem read_write_self (m : Memory) (i : Nat) (b : Byte) :
    Memory.read (Memory.write i b m) i = some b := by
  rw [Memory.read_write, if_pos rfl]

theorem read_write_ne (m : Memory) {i j : Nat} (b : Byte) (h : j ≠ i) :
    Memory.read (Memory.write i b m) j = Memory.read m j := by
  rw [Memory.read_write, if_neg h]

/-- Settles O31. -/
theorem rxStartfOpensAFrame : Obligations.RxStartfOpensAFrame := by
  intro s ha hs hv
  obtain ⟨-, -, -, -, -, hsize, -⟩ := hv
  refine ⟨fun hb => ?_, fun hb => ?_⟩
  · exact ⟨_, exec_of_completes (.rxStartf (.inl rfl) ha hs hb (by omega)), read_write_self _ _ _,
      fun _ hj => read_write_ne _ _ hj, rfl, rfl⟩
  · exact asEvent_refused ha (receiveStart_gate hs hb)

/-- Settles O32. -/
theorem rxRxdatavStoresTheByteOrOverflows : Obligations.RxRxdatavStoresTheByteOrOverflows := by
  intro s b ha hs
  refine ⟨fun hb hx => ?_, fun hb hx => ?_, fun hb => ?_⟩
  · exact ⟨_, exec_of_completes (.rxRxdatav (.inl rfl) ha hs hb hx), read_write_self _ _ _,
      fun _ hj => read_write_ne _ _ hj, rfl, rfl⟩
  · exact asEvent_fault ha (receiveByte_overflow b hs hb hx)
  · exact asEvent_refused ha (receiveByte_gate b hs hb)

/-- Settles O33. -/
theorem rxSigfClosesTheFrame : Obligations.RxSigfClosesTheFrame := by
  intro s ha hs
  refine ⟨fun hb hx hev => ?_, fun hb => ?_⟩
  · exact ⟨_, exec_of_completes (.rxSigf (.inl rfl) ha hs hb hx hev), read_write_self _ _ _,
      fun _ hj => read_write_ne _ _ hj, rfl, rfl, rfl⟩
  · exact asEvent_refused ha (receiveSignal_gate hs hb)

/-- Two events of one agent whose rules agree in a state have the same outcome there. -/
theorem asEvent_congr {a : Agent} {k k' : State → Result} (h : k s = k' s) :
    asEvent a s k = asEvent a s k' := by
  simp only [asEvent, h]

/-- Settles O30: the open receiver's gate and the two sentinel bytes decide which event a byte is. -/
theorem rxLineIsOneReceiveEventOrIsDropped : Obligations.RxLineIsOneReceiveEventOrIsDropped := by
  intro s b ha hs
  have hgate : s.rx.block = false → ¬ s.rx.block = true := by simp
  refine ⟨fun hb hne => exec_of_completes (.rxDropped ha hs hb hne), fun hb hst => ?_,
    fun hb hsig => ?_, fun hb hsig hst => ?_, fun hb hsig hst => ?_, fun hb hsig hst hx => ?_⟩
  · show execRxLine b s = execRxStartf s
    exact asEvent_congr (by rw [if_neg hs, if_pos hb, if_pos hst])
  · show execRxLine b s = execRxSigf s
    exact asEvent_congr (by rw [if_neg hs, if_neg (hgate hb), if_pos hsig])
  · show execRxLine b s = _
    refine asEvent_refused ha ?_
    rw [if_neg hs, if_neg (hgate hb), if_neg hsig, if_pos hst]
  · show execRxLine b s = execRxRxdatav b s
    exact asEvent_congr (by rw [if_neg hs, if_neg (hgate hb), if_neg hsig, if_neg hst])
  · exact ⟨_, exec_of_completes (.rxRxdatav (.inr ⟨rfl, hsig, hst⟩) ha hs hb hx)⟩

end Sys2Proof.Machine
end

section
/-! The two-wire machine: proofs of the statements about its stimuli (44_two_wire.md R87 to R91). -/

namespace Sys2Proof.Machine

variable {s t : State}

/-- The write-address byte as a number (30_encoding.md R52). -/
theorem addressByte_write : ∀ a : TwAddr, addressByte a false = BitVec.ofNat 8 (2 * a.toNat) := by
  decide

/-- The read-address byte as a number, and as bits. -/
theorem addressByte_read : ∀ a : TwAddr, addressByte a true = BitVec.ofNat 8 (2 * a.toNat + 1) := by
  decide

theorem addressByte_read_bits : ∀ a : TwAddr, addressByte a true = (a.setWidth 8 <<< 1) ||| 1 := by
  decide

theorem twAddr_toNat {addr : Nat} (h : addr ≤ 0x7F) : (BitVec.ofNat 7 addr).toNat = addr := by
  rw [BitVec.toNat_ofNat]
  omega

/-- The admitted form on an idle bus gets as far as the inner block (R87). -/
theorem exec_twStart_block {addr : Nat} {cmd : Byte} (hm : s.MainReady) (haddr : addr ≤ 0x7F)
    (hb : s.tw.busBusy = false) {r : Result}
    (hr : ∀ k, andThen (blockDepth s.cfg.twBlockDepth s) k = r) :
    exec (.twStart addr cmd true 2) s = r := by
  show execTwStart addr cmd true 2 s = r
  refine (asMain_ready hm _).trans ?_
  rw [if_neg (by omega), if_neg (by simp), if_neg (by simp [hb])]
  exact hr _

/-- Settles O34. -/
theorem twStartAddressesTheDeviceOrStops : Obligations.TwStartAddressesTheDeviceOrStops := by
  intro s addr cmd rd n hm
  refine ⟨?_, fun haddr => ?_, fun haddr hform => ?_, fun haddr hrd hn hb => ?_⟩
  · rintro haddr rfl rfl hb hv ho hl
    obtain ⟨-, -, -, -, -, -, -, -, hd, -⟩ := hv
    refine ⟨fun hc => ?_, fun hc => ?_⟩
    · have hbyte : addressByte (BitVec.ofNat 7 addr) false = BitVec.ofNat 8 (2 * addr) := by
        rw [addressByte_write, twAddr_toNat haddr]
      exact ⟨_, exec_of_completes (.twStart hm haddr hb hd ho hc), twAddr_toNat haddr, rfl,
        by rw [← hbyte], countAt_setCount_self (hl ▸ hd), fun _ he => countAt_setCount_ne he, ho, rfl⟩
    · exact exec_twStart_block hm haddr hb fun _ => by rw [blockDepth_ceiling hd ho hc, andThen_fault]
  · show execTwStart addr cmd rd n s = _
    exact (asMain_ready hm _).trans (if_pos haddr)
  · show execTwStart addr cmd rd n s = _
    refine (asMain_ready hm _).trans ?_
    rw [if_neg (by omega), if_pos (by simpa using hform)]
  · show execTwStart addr cmd rd n s = _
    refine (asMain_ready hm _).trans ?_
    rw [if_neg (by omega), if_neg (by simp [hrd, hn]), if_pos hb]

/-- Settles O35. -/
theorem twAckAdvancesByState : Obligations.TwAckAdvancesByState := by
  intro s ha
  refine ⟨fun hs => exec_of_completes (.twAckMeasure ha hs), fun hs => ?_,
    fun hs => exec_of_completes (.twAckWait ha hs), fun hs => ?_⟩
  · rw [← addressByte_read_bits]
    exact exec_of_completes (.twAckRead ha hs)
  · show execTwAck s = _
    refine asEvent_fault ha ?_
    obtain hs | hs | hs | hs := hs
    all_goals simp only [hs]

/-- Settles O37. -/
theorem twRxdatavAssemblesTheResult : Obligations.TwRxdatavAssemblesTheResult := by
  intro s b ha
  have hmsb : ∀ b : Byte, (resultMsb b).toNat = 256 * b.toNat := by decide
  refine ⟨fun hs => ?_, fun hs => ?_, fun hs => ?_⟩
  · exact ⟨_, exec_of_completes (.twDataHigh ha hs), hmsb b, rfl, rfl⟩
  · exact ⟨_, exec_of_completes (.twDataLow ha hs), rfl, rfl, rfl⟩
  · show execTwRxdatav b s = _
    refine asEvent_fault ha ?_
    obtain hs | hs | hs | hs | hs := hs
    all_goals simp only [hs]

/-- Settles O38: in `END` only the inner unblock can stop the end of the transaction. -/
theorem twMstopEndsTheTransaction : Obligations.TwMstopEndsTheTransaction := by
  intro s ha
  refine ⟨fun hs hv ho hl hev => ?_, fun hs => ?_⟩
  · obtain ⟨-, -, -, -, -, -, -, -, hd, -⟩ := hv
    refine ⟨fun hc => ?_, fun hc => ?_⟩
    · exact ⟨_, exec_of_completes (.twMstop ha hs hd ho hc hev), rfl,
        countAt_setCount_self (hl ▸ hd), fun e he => countAt_setCount_ne he, ho, rfl, rfl⟩
    · show execTwMstop s = _
      refine asEvent_fault ha ?_
      rw [if_neg (not_not.2 hs), unblockDepth_underflow (by exact hd) (by exact ho) (by exact hc),
        andThen_fault]
  · show execTwMstop s = _
    exact asEvent_fault ha (if_pos hs)

end Sys2Proof.Machine
end

section
/-! The scheduler's event set: proofs of the statements about `SCH.OPEN`, `SCH.ADD` and `SCH.REMOVE`
(45_scheduler_and_externals.md R97 to R99), and of the one about reads before initialisation. -/

namespace Sys2Proof.Machine

variable {s t : State}

/-- Settles O39. -/
theorem schOpenClearsTheEventSet : Obligations.SchOpenClearsTheEventSet := by
  intro s hm
  exact ⟨_, exec_of_completes (.schOpen hm), rfl, rfl, rfl⟩

/-- Adding a mask changes nothing exactly when it has no new bit. -/
theorem eventsAdd_eq_self_iff {x m : EventMask} : eventsAdd x m = x ↔ m &&& ~~~x = 0 := by
  unfold eventsAdd
  constructor
  · intro h
    have hnew : m &&& ~~~(x ||| m) = 0 := by
      ext k hk
      simp only [BitVec.getElem_and, BitVec.getElem_not, BitVec.getElem_or]
      cases m[k] <;> simp
    rwa [h] at hnew
  · intro h
    ext k hk
    have hbit : (m &&& ~~~x)[k] = (0 : EventMask)[k] := by rw [h]
    simp only [BitVec.getElem_and, BitVec.getElem_not] at hbit
    rw [BitVec.getElem_or]
    cases hx : x[k] <;> simp_all

/-- Settles O40. -/
theorem schAddSetsTheBitsOfTheMask : Obligations.SchAddSetsTheBitsOfTheMask := by
  intro s m ha hev
  exact ⟨_, exec_of_completes (.schAdd ha hev), fun _ => BitVec.getLsbD_or, hev, rfl,
    eventsAdd_eq_self_iff⟩

/-- Removing a mask twice is removing it once. -/
theorem eventsRemove_idem (x m : EventMask) : eventsRemove (eventsRemove x m) m = eventsRemove x m := by
  rw [eventsRemove, eventsRemove, BitVec.and_assoc, BitVec.and_self]

/-- Settles O41. -/
theorem schRemoveClearsTheBitsOfTheMask : Obligations.SchRemoveClearsTheBitsOfTheMask := by
  intro s m hev
  refine ⟨fun hm => ?_, fun ha t hx => ?_⟩
  · refine ⟨_, exec_of_completes (.schRemove hm hev), fun k hk => ?_, hev, rfl, ?_⟩
    · show (s.ev.mask &&& ~~~m).getLsbD k = _
      rw [BitVec.getLsbD_and, BitVec.getLsbD_not, decide_eq_true hk, Bool.true_and]
    · refine exec_schRemove_next.2 ⟨hm, hev, ?_⟩
      show _ = { s with ev := { s.ev with mask := eventsRemove (eventsRemove s.ev.mask m) m } }
      rw [eventsRemove_idem]
  · obtain ⟨hm, -⟩ := exec_schRemove_next.1 hx
    exact ha hm.1

/-! ## Reads before the initialising operation (60_exceptions.md R111, 70_reset_and_hazards.md R125) -/

theorem exec_txTxc_emClosed (ha : s.agent = .serial) (hs : s.tx.state = .waitTxc)
    (hd : s.cfg.txBlockDepth < s.cfg.nDepths) (ho : s.em.opened = false) :
    exec .txTxc s = .refused .uninitialised := by
  show execTxTxc s = _
  refine asEvent_refused ha ?_
  rw [if_neg (not_not.2 hs), unblockDepth_closed (by exact hd) (by exact ho), andThen_refused]

theorem exec_twMstop_emClosed (ha : s.agent = .twoWire) (hs : s.tw.state = .endState)
    (hd : s.cfg.twBlockDepth < s.cfg.nDepths) (ho : s.em.opened = false) :
    exec .twMstop s = .refused .uninitialised := by
  show execTwMstop s = _
  refine asEvent_refused ha ?_
  rw [if_neg (not_not.2 hs), unblockDepth_closed (by exact hd) (by exact ho), andThen_refused]

theorem exec_txTxc_evClosed (ha : s.agent = .serial) (hs : s.tx.state = .waitTxc)
    (hd : s.cfg.txBlockDepth < s.cfg.nDepths) (ho : s.em.opened = true)
    (hc : 1 ≤ s.countAt s.cfg.txBlockDepth) (hev : s.ev.opened = false) :
    exec .txTxc s = .refused .uninitialised := by
  have hun : unblockDepth s.cfg.txBlockDepth { s.wake with tx := txFlagsComplete s.tx } = .next _ :=
    unblockDepth_eq_next.2 ⟨hd, ho, hc, rfl⟩
  show execTxTxc s = _
  refine asEvent_refused ha ?_
  rw [if_neg (not_not.2 hs), hun, andThen_next, post_closed (by exact hev), andThen_refused]

theorem exec_twMstop_evClosed (ha : s.agent = .twoWire) (hs : s.tw.state = .endState)
    (hd : s.cfg.twBlockDepth < s.cfg.nDepths) (ho : s.em.opened = true)
    (hc : 1 ≤ s.countAt s.cfg.twBlockDepth) (hev : s.ev.opened = false) :
    exec .twMstop s = .refused .uninitialised := by
  have hun : unblockDepth s.cfg.twBlockDepth s.wake = .next _ :=
    unblockDepth_eq_next.2 ⟨hd, ho, hc, rfl⟩
  show execTwMstop s = _
  refine asEvent_refused ha ?_
  rw [if_neg (not_not.2 hs), hun, andThen_next, post_closed (by exact hev), andThen_refused]

theorem receiveSignal_evClosed (hs : s.rx.state ≠ .init) (hb : s.rx.block = false)
    (hx : s.rx.idx < s.cfg.rxBufSize) (hev : s.ev.opened = false) :
    receiveSignal s = .refused .uninitialised := by
  have hstore : Memory.store s.cfg.rxBufSize s.rx.idx 0 s.rx.buf = some _ :=
    Memory.store_eq_some.2 ⟨hx, rfl⟩
  unfold receiveSignal
  rw [if_neg hs, if_neg (by simp [hb]), hstore]
  show andThen (post s.cfg.evtRxDone s.wake) _ = _
  rw [post_closed (by exact hev), andThen_refused]

theorem exec_schAdd_evClosed (m : EventMask) (ha : s.MainReady ∨ s.agent = .timer)
    (hev : s.ev.opened = false) : exec (.schAdd m) s = .refused .uninitialised := by
  simp only [exec, execSchAdd]
  cases hagent : s.agent with
  | timer => exact asEvent_refused hagent (post_closed (by exact hev))
  | main | serial | twoWire =>
    have hm : s.MainReady := ha.resolve_right (by simp [hagent])
    exact (asMain_ready hm _).trans (post_closed hev)

/-- Settles O8: each of the four flags is tested before the state it guards is read. -/
theorem aReadBeforeInitialisationIsRefused : Obligations.AReadBeforeInitialisationIsRefused := by
  intro s
  refine ⟨fun ho => ⟨fun hm => ⟨fun d hd => ⟨?_, ?_⟩, fun hd hb p hz hfit => ?_,
      fun hd hb hr hne p c hf hz hfit => ?_, fun hd hb addr cmd haddr => ?_, ?_, ?_⟩,
      fun ha hs hd => exec_txTxc_emClosed ha hs hd ho,
      fun ha hs hd => exec_twMstop_emClosed ha hs hd ho⟩,
    fun hm hr => ⟨?_, fun p hz => ?_, fun b => ?_⟩,
    fun hev => ⟨fun ha m => exec_schAdd_evClosed m ha hev, fun hm => ⟨fun m => ?_, ?_⟩,
      fun ha hs hd ho hc => exec_txTxc_evClosed ha hs hd ho hc hev,
      fun ha hs hd ho hc => exec_twMstop_evClosed ha hs hd ho hc hev,
      fun ha hs hb hx => ⟨?_, ?_⟩⟩,
    fun ha hs => ⟨fun b => ⟨?_, ?_⟩, ?_, ?_⟩⟩
  -- before `EM.OPEN`
  · exact (asMain_ready hm _).trans (blockDepth_closed hd ho)
  · exact (asMain_ready hm _).trans (unblockDepth_closed hd ho)
  · exact (asMain_ready hm _).trans (startTransmit_closed hb hfit hz hd ho)
  · rw [exec_rbPop_startTransmit hm hr hne hb hf,
      startTransmit_closed (by exact hb) (by exact hfit) hz (by exact hd) (by exact ho),
      andThen_refused]
  · exact exec_twStart_block hm haddr hb fun _ => by rw [blockDepth_closed hd ho, andThen_refused]
  · show execEmFloor s = _
    exact (asMain_ready hm _).trans (if_pos ho)
  · show execEmSleep s = _
    exact (asMain_ready hm _).trans (if_pos ho)
  -- before `RB.INIT`
  · show execRbSpace s = _
    exact (asMainRing_ready hm _).trans (if_pos hr)
  · refine (asMainRing_ready hm _).trans ?_
    rw [if_neg (mt contains_zero_iff.1 (not_not.2 hz)), if_pos hr]
  · exact (asMainRing_ready hm _).trans (if_pos hr)
  -- before `SCH.OPEN`
  · show execSchRemove m s = _
    exact (asMain_ready hm _).trans (if_pos hev)
  · show execSchGet s = _
    exact (asMain_ready hm _).trans (if_pos hev)
  · exact asEvent_refused ha (receiveSignal_evClosed hs hb hx hev)
  · show execRxLine s.rx.sigByte s = _
    refine asEvent_refused ha ?_
    rw [if_neg hs, if_neg (by simp [hb]), if_pos rfl]
    exact receiveSignal_evClosed hs hb hx hev
  -- before `RX.OPEN`
  · show execRxLine b s = _
    exact asEvent_refused ha (if_pos hs)
  · exact asEvent_refused ha (if_pos hs)
  · exact asEvent_refused ha (if_pos hs)
  · exact asEvent_refused ha (if_pos hs)

end Sys2Proof.Machine
end

section
/-! Faults under the contracts of the environment (42_serial_tx.md R78, 44_two_wire.md R93; D27, D34). -/

namespace Sys2Proof.Machine

variable {s t : State} {i : Instr} {c : Fault}

theorem startTransmit_eq_fault {p : List Byte} (h : startTransmit p s = .fault c) :
    c = .emCeilingHit := by
  unfold startTransmit at h
  split at h
  · cases h
  · split at h
    · cases h
    · split at h
      · cases h
      · obtain h | ⟨u, -, hu⟩ := andThen_eq_fault.1 h
        · exact blockDepth_eq_fault h
        · cases hu

theorem receiveStart_eq_fault (h : receiveStart s = .fault c) : c = .indexRange := by
  unfold receiveStart at h
  split at h
  · cases h
  · split at h
    · cases h
    · split at h <;> cases h
      rfl

theorem receiveByte_eq_fault {b : Byte} (h : receiveByte b s = .fault c) :
    c = .rxOverflow ∨ c = .indexRange := by
  unfold receiveByte at h
  split at h
  · cases h
  · split at h
    · cases h
    · split at h
      · cases h; exact .inl rfl
      · split at h <;> cases h
        exact .inr rfl

theorem receiveSignal_eq_fault (h : receiveSignal s = .fault c) : c = .indexRange := by
  unfold receiveSignal at h
  split at h
  · cases h
  · split at h
    · cases h
    · split at h
      · cases h; rfl
      · obtain h | ⟨u, -, hu⟩ := andThen_eq_fault.1 h
        · exact absurd h post_ne_fault
        · cases hu

/-- A protocol fault is raised by an event of the transmitter or of the bus, outside the states that
expect it (60_exceptions.md R109, class 1). -/
inductive ProtocolFault (s : State) : Instr → Fault → Prop
  | txTxbl {c : Fault} (h : s.tx.state ≠ .sendChar) : ProtocolFault s .txTxbl c
  | txTxc {c : Fault} (h : s.tx.state ≠ .waitTxc) : ProtocolFault s .txTxc c
  | twAck {c : Fault} (h : s.tw.state ≠ .sendMeasure ∧ s.tw.state ≠ .sendRead ∧ s.tw.state ≠ .wack3) :
      ProtocolFault s .twAck c
  | twNack (h : s.tw.state ≠ .wack3) : ProtocolFault s .twNack .twNackState
  | twRxdatav {b : Byte} {c : Fault} (h : s.tw.state ≠ .getMsb ∧ s.tw.state ≠ .getLsbStop) :
      ProtocolFault s (.twRxdatav b) c
  | twMstop {c : Fault} (h : s.tw.state ≠ .endState) : ProtocolFault s .twMstop c

theorem txTxbl_eq_fault (h : exec .txTxbl s = .fault c) : ProtocolFault s .txTxbl c := by
  simp only [exec, execTxTxbl, asEvent_eq_fault] at h
  obtain ⟨-, h⟩ := h
  refine .txTxbl fun hs => ?_
  rw [if_neg (not_not.2 hs)] at h
  split at h <;> cases h

/-- An unblock followed by a post, as both completions have it, faults on a count of 0 only. -/
theorem unblock_post_eq_fault {d : Nat} {m : State → EventMask} {f : State → State}
    (h : andThen (unblockDepth d s) (fun u => andThen (post (m u) u) fun v => .next (f v))
      = .fault c) : c = .emUnderflow := by
  obtain h | ⟨u, -, h⟩ := andThen_eq_fault.1 h
  · exact unblockDepth_eq_fault h
  · obtain h | ⟨v, -, h⟩ := andThen_eq_fault.1 h
    · exact absurd h post_ne_fault
    · cases h

theorem txTxc_eq_fault (h : exec .txTxc s = .fault c) :
    c = .emUnderflow ∨ ProtocolFault s .txTxc c := by
  simp only [exec, execTxTxc, asEvent_eq_fault] at h
  obtain ⟨-, h⟩ := h
  by_cases hs : s.tx.state = .waitTxc
  · rw [if_neg (not_not.2 hs)] at h
    exact .inl (unblock_post_eq_fault h)
  · exact .inr (.txTxc hs)

theorem twAck_eq_fault (h : exec .twAck s = .fault c) : ProtocolFault s .twAck c := by
  simp only [exec, execTwAck, asEvent_eq_fault] at h
  obtain ⟨-, h⟩ := h
  refine .twAck ⟨fun hs => ?_, fun hs => ?_, fun hs => ?_⟩
  all_goals simp only [hs, reduceCtorEq] at h

theorem twNack_eq_fault (h : exec .twNack s = .fault c) : ProtocolFault s .twNack c := by
  simp only [exec, execTwNack, asEvent_eq_fault] at h
  obtain ⟨-, h⟩ := h
  split at h
  · cases h
  all_goals
    rename_i hs
    cases h
    exact .twNack (by simp [hs])

theorem twRxdatav_eq_fault {b : Byte} (h : exec (.twRxdatav b) s = .fault c) :
    ProtocolFault s (.twRxdatav b) c := by
  simp only [exec, execTwRxdatav, asEvent_eq_fault] at h
  obtain ⟨-, h⟩ := h
  refine .twRxdatav ⟨fun hs => ?_, fun hs => ?_⟩
  all_goals simp only [hs, reduceCtorEq] at h

theorem twMstop_eq_fault (h : exec .twMstop s = .fault c) :
    c = .emUnderflow ∨ ProtocolFault s .twMstop c := by
  simp only [exec, execTwMstop, asEvent_eq_fault] at h
  obtain ⟨-, h⟩ := h
  by_cases hs : s.tw.state = .endState
  · rw [if_neg (not_not.2 hs)] at h
    exact .inl (unblock_post_eq_fault h)
  · exact .inr (.twMstop hs)

theorem rbPush_eq_fault {p : List Byte} (h : exec (.rbPush p) s = .fault c) :
    c = .rbOverflow ∨ c = .indexRange := by
  simp only [exec, execRbPush, asMainRing_eq_fault] at h
  obtain ⟨-, h⟩ := h
  split at h
  · cases h
  · split at h
    · cases h
    · split at h
      · cases h; exact .inl rfl
      · split at h <;> cases h
        exact .inr rfl

theorem rbPop_eq_fault {b : Bool} (h : exec (.rbPop b) s = .fault c) : c = .emCeilingHit := by
  simp only [exec, execRbPop, asMainRing_eq_fault] at h
  obtain ⟨-, h⟩ := h
  split at h
  · cases h
  · split at h
    · cases h
    · split at h
      · cases h
      · split at h
        · cases h
        · split at h
          · cases h
          · obtain h | ⟨u, -, h⟩ := andThen_eq_fault.1 h
            · exact startTransmit_eq_fault h
            · cases h

theorem twStart_eq_fault {addr n : Nat} {cmd : Byte} {rd : Bool}
    (h : exec (.twStart addr cmd rd n) s = .fault c) : c = .twBusNotIdle ∨ c = .emCeilingHit := by
  simp only [exec, execTwStart, asMain_eq_fault] at h
  obtain ⟨-, h⟩ := h
  split at h
  · cases h
  · split at h
    · cases h
    · split at h
      · cases h; exact .inl rfl
      · obtain h | ⟨u, -, h⟩ := andThen_eq_fault.1 h
        · exact .inr (blockDepth_eq_fault h)
        · cases h

theorem rxLine_eq_fault {b : Byte} (h : exec (.rxLine b) s = .fault c) :
    c = .rxOverflow ∨ c = .indexRange := by
  simp only [exec, execRxLine, asEvent_eq_fault] at h
  obtain ⟨-, h⟩ := h
  split at h
  · cases h
  · split at h
    · split at h
      · exact .inr (receiveStart_eq_fault h)
      · cases h
    · split at h
      · exact .inr (receiveSignal_eq_fault h)
      · split at h
        · cases h
        · exact receiveByte_eq_fault h

/-- What is left of the faults: those of resources and preconditions, classes 2 and 3, and the model's
own. -/
theorem fault_cases (h : exec i s = .fault c) : c.faultClass ≠ some 1 ∨ ProtocolFault s i c := by
  have hplain : ∀ {c'}, c = c' → c'.faultClass ≠ some 1 →
      c.faultClass ≠ some 1 ∨ ProtocolFault s i c := by
    rintro _ rfl hc
    exact .inl hc
  cases i with
  | emBlock d =>
    obtain ⟨-, h⟩ := asMain_eq_fault.1 h
    exact hplain (blockDepth_eq_fault h) (by decide)
  | emUnblock d =>
    obtain ⟨-, h⟩ := asMain_eq_fault.1 h
    exact hplain (unblockDepth_eq_fault h) (by decide)
  | rbPush p => exact (rbPush_eq_fault h).elim (hplain · (by decide)) (hplain · (by decide))
  | rbPop b => exact hplain (rbPop_eq_fault h) (by decide)
  | txStart p =>
    obtain ⟨-, h⟩ := asMain_eq_fault.1 h
    exact hplain (startTransmit_eq_fault h) (by decide)
  | txTxbl => exact .inr (txTxbl_eq_fault h)
  | txTxc => exact (txTxc_eq_fault h).elim (hplain · (by decide)) .inr
  | rxLine b => exact (rxLine_eq_fault h).elim (hplain · (by decide)) (hplain · (by decide))
  | rxStartf =>
    simp only [exec, execRxStartf, asEvent_eq_fault] at h
    exact hplain (receiveStart_eq_fault h.2) (by decide)
  | rxRxdatav b =>
    simp only [exec, execRxRxdatav, asEvent_eq_fault] at h
    exact (receiveByte_eq_fault h.2).elim (hplain · (by decide)) (hplain · (by decide))
  | rxSigf =>
    simp only [exec, execRxSigf, asEvent_eq_fault] at h
    exact hplain (receiveSignal_eq_fault h.2) (by decide)
  | twStart addr cmd rd n =>
    exact (twStart_eq_fault h).elim (hplain · (by decide)) (hplain · (by decide))
  | twAck => exact .inr (twAck_eq_fault h)
  | twNack => exact .inr (twNack_eq_fault h)
  | twRxdatav b => exact .inr (twRxdatav_eq_fault h)
  | twMstop => exact (twMstop_eq_fault h).elim (hplain · (by decide)) .inr
  | schAdd m =>
    simp only [exec, execSchAdd] at h
    split at h
    · obtain ⟨-, h⟩ := asEvent_eq_fault.1 h
      exact absurd h post_ne_fault
    · obtain ⟨-, h⟩ := asMain_eq_fault.1 h
      exact absurd h post_ne_fault
  | emOpen | rbInit | txBusy | rxOpen | schOpen =>
    simp [exec, execEmOpen, execRbInit, execTxBusy, execRxOpen, execSchOpen, asMain_eq_fault,
      asMainRing_eq_fault] at h
  | emFloor | emSleep | rbSpace | schRemove m | schGet =>
    simp only [exec, execEmFloor, execEmSleep, execRbSpace, execSchRemove, execSchGet,
      asMain_eq_fault, asMainRing_eq_fault] at h
    obtain ⟨-, h⟩ := h
    repeat' split at h
    all_goals cases h

/-- Settles O51: the contracts deliver each event in the states that expect it, but a not-acknowledge
also of the address and of the command. -/
theorem underTheContractsOnlyANackIsAProtocolFault :
    Obligations.UnderTheContractsOnlyANackIsAProtocolFault := by
  intro s i c hinv hdel h hc
  obtain ⟨-, htxbl, htxc, -⟩ := hinv
  obtain hclass | hp := fault_cases h
  · exact absurd hc hclass
  · cases hp with
    | txTxbl hs => exact absurd (beq_iff_eq.1 (htxbl.symm.trans hdel)) hs
    | txTxc hs => exact absurd (beq_iff_eq.1 (htxc.symm.trans hdel)) hs
    | twAck hs => simp [State.Deliverable, hs] at hdel
    | twNack hs =>
      simp only [State.Deliverable, Bool.and_eq_true, Bool.or_eq_true, beq_iff_eq, hs, or_false]
        at hdel
      exact ⟨rfl, rfl, hdel.2⟩
    | twRxdatav hs => simp [State.Deliverable, hs] at hdel
    | twMstop hs => simp [State.Deliverable, hs] at hdel

end Sys2Proof.Machine
end

section
/-! Transmit and receive events commute (90_conflicts.md C9; D35): each reads and writes its own unit, and
both add to the event set. -/

namespace Sys2Proof.Machine

variable {s t : State} {i j : Instr}

@[simp] theorem eventsAdd_zero (x : EventMask) : eventsAdd x 0 = x := BitVec.or_zero

theorem eventsAdd_right_comm (x m n : EventMask) :
    eventsAdd (eventsAdd x m) n = eventsAdd (eventsAdd x n) m := by
  simp only [eventsAdd, BitVec.or_assoc, BitVec.or_comm m n]

/-- What a completed transmit event does to a state: it wakes, and it writes the transmitter, the
arbiter, the line and bits `m` of the event set. -/
def State.afterTransmit (tx : TxUnit) (em : EmUnit) (bytes : List Byte) (m : EventMask) (u : State) :
    State :=
  { u with
    agent := .main, pwrDepth := 0, tx := tx, em := em, txLine := u.txLine ++ bytes
    ev := { u.ev with mask := eventsAdd u.ev.mask m } }

/-- What a completed receive event does to a state: it writes the receiver and bits `m` of the event set,
and it wakes unless it drops a byte. -/
def State.afterReceive (rx : RxUnit) (m : EventMask) (wakes : Bool) (u : State) : State :=
  { u with
    agent := .main, pwrDepth := if wakes = true then 0 else u.pwrDepth, rx := rx
    ev := { u.ev with mask := eventsAdd u.ev.mask m } }

/-- What a transmit event reads of a state. -/
structure SameForTransmit (s u : State) : Prop where
  agent : u.agent = .serial
  cfg : u.cfg = s.cfg
  tx : u.tx = s.tx
  em : u.em = s.em
  opened : u.ev.opened = s.ev.opened

/-- What a receive event reads of a state. -/
structure SameForReceive (s u : State) : Prop where
  agent : u.agent = .serial
  cfg : u.cfg = s.cfg
  rx : u.rx = s.rx
  opened : u.ev.opened = s.ev.opened

/-- A transmit event that completes has the same effect in every state in which it reads the same. -/
theorem transmit_local (hi : i = .txTxbl ∨ i = .txTxc) (h : Completes s i t) :
    s.agent = .serial ∧ ∃ tx em bytes m, ∀ u, SameForTransmit s u →
      exec i u = .next (u.afterTransmit tx em bytes m) := by
  cases h with
  | @txblByte b ha hs hidx hl hb =>
    refine ⟨ha, { s.tx with idx := s.tx.idx + 1 }, s.em, [b], 0, fun u hu => ?_⟩
    rw [← hu.tx] at hs hidx hl hb ⊢
    rw [← hu.em, State.afterTransmit, eventsAdd_zero]
    exact exec_of_completes (.txblByte hu.agent hs hidx hl hb)
  | @txblLastByte b ha hs hl hb =>
    refine ⟨ha, { s.tx with
      idx := s.tx.idx + 1, txblIen := false, txcIen := true, state := .waitTxc }, s.em, [b], 0,
      fun u hu => ?_⟩
    rw [← hu.tx] at hs hl hb ⊢
    rw [← hu.em, State.afterTransmit, eventsAdd_zero]
    exact exec_of_completes (.txblLastByte hu.agent hs hl hb)
  | txblAtEnd ha hs hl =>
    refine ⟨ha, { s.tx with txblIen := false, txcIen := true, state := .waitTxc }, s.em, [], 0,
      fun u hu => ?_⟩
    rw [← hu.tx] at hs hl ⊢
    rw [← hu.em, State.afterTransmit, eventsAdd_zero, List.append_nil]
    exact exec_of_completes (.txblAtEnd hu.agent hs hl)
  | txblPastEnd ha hs hl =>
    refine ⟨ha, s.tx, s.em, [], 0, fun u hu => ?_⟩
    rw [← hu.tx] at hs hl ⊢
    rw [← hu.em, State.afterTransmit, eventsAdd_zero, List.append_nil]
    exact exec_of_completes (.txblPastEnd hu.agent hs hl)
  | txTxc ha hs hd ho hc hev =>
    refine ⟨ha, { s.tx with busy := false, txcIen := false, state := .finish },
      { s.em with
        count := s.em.count.set s.cfg.txBlockDepth (s.countAt s.cfg.txBlockDepth - 1) }, [],
      s.cfg.evtTxDone, fun u hu => ?_⟩
    have hcount : u.countAt = s.countAt := by funext d; rw [State.countAt, State.countAt, hu.em]
    rw [← hu.tx] at hs ⊢
    rw [← hu.em] at ho ⊢
    rw [← hcount] at hc ⊢
    rw [← hu.cfg] at hd hc ⊢
    rw [← hu.opened] at hev
    rw [State.afterTransmit, List.append_nil]
    exact exec_of_completes (.txTxc hu.agent hs hd ho hc hev)
  | rxStartf hi' | rxRxdatav hi' | rxSigf hi' =>
    obtain rfl | rfl := hi <;> simp at hi'
  | _ => simp at hi

/-- A receive event that completes has the same effect in every state in which it reads the same. -/
theorem receive_local (hj : Receives j) (h : Completes s j t) :
    s.agent = .serial ∧ ∃ rx m wakes, ∀ u, SameForReceive s u →
      exec j u = .next (u.afterReceive rx m wakes) := by
  cases h with
  | rxStartf hj' ha hs hb hx =>
    refine ⟨ha, { s.rx with
      block := false, buf := Memory.write 0 s.rx.startByte s.rx.buf, idx := 1, state := .started },
      0, true, fun u hu => ?_⟩
    rw [← hu.rx] at hj' hs hb ⊢
    rw [← hu.cfg] at hx
    rw [State.afterReceive, eventsAdd_zero]
    exact exec_of_completes (.rxStartf hj' hu.agent hs hb hx)
  | @rxRxdatav _ b hj' ha hs hb hx =>
    refine ⟨ha, { s.rx with
      buf := Memory.write s.rx.idx b s.rx.buf, idx := s.rx.idx + 1, state := .receiving },
      0, true, fun u hu => ?_⟩
    rw [← hu.rx] at hj' hs hb hx ⊢
    rw [← hu.cfg] at hx
    rw [State.afterReceive, eventsAdd_zero]
    exact exec_of_completes (.rxRxdatav hj' hu.agent hs hb hx)
  | rxSigf hj' ha hs hb hx hev =>
    refine ⟨ha, { s.rx with
      block := true, buf := Memory.write s.rx.idx 0 s.rx.buf, idx := 0, state := .finished },
      s.cfg.evtRxDone, true, fun u hu => ?_⟩
    rw [← hu.rx] at hj' hs hb hx ⊢
    rw [← hu.cfg] at hx ⊢
    rw [← hu.opened] at hev
    exact exec_of_completes (.rxSigf hj' hu.agent hs hb hx hev)
  | rxDropped ha hs hb hne =>
    refine ⟨ha, s.rx, 0, false, fun u hu => ?_⟩
    rw [← hu.rx] at hs hb hne ⊢
    rw [State.afterReceive, eventsAdd_zero]
    exact exec_of_completes (.rxDropped hu.agent hs hb hne)
  | _ => simp [Receives] at hj

/-- The two effects commute, each issued by the serial peripheral. -/
theorem afterTransmit_afterReceive (tx : TxUnit) (em : EmUnit) (bytes : List Byte) (m : EventMask)
    (rx : RxUnit) (n : EventMask) (wakes : Bool) (u : State) :
    State.afterTransmit tx em bytes m { u.afterReceive rx n wakes with agent := .serial }
      = State.afterReceive rx n wakes { u.afterTransmit tx em bytes m with agent := .serial } := by
  simp only [State.afterTransmit, State.afterReceive, eventsAdd_right_comm u.ev.mask n m, ite_self]

/-- Settles O52. -/
theorem transmitAndReceiveEventsCommute : Obligations.TransmitAndReceiveEventsCommute := by
  intro s u t i j hi hj
  have hj : Receives j := by
    obtain ⟨b, rfl | rfl⟩ | rfl | rfl := hj
    exacts [.inl ⟨b, rfl⟩, .inr (.inr (.inl ⟨b, rfl⟩)), .inr (.inl rfl), .inr (.inr (.inr rfl))]
  constructor
  · intro h1 h2
    obtain ⟨ha, tx, em, bytes, m, htx⟩ := transmit_local hi (completes_of_exec h1)
    obtain rfl := Host.Outcome.next.inj (h1.symm.trans (htx s ⟨ha, rfl, rfl, rfl, rfl⟩))
    obtain ⟨-, rx, n, wakes, hrx⟩ := receive_local hj (completes_of_exec h2)
    obtain rfl := Host.Outcome.next.inj (h2.symm.trans (hrx _ ⟨rfl, rfl, rfl, rfl⟩))
    refine ⟨_, hrx s ⟨ha, rfl, rfl, rfl⟩, ?_⟩
    rw [← afterTransmit_afterReceive]
    exact htx _ ⟨rfl, rfl, rfl, rfl, rfl⟩
  · intro h1 h2
    obtain ⟨ha, rx, n, wakes, hrx⟩ := receive_local hj (completes_of_exec h1)
    obtain rfl := Host.Outcome.next.inj (h1.symm.trans (hrx s ⟨ha, rfl, rfl, rfl⟩))
    obtain ⟨-, tx, em, bytes, m, htx⟩ := transmit_local hi (completes_of_exec h2)
    obtain rfl := Host.Outcome.next.inj (h2.symm.trans (htx _ ⟨rfl, rfl, rfl, rfl, rfl⟩))
    refine ⟨_, htx s ⟨ha, rfl, rfl, rfl, rfl⟩, ?_⟩
    rw [afterTransmit_afterReceive]
    exact hrx _ ⟨rfl, rfl, rfl, rfl⟩

end Sys2Proof.Machine
end

section
/-! Who sets and who clears a bit of the event set (10_state.md R20). -/

namespace Sys2Proof.Machine

variable {s t : State} {i : Instr}

/-- The stimuli that add to the event set. -/
abbrev AddsEvents (s : State) (i : Instr) : Prop :=
  (∃ m, i = .schAdd m) ∨ i = .txTxc ∨ i = .rxSigf ∨ i = .rxLine s.rx.sigByte ∨ i = .twMstop

/-- All that a completed stimulus can do to the event set. -/
theorem completes_evMask (h : Completes s i t) :
    t.ev.mask = s.ev.mask
    ∨ (AddsEvents s i ∧ ∃ m, t.ev.mask = eventsAdd s.ev.mask m)
    ∨ (s.agent = .main ∧ ∃ m, i = .schRemove m ∧ t.ev.mask = eventsRemove s.ev.mask m)
    ∨ (s.agent = .main ∧ i = .schOpen ∧ t.ev.mask = 0) := by
  cases h with
  | txTxc => exact .inr (.inl ⟨.inr (.inl rfl), _, rfl⟩)
  | rxSigf hi =>
    exact .inr (.inl ⟨hi.elim (.inr ∘ .inr ∘ .inl) (.inr ∘ .inr ∘ .inr ∘ .inl), _, rfl⟩)
  | twMstop => exact .inr (.inl ⟨.inr (.inr (.inr (.inr rfl))), _, rfl⟩)
  | schAdd => exact .inr (.inl ⟨.inl ⟨_, rfl⟩, _, rfl⟩)
  | schRemove hm => exact .inr (.inr (.inl ⟨hm.1, _, rfl, rfl⟩))
  | schOpen hm => exact .inr (.inr (.inr ⟨hm.1, rfl, rfl⟩))
  | _ => exact .inl rfl

/-- Adding clears no bit, and removing sets none. -/
theorem cleared_by_eventsAdd (x m : EventMask) : x &&& ~~~(eventsAdd x m) = 0 := by
  refine eventsAdd_eq_self_iff.1 ?_
  rw [eventsAdd, eventsAdd, BitVec.or_comm, ← BitVec.or_assoc, BitVec.or_self]

theorem set_by_eventsRemove (x m : EventMask) : eventsRemove x m &&& ~~~x = 0 := by
  rw [eventsRemove, BitVec.and_comm x, BitVec.and_assoc, BitVec.and_not_self]
  exact BitVec.and_zero

/-- Settles O53. -/
theorem eventBitsAreSetAndClearedOnlyByTheirWriters :
    Obligations.EventBitsAreSetAndClearedOnlyByTheirWriters := by
  intro s t i hx
  obtain hsame | ⟨hadds, m, hadd⟩ | ⟨hmain, m, hi, hrem⟩ | ⟨hmain, hi, hzero⟩ :=
    completes_evMask (completes_of_exec hx)
  · rw [hsame]
    exact ⟨fun h => absurd (BitVec.and_not_self _) h, fun h => absurd (BitVec.and_not_self _) h⟩
  · refine ⟨fun h => absurd ?_ h, fun _ => hadds⟩
    rw [hadd, cleared_by_eventsAdd]
  · refine ⟨fun _ => ⟨hmain, .inl ⟨m, hi⟩⟩, fun h => absurd ?_ h⟩
    rw [hrem, set_by_eventsRemove]
  · refine ⟨fun _ => ⟨hmain, .inr hi⟩, fun h => absurd ?_ h⟩
    rw [hzero]
    exact BitVec.zero_and

end Sys2Proof.Machine
end

section
/-! The output traces (10_state.md R22): every rule appends to them and none reads them. -/

namespace Sys2Proof.Machine

/-- The state whose traces have grown at the front. -/
def State.prefixed (line : List Byte) (out : List BusAction) (s : State) : State :=
  { s with txLine := line ++ s.txLine, twOut := out ++ s.twOut }

/-- The outcome with its next state changed by `f`. -/
def mapNext (f : State → State) : Result → Result
  | .next t => .next (f t)
  | .fault c => .fault c
  | .refused c => .refused c

/-! What a rule reads is not changed. -/

section
variable (line : List Byte) (out : List BusAction) (s : State)

@[simp] theorem prefixed_cfg : (s.prefixed line out).cfg = s.cfg := rfl
@[simp] theorem prefixed_agent : (s.prefixed line out).agent = s.agent := rfl
@[simp] theorem prefixed_rb : (s.prefixed line out).rb = s.rb := rfl
@[simp] theorem prefixed_tx : (s.prefixed line out).tx = s.tx := rfl
@[simp] theorem prefixed_rx : (s.prefixed line out).rx = s.rx := rfl
@[simp] theorem prefixed_tw : (s.prefixed line out).tw = s.tw := rfl

theorem emitLine_prefixed (b : Byte) :
    (s.prefixed line out).emitLine b = (s.emitLine b).prefixed line out := by
  simp only [State.emitLine, State.prefixed, List.append_assoc]

theorem emitBus_prefixed (acts : List BusAction) :
    (s.prefixed line out).emitBus acts = (s.emitBus acts).prefixed line out := by
  simp only [State.emitBus, State.prefixed, List.append_assoc]

end

/-- A rule reads no trace: in the state with grown traces its outcome is the same with grown traces. -/
def TraceFree (k : State → Result) : Prop :=
  ∀ line out s, k (s.prefixed line out) = mapNext (State.prefixed line out) (k s)

@[simp] theorem mapNext_next (f : State → State) (t : State) :
    mapNext f (.next t) = .next (f t) := rfl

@[simp] theorem mapNext_fault (f : State → State) (c : Fault) :
    mapNext f (.fault c) = .fault c := rfl

@[simp] theorem mapNext_refused (f : State → State) (c : Refusal) :
    mapNext f (.refused c) = .refused c := rfl

namespace TraceFree

variable {k k' : State → Result}

protected theorem next {f : State → State}
    (h : ∀ line out s, f (State.prefixed line out s) = State.prefixed line out (f s)) :
    TraceFree fun s => .next (f s) :=
  fun line out s => congrArg Host.Outcome.next (h line out s)

protected theorem fault (c : Fault) : TraceFree fun _ => .fault c := fun _ _ _ => rfl

protected theorem refused (c : Refusal) : TraceFree fun _ => .refused c := fun _ _ _ => rfl

/-- A test of anything but the traces. -/
protected theorem ite {p : State → Prop} {hp : ∀ s, Decidable (p s)}
    (h : ∀ line out s, p (State.prefixed line out s) = p s) (hk : TraceFree k)
    (hk' : TraceFree k') : TraceFree fun s => @ite _ (p s) (hp s) (k s) (k' s) := by
  intro line out s
  have hiff : p (s.prefixed line out) ↔ p s := iff_of_eq (h line out s)
  by_cases hs : p s
  · simp only [if_pos hs, if_pos (hiff.2 hs), hk line out s]
  · simp only [if_neg hs, if_neg (mt hiff.1 hs), hk' line out s]

protected theorem andThen (hk : TraceFree k) (hk' : TraceFree k') :
    TraceFree fun s => andThen (k s) k' := by
  intro line out s
  show andThen (k (s.prefixed line out)) k' = mapNext _ (andThen (k s) k')
  rw [hk line out s]
  cases k s with
  | next u => exact hk' line out u
  | fault c => rfl
  | refused c => rfl

/-- A rule with an operand read from the state, run in another state that the first determines. -/
protected theorem run {α : Type} {k : α → State → Result} {d : State → α} {f : State → State}
    (hk : ∀ a, TraceFree (k a)) (hd : ∀ line out s, d (State.prefixed line out s) = d s)
    (hf : ∀ line out s, f (State.prefixed line out s) = State.prefixed line out (f s)) :
    TraceFree fun s => k (d s) (f s) := by
  intro line out s
  show k (d (s.prefixed line out)) (f (s.prefixed line out)) = _
  rw [hd, hf, hk]

protected theorem asMain (hk : TraceFree k) : TraceFree fun s => asMain s k :=
  .ite (fun _ _ _ => rfl) (.refused _) (.ite (fun _ _ _ => rfl) (.refused _) hk)

protected theorem asMainRing (hk : TraceFree k) : TraceFree fun s => asMainRing s k :=
  .ite (fun _ _ _ => rfl) (.refused _) hk.asMain

protected theorem asEvent (a : Agent) (hk : TraceFree k) : TraceFree fun s => asEvent a s k :=
  .ite (fun _ _ _ => rfl) (.refused _) (.andThen hk (.next fun _ _ _ => rfl))

/-! ### The shared operations -/

protected theorem blockDepth (d : Nat) : TraceFree (blockDepth d) :=
  .ite (fun _ _ _ => rfl) (.refused _) (.ite (fun _ _ _ => rfl) (.refused _)
    (.ite (fun _ _ _ => rfl) (.next fun _ _ _ => rfl) (.fault _)))

protected theorem unblockDepth (d : Nat) : TraceFree (unblockDepth d) :=
  .ite (fun _ _ _ => rfl) (.refused _) (.ite (fun _ _ _ => rfl) (.refused _)
    (.ite (fun _ _ _ => rfl) (.next fun _ _ _ => rfl) (.fault _)))

protected theorem post (m : EventMask) : TraceFree (post m) :=
  .ite (fun _ _ _ => rfl) (.refused _) (.next fun _ _ _ => rfl)

protected theorem startTransmit (p : List Byte) : TraceFree (startTransmit p) :=
  .ite (fun _ _ _ => rfl) (.refused _) (.ite (fun _ _ _ => rfl) (.refused _)
    (.ite (fun _ _ _ => rfl) (.refused _)
      (.andThen (.run .blockDepth (fun _ _ _ => rfl) fun _ _ _ => rfl) (.next fun _ _ _ => rfl))))

protected theorem receiveStart : TraceFree receiveStart := by
  refine .ite (fun _ _ _ => rfl) (.refused _) (.ite (fun _ _ _ => rfl) (.refused _) ?_)
  intro line out s
  simp only [prefixed_cfg, prefixed_rx]
  cases Memory.store s.cfg.rxBufSize 0 s.rx.startByte s.rx.buf <;> rfl

protected theorem receiveByte (b : Byte) : TraceFree (receiveByte b) := by
  refine .ite (fun _ _ _ => rfl) (.refused _) (.ite (fun _ _ _ => rfl) (.refused _)
    (.ite (fun _ _ _ => rfl) (.fault _) ?_))
  intro line out s
  simp only [prefixed_cfg, prefixed_rx]
  cases Memory.store s.cfg.rxBufSize s.rx.idx b s.rx.buf <;> rfl

protected theorem receiveSignal : TraceFree receiveSignal := by
  refine .ite (fun _ _ _ => rfl) (.refused _) (.ite (fun _ _ _ => rfl) (.refused _) ?_)
  intro line out s
  simp only [prefixed_cfg, prefixed_rx]
  cases Memory.store s.cfg.rxBufSize s.rx.idx 0 s.rx.buf with
  | none => rfl
  | some buf =>
    exact TraceFree.andThen (k := fun s => post s.cfg.evtRxDone s.wake)
      (k' := fun t => .next { t with rx := rxFlagBlock true { t.rx with
        buf := buf, idx := 0, state := .finished } })
      (.run .post (fun _ _ _ => rfl) fun _ _ _ => rfl) (.next fun _ _ _ => rfl) line out s

/-! ### The stimuli -/

protected theorem rbPush (p : List Byte) : TraceFree (exec (.rbPush p)) := by
  refine .asMainRing (.ite (fun _ _ _ => rfl) (.refused _) (.ite (fun _ _ _ => rfl) (.refused _)
    (.ite (fun _ _ _ => rfl) (.fault _) ?_)))
  intro line out s
  simp only [prefixed_cfg, prefixed_rb]
  cases ringWrite s.cfg.capacity s.rb.mask (frameBytes p) s.rb.buf s.rb.wr <;> rfl

protected theorem rbPop (b : Bool) : TraceFree (exec (.rbPop b)) := by
  refine .asMainRing (.ite (fun _ _ _ => rfl) (.refused _) (.ite (fun _ _ _ => rfl)
    (.next fun _ _ _ => rfl) (.ite (fun _ _ _ => rfl) (.next fun _ _ _ => rfl) ?_)))
  intro line out s
  have hhead : headFrame (s.prefixed line out) = headFrame s := rfl
  simp only [hhead]
  cases headFrame s with
  | error e => rfl
  | ok r =>
    obtain ⟨p, c⟩ := r
    cases b with
    | true => rfl
    | false =>
      exact TraceFree.andThen (.run (k := fun _ => startTransmit p) (d := fun _ => ())
        (f := takeFrame p c) (fun _ => .startTransmit p) (fun _ _ _ => rfl) fun _ _ _ => rfl)
        (.next (f := fun s => s.setRet (.popped .consumed)) fun _ _ _ => rfl) line out s

theorem transmitByte_prefixed (line : List Byte) (out : List BusAction) (s : State) :
    transmitByte (s.prefixed line out) = (transmitByte s).map (State.prefixed line out) := by
  by_cases h : s.tx.idx < s.tx.len
  · rw [transmitByte, transmitByte, if_pos (by exact h), if_pos h, prefixed_tx]
    cases Memory.read s.tx.buf s.tx.idx with
    | none => rfl
    | some b =>
      exact congrArg some
        (emitLine_prefixed line out { s with tx := { s.tx with idx := s.tx.idx + 1 } } b)
  · rw [transmitByte, transmitByte, if_neg (by exact h), if_neg h]
    rfl

theorem endOfText_prefixed (line : List Byte) (out : List BusAction) (s : State) :
    endOfText (s.prefixed line out) = (endOfText s).prefixed line out := by
  by_cases h : s.tx.idx = s.tx.len
  · rw [endOfText, endOfText, if_pos (by exact h), if_pos h]; rfl
  · rw [endOfText, endOfText, if_neg (by exact h), if_neg h]

protected theorem txTxbl : TraceFree (exec .txTxbl) := by
  refine .asEvent _ (.ite (fun _ _ _ => rfl) (.fault _) ?_)
  intro line out s
  have hbyte : transmitByte (s.prefixed line out).wake
      = (transmitByte s.wake).map (State.prefixed line out) := transmitByte_prefixed line out s.wake
  simp only [hbyte]
  cases transmitByte s.wake with
  | none => rfl
  | some u => exact congrArg Host.Outcome.next (endOfText_prefixed line out u)

protected theorem txTxc : TraceFree (exec .txTxc) :=
  .asEvent _ (.ite (fun _ _ _ => rfl) (.fault _)
    (.andThen (.run .unblockDepth (fun _ _ _ => rfl) fun _ _ _ => rfl)
      (.andThen (.run .post (fun _ _ _ => rfl) fun _ _ _ => rfl) (.next fun _ _ _ => rfl))))

protected theorem rxLine (b : Byte) : TraceFree (exec (.rxLine b)) :=
  .asEvent _ (.ite (fun _ _ _ => rfl) (.refused _) (.ite (fun _ _ _ => rfl)
    (.ite (fun _ _ _ => rfl) .receiveStart (.next fun _ _ _ => rfl))
    (.ite (fun _ _ _ => rfl) .receiveSignal
      (.ite (fun _ _ _ => rfl) (.refused _) (.receiveByte b)))))

protected theorem twStart (addr : Nat) (cmd : Byte) (rd : Bool) (n : Nat) :
    TraceFree (exec (.twStart addr cmd rd n)) :=
  .asMain (.ite (fun _ _ _ => rfl) (.refused _) (.ite (fun _ _ _ => rfl) (.refused _)
    (.ite (fun _ _ _ => rfl) (.fault _)
      (.andThen (.run .blockDepth (fun _ _ _ => rfl) fun _ _ _ => rfl)
        (.next fun line out s => by simp only [State.emitBus, State.prefixed, List.append_assoc])))))

protected theorem twAck : TraceFree (exec .twAck) := by
  refine .asEvent _ fun line out s => ?_
  simp only [prefixed_tw]
  cases s.tw.state with
  | sendMeasure | sendRead =>
    show Host.Outcome.next (((s.wake.prefixed line out).emitBus _).twGoto _) = _
    rw [emitBus_prefixed]
    rfl
  | _ => rfl

protected theorem twNack : TraceFree (exec .twNack) := by
  refine .asEvent _ fun line out s => ?_
  simp only [prefixed_tw]
  cases s.tw.state with
  | wack3 =>
    show Host.Outcome.next (((s.wake.prefixed line out).emitBus _).twGoto _) = _
    rw [emitBus_prefixed]
    rfl
  | _ => rfl

protected theorem twRxdatav (b : Byte) : TraceFree (exec (.twRxdatav b)) := by
  refine .asEvent _ fun line out s => ?_
  simp only [prefixed_tw]
  cases s.tw.state with
  | getMsb | getLsbStop =>
    show Host.Outcome.next ((((s.wake.setResult _).prefixed line out).emitBus _).twGoto _) = _
    rw [emitBus_prefixed]
    rfl
  | _ => rfl

protected theorem twMstop : TraceFree (exec .twMstop) :=
  .asEvent _ (.ite (fun _ _ _ => rfl) (.fault _)
    (.andThen (.run .unblockDepth (fun _ _ _ => rfl) fun _ _ _ => rfl)
      (.andThen (.run .post (fun _ _ _ => rfl) fun _ _ _ => rfl) (.next fun _ _ _ => rfl))))

protected theorem schAdd (m : EventMask) : TraceFree (exec (.schAdd m)) := by
  intro line out s
  simp only [exec, execSchAdd, prefixed_agent]
  cases s.agent with
  | timer =>
    exact TraceFree.asEvent .timer (.run (k := fun _ => post m) (d := fun _ => ()) (f := State.wake)
      (fun _ => .post m) (fun _ _ _ => rfl) fun _ _ _ => rfl) line out s
  | _ => exact TraceFree.asMain (.post m) line out s

/-- No stimulus reads a trace. -/
protected theorem exec (i : Instr) : TraceFree (exec i) := by
  cases i with
  | emOpen => exact .asMain (.next fun _ _ _ => rfl)
  | emBlock d => exact .asMain (.blockDepth d.toNat)
  | emUnblock d => exact .asMain (.unblockDepth d.toNat)
  | emFloor => exact .asMain (.ite (fun _ _ _ => rfl) (.refused _) (.next fun _ _ _ => rfl))
  | emSleep =>
    exact .asMain (.ite (fun _ _ _ => rfl) (.refused _)
      (.ite (fun _ _ _ => rfl) (.next fun _ _ _ => rfl) (.next fun _ _ _ => rfl)))
  | rbInit => exact .asMainRing (.next fun _ _ _ => rfl)
  | rbSpace => exact .asMainRing (.ite (fun _ _ _ => rfl) (.refused _) (.next fun _ _ _ => rfl))
  | rbPush p => exact .rbPush p
  | rbPop b => exact .rbPop b
  | txStart p => exact .asMain (.startTransmit p)
  | txBusy => exact .asMain (.next fun _ _ _ => rfl)
  | txTxbl => exact .txTxbl
  | txTxc => exact .txTxc
  | rxOpen => exact .asMain (.next fun _ _ _ => rfl)
  | rxLine b => exact .rxLine b
  | rxStartf => exact .asEvent _ .receiveStart
  | rxRxdatav b => exact .asEvent _ (.receiveByte b)
  | rxSigf => exact .asEvent _ .receiveSignal
  | twStart addr cmd rd n => exact .twStart addr cmd rd n
  | twAck => exact .twAck
  | twNack => exact .twNack
  | twRxdatav b => exact .twRxdatav b
  | twMstop => exact .twMstop
  | schOpen => exact .asMain (.next fun _ _ _ => rfl)
  | schAdd m => exact .schAdd m
  | schRemove m => exact .asMain (.ite (fun _ _ _ => rfl) (.refused _) (.next fun _ _ _ => rfl))
  | schGet => exact .asMain (.ite (fun _ _ _ => rfl) (.refused _) (.next fun _ _ _ => rfl))

end TraceFree

/-- The state with empty traces. -/
def State.bare (s : State) : State := { s with txLine := [], twOut := [] }

/-- Any traces are put back in front of the empty ones. -/
theorem bare_prefixed (s : State) (line : List Byte) (out : List BusAction) :
    s.bare.prefixed line out = { s with txLine := line, twOut := out } := by
  simp only [State.bare, State.prefixed, List.append_nil]

/-- With any traces, the outcome is the one without, with the traces put in front. -/
theorem exec_traces (i : Instr) (s : State) (line : List Byte) (out : List BusAction) :
    exec i { s with txLine := line, twOut := out }
      = mapNext (State.prefixed line out) (exec i s.bare) := by
  rw [← bare_prefixed, TraceFree.exec]

/-- Settles O54: the stimulus appends what it appends to empty traces. -/
theorem tracesGrowAndAreNeverRead : Obligations.TracesGrowAndAreNeverRead := by
  intro s i
  have hs : exec i s = mapNext (State.prefixed s.txLine s.twOut) (exec i s.bare) :=
    exec_traces i s s.txLine s.twOut
  refine ⟨fun t ht => ?_, fun c hc line out => ?_, fun c hc line out => ?_⟩
  · rw [hs] at ht
    cases hb : exec i s.bare with
    | next u =>
      rw [hb] at ht
      cases ht
      refine ⟨u.txLine, u.twOut, rfl, rfl, fun line out => ?_⟩
      rw [exec_traces, hb]
      rfl
    | fault | refused => rw [hb] at ht; cases ht
  · rw [hs] at hc
    rw [exec_traces]
    cases hb : exec i s.bare with
    | fault c' => rw [hb] at hc; cases hc; rfl
    | next | refused => rw [hb] at hc; cases hc
  · rw [hs] at hc
    rw [exec_traces]
    cases hb : exec i s.bare with
    | refused c' => rw [hb] at hc; cases hc; rfl
    | next | fault => rw [hb] at hc; cases hc

end Sys2Proof.Machine
end

section
/-! The writers of each field (10_state.md R9 to R22), unit by unit. -/

namespace Sys2Proof.Machine

variable {s t : State} {i : Instr}

/-- A field that is as before is not written. -/
theorem unwritten {α : Type} {a : α} {p : Prop} (h : a ≠ a) : p := absurd rfl h

theorem completes_pwrDepth_writers (h : Completes s i t) (hne : t.pwrDepth ≠ s.pwrDepth) :
    s.agent ≠ .main ∨ i = .emSleep := by
  cases h with
  | emSleep => exact .inr rfl
  | schAdd ha =>
    obtain hm | htimer := ha
    · exact absurd hm.2.symm hne
    · exact .inl (by simp [htimer])
  | txblByte ha | txblLastByte ha | txblAtEnd ha | txblPastEnd ha | txTxc ha | rxStartf _ ha
  | rxRxdatav _ ha | rxSigf _ ha | twAckMeasure ha | twAckRead ha | twAckWait ha | twNack ha
  | twDataHigh ha | twDataLow ha | twMstop ha => exact .inl (by simp [ha])
  | _ => exact unwritten hne

theorem completes_ret_writers (h : Completes s i t) (hne : t.ret ≠ s.ret) :
    i = .emFloor ∨ i = .rbSpace ∨ (∃ b, i = .rbPop b) ∨ i = .txBusy ∨ i = .schGet := by
  cases h with
  | emFloor => exact .inl rfl
  | rbSpace => exact .inr (.inl rfl)
  | rbPopEmpty | rbPopNotReady | rbPopToSlot | rbPopToTx => exact .inr (.inr (.inl ⟨_, rfl⟩))
  | txBusy => exact .inr (.inr (.inr (.inl rfl)))
  | schGet => exact .inr (.inr (.inr (.inr rfl)))
  | _ => exact unwritten hne

theorem completes_em_writers (h : Completes s i t) :
    (t.em.count ≠ s.em.count → i = .emOpen ∨ (∃ d, i = .emBlock d) ∨ (∃ d, i = .emUnblock d)
        ∨ StartsTransmit i ∨ i = .txTxc ∨ StartsTransaction i ∨ i = .twMstop)
    ∧ (t.em.opened ≠ s.em.opened → i = .emOpen) := by
  cases h with
  | emOpen => exact ⟨fun _ => .inl rfl, fun _ => rfl⟩
  | emBlock => exact ⟨fun _ => .inr (.inl ⟨_, rfl⟩), unwritten⟩
  | emUnblock => exact ⟨fun _ => .inr (.inr (.inl ⟨_, rfl⟩)), unwritten⟩
  | txStart => exact ⟨fun _ => .inr (.inr (.inr (.inl (.inl ⟨_, rfl⟩)))), unwritten⟩
  | rbPopToTx => exact ⟨fun _ => .inr (.inr (.inr (.inl (.inr rfl)))), unwritten⟩
  | txTxc => exact ⟨fun _ => .inr (.inr (.inr (.inr (.inl rfl)))), unwritten⟩
  | twStart =>
    exact ⟨fun _ => .inr (.inr (.inr (.inr (.inr (.inl ⟨_, _, _, _, rfl⟩))))), unwritten⟩
  | twMstop => exact ⟨fun _ => .inr (.inr (.inr (.inr (.inr (.inr rfl))))), unwritten⟩
  | _ => exact ⟨unwritten, unwritten⟩

theorem completes_rb_writers (h : Completes s i t) :
    (t.rb ≠ s.rb → s.agent = .main ∧ (i = .rbInit ∨ (∃ p, i = .rbPush p) ∨ ∃ b, i = .rbPop b))
    ∧ (t.rb.capacity ≠ s.rb.capacity ∨ t.rb.mask ≠ s.rb.mask ∨ t.rb.ready ≠ s.rb.ready →
        i = .rbInit)
    ∧ (t.rb.wr ≠ s.rb.wr → i = .rbInit ∨ ∃ p, i = .rbPush p)
    ∧ (t.rb.rd ≠ s.rb.rd → i = .rbInit ∨ ∃ b, i = .rbPop b)
    ∧ (t.rb.buf ≠ s.rb.buf → ∃ p, i = .rbPush p)
    ∧ (t.rb.scratch ≠ s.rb.scratch → ∃ b, i = .rbPop b)
    ∧ (t.rb.testSlot ≠ s.rb.testSlot → i = .rbPop true) := by
  cases h with
  | rbInit hm =>
    exact ⟨fun _ => ⟨hm.1, .inl rfl⟩, fun _ => rfl, fun _ => .inl rfl, fun _ => .inl rfl,
      unwritten, unwritten, unwritten⟩
  | rbPush hm =>
    exact ⟨fun _ => ⟨hm.1, .inr (.inl ⟨_, rfl⟩)⟩, fun h => (by simp at h),
      fun _ => .inr ⟨_, rfl⟩, unwritten, fun _ => ⟨_, rfl⟩, unwritten, unwritten⟩
  | rbPopToSlot hm =>
    exact ⟨fun _ => ⟨hm.1, .inr (.inr ⟨_, rfl⟩)⟩, fun h => (by simp at h), unwritten,
      fun _ => .inr ⟨_, rfl⟩, unwritten, fun _ => ⟨_, rfl⟩, fun _ => rfl⟩
  | rbPopToTx hm =>
    exact ⟨fun _ => ⟨hm.1, .inr (.inr ⟨_, rfl⟩)⟩,
      fun h => h.elim unwritten fun h => h.elim unwritten unwritten, unwritten,
      fun _ => .inr ⟨_, rfl⟩, unwritten, fun _ => ⟨_, rfl⟩, unwritten⟩
  | _ =>
    exact ⟨unwritten, fun h => h.elim unwritten fun h => h.elim unwritten unwritten, unwritten,
      unwritten, unwritten, unwritten, unwritten⟩

theorem completes_tx_writers (h : Completes s i t) :
    (t.tx.buf ≠ s.tx.buf ∨ t.tx.len ≠ s.tx.len → StartsTransmit i)
    ∧ (t.tx.idx ≠ s.tx.idx → StartsTransmit i ∨ i = .txTxbl)
    ∧ (t.tx.state ≠ s.tx.state → StartsTransmit i ∨ i = .txTxbl ∨ i = .txTxc)
    ∧ (t.tx.busy ≠ s.tx.busy → StartsTransmit i ∨ i = .txTxc)
    ∧ (t.tx.txblIen ≠ s.tx.txblIen → StartsTransmit i ∨ i = .txTxbl)
    ∧ (t.tx.txcIen ≠ s.tx.txcIen → i = .txTxbl ∨ i = .txTxc)
    ∧ (t.txLine ≠ s.txLine → i = .txTxbl) := by
  cases h with
  | @txStart p =>
    have hi : StartsTransmit (.txStart p) := .inl ⟨_, rfl⟩
    exact ⟨fun _ => hi, fun _ => .inl hi, fun _ => .inl hi, fun _ => .inl hi, fun _ => .inl hi,
      unwritten, unwritten⟩
  | rbPopToTx =>
    have hi : StartsTransmit (.rbPop false) := .inr rfl
    exact ⟨fun _ => hi, fun _ => .inl hi, fun _ => .inl hi, fun _ => .inl hi, fun _ => .inl hi,
      unwritten, unwritten⟩
  | txblByte | txblLastByte | txblAtEnd | txblPastEnd =>
    exact ⟨fun h => h.elim unwritten unwritten, fun _ => .inr rfl, fun _ => .inr (.inl rfl),
      unwritten, fun _ => .inr rfl, fun _ => .inl rfl, fun _ => rfl⟩
  | txTxc =>
    exact ⟨fun h => h.elim unwritten unwritten, unwritten, fun _ => .inr (.inr rfl),
      fun _ => .inr rfl, unwritten, fun _ => .inr rfl, unwritten⟩
  | _ =>
    exact ⟨fun h => h.elim unwritten unwritten, unwritten, unwritten, unwritten, unwritten,
      unwritten, unwritten⟩

theorem completes_rx_writers (h : Completes s i t) :
    (t.rx.buf ≠ s.rx.buf → Receives i)
    ∧ (t.rx.idx ≠ s.rx.idx ∨ t.rx.state ≠ s.rx.state → i = .rxOpen ∨ Receives i)
    ∧ (t.rx.block ≠ s.rx.block → i = .rxOpen ∨ i = .rxStartf ∨ i = .rxSigf
        ∨ i = .rxLine s.rx.startByte ∨ i = .rxLine s.rx.sigByte)
    ∧ (t.rx.startByte ≠ s.rx.startByte ∨ t.rx.sigByte ≠ s.rx.sigByte → i = .rxOpen) := by
  cases h with
  | rxOpen => exact ⟨unwritten, fun _ => .inl rfl, fun _ => .inl rfl, fun _ => rfl⟩
  | rxStartf hi =>
    have hr : Receives i := hi.elim (.inr ∘ .inl) fun h => .inl ⟨_, h⟩
    exact ⟨fun _ => hr, fun _ => .inr hr,
      fun _ => .inr (hi.elim .inl (.inr ∘ .inr ∘ .inl)), fun h => h.elim unwritten unwritten⟩
  | rxRxdatav hi =>
    have hr : Receives i :=
      hi.elim (fun h => .inr (.inr (.inl ⟨_, h⟩))) fun h => .inl ⟨_, h.1⟩
    exact ⟨fun _ => hr, fun _ => .inr hr, unwritten, fun h => h.elim unwritten unwritten⟩
  | rxSigf hi =>
    have hr : Receives i := hi.elim (.inr ∘ .inr ∘ .inr) fun h => .inl ⟨_, h⟩
    exact ⟨fun _ => hr, fun _ => .inr hr,
      fun _ => .inr (.inr (hi.elim .inl (.inr ∘ .inr))), fun h => h.elim unwritten unwritten⟩
  | _ =>
    exact ⟨unwritten, fun h => h.elim unwritten unwritten, unwritten,
      fun h => h.elim unwritten unwritten⟩

theorem completes_tw_writers (h : Completes s i t) :
    (t.tw.state ≠ s.tw.state → StartsTransaction i ∨ i = .twAck ∨ ∃ b, i = .twRxdatav b)
    ∧ (t.tw.result ≠ s.tw.result → ∃ b, i = .twRxdatav b)
    ∧ (t.tw.addr ≠ s.tw.addr ∨ t.tw.cmd ≠ s.tw.cmd ∨ t.tw.isRead ≠ s.tw.isRead
        ∨ t.tw.nbytes ≠ s.tw.nbytes → StartsTransaction i)
    ∧ (t.tw.busBusy ≠ s.tw.busBusy → StartsTransaction i ∨ i = .twMstop)
    ∧ (t.twOut ≠ s.twOut → StartsTransaction i ∨ i = .twAck ∨ i = .twNack
        ∨ ∃ b, i = .twRxdatav b) := by
  have hparam : ∀ {p : Prop}, s.tw.addr ≠ s.tw.addr ∨ s.tw.cmd ≠ s.tw.cmd
      ∨ s.tw.isRead ≠ s.tw.isRead ∨ s.tw.nbytes ≠ s.tw.nbytes → p := fun h => by simp at h
  cases h with
  | @twStart addr cmd =>
    have hi : StartsTransaction (.twStart addr cmd true 2) := ⟨_, _, _, _, rfl⟩
    exact ⟨fun _ => .inl hi, unwritten, fun _ => hi, fun _ => .inl hi, fun _ => .inl hi⟩
  | twAckMeasure | twAckRead | twAckWait =>
    exact ⟨fun _ => .inr (.inl rfl), unwritten, hparam, unwritten, fun _ => .inr (.inl rfl)⟩
  | twNack _ hs =>
    exact ⟨fun h => absurd hs.symm h, unwritten, hparam, unwritten, fun _ => .inr (.inr (.inl rfl))⟩
  | twDataHigh | twDataLow =>
    exact ⟨fun _ => .inr (.inr ⟨_, rfl⟩), fun _ => ⟨_, rfl⟩, hparam, unwritten,
      fun _ => .inr (.inr (.inr ⟨_, rfl⟩))⟩
  | twMstop => exact ⟨unwritten, unwritten, hparam, fun _ => .inr rfl, unwritten⟩
  | _ => exact ⟨unwritten, unwritten, hparam, unwritten, unwritten⟩

theorem completes_ev_writers (h : Completes s i t) :
    (t.ev.mask ≠ s.ev.mask → i = .schOpen ∨ (∃ m, i = .schAdd m) ∨ (∃ m, i = .schRemove m)
        ∨ i = .txTxc ∨ i = .rxSigf ∨ i = .rxLine s.rx.sigByte ∨ i = .twMstop)
    ∧ (t.ev.opened ≠ s.ev.opened → i = .schOpen) := by
  constructor
  · intro hne
    obtain hsame | ⟨hadd | hothers, -⟩ | ⟨-, m, hi, -⟩ | ⟨-, hi, -⟩ := completes_evMask h
    · exact absurd hsame hne
    · exact .inr (.inl hadd)
    · exact .inr (.inr (.inr hothers))
    · exact .inr (.inr (.inl ⟨m, hi⟩))
    · exact .inl hi
  · intro hne
    cases h with
    | schOpen => rfl
    | _ => exact unwritten hne

/-- Settles O55. -/
theorem eachUnitIsWrittenOnlyByItsWriters : Obligations.EachUnitIsWrittenOnlyByItsWriters := by
  intro s t i hx
  have h := completes_of_exec hx
  obtain ⟨hcfg, hscript, hsys⟩ := completes_frame h
  obtain ⟨hcount, hopened⟩ := completes_em_writers h
  obtain ⟨hrb, hsize, hwr, hrd, hbuf, hscratch, hslot⟩ := completes_rb_writers h
  obtain ⟨htext, htxidx, htxstate, hbusy, htxbl, htxc, hline⟩ := completes_tx_writers h
  obtain ⟨hrxbuf, hrxidx, hblock, hsentinel⟩ := completes_rx_writers h
  obtain ⟨htwstate, hresult, hparam, hbus, hout⟩ := completes_tw_writers h
  obtain ⟨hmask, hevopened⟩ := completes_ev_writers h
  exact ⟨hcfg, hscript, hsys, completes_agent h, completes_pwrDepth_writers h,
    completes_ret_writers h, hcount, hopened, hrb, hsize, hwr, hrd, hbuf, hscratch, hslot, htext,
    htxidx, htxstate, hbusy, htxbl, htxc, hline, hrxbuf, hrxidx, hblock, hsentinel, htwstate,
    hresult, hparam, hbus, hout, hmask, hevopened⟩

end Sys2Proof.Machine
end

section
/-! Runs of a script: proofs of the statements about whole sequences of stimuli, one line at a time. -/

namespace Sys2Proof.Machine

variable {s t : State} {i : Instr}

/-- Nothing stops the block (00_scope.md R7, 10_state.md R21). -/
structure State.Unstopped (s : State) : Prop where
  valid : s.cfg.Valid
  fault : s.sys.fault = none
  refused : s.sys.refused = none

/-- A run whose first line completes goes on from the state that line leaves. -/
theorem runScript_completes {a : Agent} {rest : List ScriptLine} (hs : s.Unstopped)
    (h : Completes { s with script := rest, agent := a } i t) :
    runScript (lineOf a i :: rest) s = runScript rest t :=
  runScript_cons hs.valid hs.fault hs.refused (decodingAnEncodedStimulusGivesItBack i)
    (exec_of_completes h) (completes_frame h).2.1

/-- The outcome of a run whose first line completes is that of the rest. -/
theorem runScript_trans {a : Agent} {rest : List ScriptLine} {r : Result} (hs : s.Unstopped)
    (h : Completes { s with script := rest, agent := a } i t) (hrest : runScript rest t = r) :
    runScript (lineOf a i :: rest) s = r :=
  (runScript_completes hs h).trans hrest

/-- The same for a line of a ready MAIN, whose context is as before. -/
theorem runScript_completes_main {rest : List ScriptLine} (hs : s.Unstopped) (hm : s.MainReady)
    (h : Completes { s with script := rest } i t) :
    runScript (lineOf .main i :: rest) s = runScript rest t := by
  have hmain : { s with script := rest, agent := .main } = { s with script := rest } := by
    rw [← hm.1]
  exact runScript_completes hs (hmain ▸ h)

/-- A completed stimulus stops nothing. -/
theorem State.Unstopped.of_completes (hs : s.Unstopped) (h : Completes s i t) : t.Unstopped := by
  obtain ⟨hcfg, -, hsys⟩ := completes_frame h
  exact ⟨hcfg ▸ hs.valid, hsys ▸ hs.fault, hsys ▸ hs.refused⟩

/-! ## Retries of the read address (44_two_wire.md R89) -/

/-- The state that `n` not-acknowledges in `WACK3` leave. -/
def State.retried (n : Nat) (s : State) : State :=
  { s with
    pwrDepth := if n = 0 then s.pwrDepth else 0
    twOut := s.twOut ++ (List.replicate n (readAddress s)).flatten }

theorem retried_zero (s : State) : s.retried 0 = s := by
  simp only [State.retried, if_pos, List.replicate_zero, List.flatten_nil, List.append_nil]

/-- The state one not-acknowledge leaves, its script put back. -/
theorem retried_succ {u : State} (n : Nat) (hs : s.tw.state = .wack3) (ha : s.agent = .main)
    (hu : u = ((s.wake.returnToMain).emitBus (readAddress s)).twGoto .wack3) :
    u.retried n = s.retried (n + 1) := by
  have htw : ({ s.tw with state := .wack3 } : TwUnit) = s.tw := by rw [← hs]
  subst hu
  simp only [State.retried, State.twGoto, State.emitBus, State.returnToMain, State.wake, htw,
    readAddress, List.replicate_succ, List.flatten_cons, List.append_assoc, ite_self,
    Nat.add_eq_zero_iff, one_ne_zero, and_false, if_false, ha]

theorem runScript_nacks (n : Nat) (rest : List ScriptLine) (h : s.Unstopped)
    (hs : s.tw.state = .wack3) (ha : s.agent = .main) :
    runScript (List.replicate n (lineOf .twoWire .twNack) ++ rest) s
      = runScript rest (s.retried n) := by
  induction n generalizing s with
  | zero => rw [retried_zero]; rfl
  | succ n ih =>
    rw [List.replicate_succ, List.cons_append, runScript_completes h (.twNack rfl hs), ih,
      ← retried_succ n hs ha rfl]
    · rfl
    · exact ⟨h.valid, h.fault, h.refused⟩
    · rfl
    · rfl

/-- Settles O36. -/
theorem twNackRetriesWithoutBound : Obligations.TwNackRetriesWithoutBound := by
  refine ⟨fun s ha hs => ?_, fun s ha hs => ?_, fun s n hv hbetween hs => ?_⟩
  · show execTwNack s = _
    refine asEvent_fault ha ?_
    cases hstate : s.tw.state with
    | wack3 => exact absurd hstate hs
    | _ => rfl
  · have htw : ({ s.tw with state := .wack3 } : TwUnit) = s.tw := by rw [← hs]
    have hx := exec_of_completes (.twNack ha hs)
    rw [hx, ← addressByte_read_bits]
    simp only [State.twGoto, State.emitBus, State.returnToMain, State.wake, htw, readAddress]
  · obtain ⟨ha, hf, hr⟩ := hbetween
    have hrun := runScript_nacks n [] ⟨hv, hf, hr⟩ hs ha
    rw [List.append_nil] at hrun
    refine ⟨_, hrun, rfl, ?_, rfl⟩
    rw [← addressByte_read_bits]
    rfl

/-! ## The boot sequence (70_reset_and_hazards.md R126) -/

/-- The four initialisers of the boot sequence. -/
def initialisers : List Instr := [.emOpen, .schOpen, .rxOpen, .rbInit]

/-- The state an initialiser leaves; any other stimulus is none. -/
def State.initialise (s : State) : Instr → State
  | .emOpen => s.emOpened
  | .schOpen => { s with ev := { mask := 0, opened := true } }
  | .rxOpen => { s with rx := { s.rx with
      startByte := s.cfg.rxStartByte, sigByte := s.cfg.rxSigByte, block := true, idx := 0,
      state := .idle } }
  | .rbInit => s.rbInitialised
  | _ => s

theorem initialisers_cases {i : Instr} (hi : i ∈ initialisers) :
    i = .emOpen ∨ i = .schOpen ∨ i = .rxOpen ∨ i = .rbInit := by
  simpa [initialisers] using hi

theorem completes_initialise (hi : i ∈ initialisers) (hm : s.MainReady) :
    Completes s i (s.initialise i) := by
  obtain rfl | rfl | rfl | rfl := initialisers_cases hi
  exacts [.emOpen hm, .schOpen hm, .rxOpen hm, .rbInit hm]

/-- An initialiser leaves MAIN ready. -/
theorem initialise_mainReady (hi : i ∈ initialisers) (hm : s.MainReady) :
    (s.initialise i).MainReady := by
  obtain rfl | rfl | rfl | rfl := initialisers_cases hi
  all_goals exact hm

/-- Initialisers write different units, so their order does not matter. -/
theorem initialise_comm {j : Instr} (hi : i ∈ initialisers) (hj : j ∈ initialisers) (s : State) :
    (s.initialise i).initialise j = (s.initialise j).initialise i := by
  obtain rfl | rfl | rfl | rfl := initialisers_cases hi <;>
    obtain rfl | rfl | rfl | rfl := initialisers_cases hj <;> rfl

/-- A run of initialisers by an awake MAIN is the initialisers one after the other. -/
theorem runScript_initialisers {order : List Instr} (hi : ∀ i ∈ order, i ∈ initialisers)
    (h : s.Unstopped) (hm : s.MainReady) :
    runScript (order.map (lineOf .main)) s
      = .next (order.foldl State.initialise { s with script := [] }) := by
  induction order generalizing s with
  | nil => rfl
  | cons i order ih =>
    have hfirst := hi i List.mem_cons_self
    have hrest := fun j hj => hi j (List.mem_cons_of_mem i hj)
    have hstep := completes_initialise
      (s := { s with script := order.map (lineOf .main) }) hfirst hm
    have hunstopped := State.Unstopped.of_completes (by exact ⟨h.valid, h.fault, h.refused⟩) hstep
    rw [List.map_cons, runScript_completes_main h hm hstep,
      ih hrest hunstopped (initialise_mainReady hfirst (by exact hm))]
    obtain rfl | rfl | rfl | rfl := initialisers_cases hfirst
    all_goals rfl

/-- Settles O56. -/
theorem theBootSequenceMayBePermuted : Obligations.TheBootSequenceMayBePermuted := by
  intro c order hv hperm
  have hi : ∀ i ∈ order, i ∈ initialisers := fun i h => hperm.mem_iff.1 h
  rw [runScript_initialisers hi ⟨hv, rfl, rfl⟩ ⟨rfl, rfl⟩,
    hperm.foldl_eq' fun i h j h' s => initialise_comm (hi i h) (hi j h') s]
  rfl

end Sys2Proof.Machine
end

section
/-! Whole transmits, transactions, received frames and ring traffic (42_serial_tx.md R78, 44_two_wire.md
R94, 43_serial_rx.md R86, 95_test_vectors.md P1). -/

namespace Sys2Proof.Machine

variable {s t : State} {i : Instr}

/-- A block taken and given back leaves the arbiter as it was. -/
theorem setCount_restore (s : State) (d : Nat) :
    ({ s.em with count := (s.em.count.set d (s.countAt d + 1)).set d (s.countAt d + 1 - 1) } : EmUnit)
      = s.em := by
  have hcount : s.em.count.set d (s.countAt d) = s.em.count := by
    by_cases hd : d < s.em.count.length
    · rw [State.countAt, List.getD_eq_getElem?_getD, List.getElem?_eq_getElem hd, Option.getD_some,
        List.set_getElem_self]
    · exact List.set_eq_of_length_le (Nat.not_lt.1 hd)
  rw [Nat.add_sub_cancel, List.set_set, hcount]

/-! ## A transmit (R78) -/

/-- The state of a transmit of which `k` bytes, but not all, have been handed over. -/
def State.sending (p : List Byte) (k : Nat) (s : State) : State :=
  { s.transmitStarted p with
    agent := .main, pwrDepth := 0, txLine := s.txLine ++ p.take k
    tx := { (s.transmitStarted p).tx with idx := k } }

/-- The state of a transmit of which every byte has been handed over. -/
def State.sentAll (p : List Byte) (s : State) : State :=
  { s.transmitStarted p with
    agent := .main, pwrDepth := 0, txLine := s.txLine ++ p
    tx := { (s.transmitStarted p).tx with
      idx := p.length, txblIen := false, txcIen := true, state := .waitTxc } }

/-- The state a completed transmit leaves (R77). -/
def State.transmitted (p : List Byte) (s : State) : State :=
  { s with
    script := [], txLine := s.txLine ++ p
    ev := { s.ev with mask := eventsAdd s.ev.mask s.cfg.evtTxDone }
    tx := { (s.transmitStarted p).tx with
      idx := p.length, txblIen := false, txcIen := false, busy := false, state := .finish } }

variable {p : List Byte} {k : Nat}

/-- The next byte of a taken text is in the transmit buffer. -/
theorem read_next (s : State) (hk : k < p.length) :
    Memory.read (s.transmitStarted p).tx.buf k = some p[k] :=
  (read_text p s.tx.buf hk).trans (List.getElem?_eq_getElem hk)

theorem completes_sending (s : State) (rest : List ScriptLine) (hk : k + 1 < p.length) :
    Completes { s.sending p k with script := rest, agent := .serial } .txTxbl
      { s.sending p (k + 1) with script := rest } := by
  have hline : s.txLine ++ p.take (k + 1) = s.txLine ++ p.take k ++ [p[k]] := by
    rw [List.append_assoc, List.take_append_getElem]
  simp only [State.sending, hline]
  exact .txblByte (b := p[k]) rfl rfl (Nat.lt_of_succ_lt hk) hk.ne (read_next s _)

theorem completes_sentAll (s : State) (rest : List ScriptLine) (hk : k + 1 = p.length) :
    Completes { s.sending p k with script := rest, agent := .serial } .txTxbl
      { s.sentAll p with script := rest } := by
  have hlt : k < p.length := by omega
  have hline : s.txLine ++ p = s.txLine ++ p.take k ++ [p[k]] := by
    rw [List.append_assoc, List.take_append_getElem, hk, List.take_length]
  simp only [State.sending, State.sentAll, hline, ← hk]
  exact .txblLastByte (b := p[k]) rfl rfl hk (read_next s hlt)

theorem runScript_sending (h : s.Unstopped) (hm : s.MainReady) (ht : s.TakesText p)
    (hk : k < p.length) (rest : List ScriptLine) :
    runScript (lineOf .main (.txStart p) :: (List.replicate k (lineOf .serial .txTxbl) ++ rest)) s
      = runScript rest (s.sending p k) := by
  induction k generalizing rest with
  | zero =>
    have hstart : { s.sending p 0 with script := rest } = { s with script := rest }.transmitStarted p
        := by
      simp only [State.sending, State.transmitStarted, State.setCount, State.countAt,
        List.take_zero, List.append_nil, hm.1, hm.2]
    have hstep : Completes { s with script := rest } (.txStart p)
        ({ s with script := rest }.transmitStarted p) := .txStart hm
          ⟨ht.idle, ht.fits, ht.nonzero, ht.depth, ht.opened, ht.below⟩
    refine (runScript_completes_main h hm hstep).trans ?_
    rw [← hstart]
    rfl
  | succ k ih =>
    rw [List.replicate_succ', List.append_assoc, ih (by omega), List.singleton_append,
      runScript_completes (by exact ⟨h.valid, h.fault, h.refused⟩) (completes_sending s rest hk)]
    rfl

theorem runScript_sentAll (h : s.Unstopped) (hm : s.MainReady) (ht : s.TakesText p)
    (hp : 1 ≤ p.length) (rest : List ScriptLine) :
    runScript (lineOf .main (.txStart p)
        :: (List.replicate p.length (lineOf .serial .txTxbl) ++ rest)) s
      = runScript rest (s.sentAll p) := by
  obtain ⟨k, hk⟩ : ∃ k, k + 1 = p.length := ⟨p.length - 1, by omega⟩
  rw [← hk, List.replicate_succ', List.append_assoc, runScript_sending h hm ht (by omega),
    List.singleton_append,
    runScript_completes (by exact ⟨h.valid, h.fault, h.refused⟩) (completes_sentAll s rest hk)]
  rfl

theorem runScript_transmitted (h : s.Unstopped) (hm : s.MainReady) (ht : s.TakesText p)
    (hl : s.em.count.length = s.cfg.nDepths) (hev : s.ev.opened = true) :
    runScript [lineOf .serial .txTxc] (s.sentAll p) = .next (s.transmitted p) := by
  have hcount : (s.sentAll p).countAt s.cfg.txBlockDepth = s.countAt s.cfg.txBlockDepth + 1 :=
    countAt_setCount_self (hl ▸ ht.depth)
  have hstep := Completes.txTxc (s := { s.sentAll p with script := [], agent := .serial }) rfl rfl
    ht.depth ht.opened (hcount.ge.trans' (by omega)) hev
  rw [runScript_completes (by exact ⟨h.valid, h.fault, h.refused⟩) hstep]
  refine congrArg Host.Outcome.next ?_
  show ({ s.transmitted p with
    agent := .main, pwrDepth := 0
    em := { s.em with
      count := (s.em.count.set s.cfg.txBlockDepth (s.countAt s.cfg.txBlockDepth + 1)).set
        s.cfg.txBlockDepth ((s.sentAll p).countAt s.cfg.txBlockDepth - 1) } } : State) = _
  rw [hcount, setCount_restore]
  simp only [State.transmitted, hm.1, hm.2]

/-- Settles O57: the text's last byte and no earlier one moves the transmitter on. -/
theorem aTransmitTakesOneCallPerByte : Obligations.ATransmitTakesOneCallPerByte := by
  intro s p hv hbetween hp ho hl hev hc hb hz hone hfit
  obtain ⟨ha, hf, hr⟩ := hbetween
  have hd : s.cfg.txBlockDepth < s.cfg.nDepths := by
    obtain ⟨-, -, -, -, -, -, -, hd, -⟩ := hv
    exact hd
  have ht : s.TakesText p := ⟨hb, hfit, hz, hd, ho, hc⟩
  have h : s.Unstopped := ⟨hv, hf, hr⟩
  refine ⟨fun k hk => ?_, s.transmitted p, ?_, rfl, rfl, rfl, rfl, rfl⟩
  · by_cases hkl : k = p.length
    · have hrun := runScript_sentAll h ⟨ha, hp⟩ ht hone []
      rw [List.append_nil] at hrun
      rw [hkl]
      exact ⟨_, hrun, rfl, rfl, by rw [List.take_length]; rfl, by rw [if_pos rfl]; rfl⟩
    · have hrun := runScript_sending h ⟨ha, hp⟩ ht (by omega : k < p.length) []
      rw [List.append_nil] at hrun
      exact ⟨_, hrun, rfl, rfl, rfl, by rw [if_neg hkl]; rfl⟩
  · rw [List.cons_append, runScript_sentAll h ⟨ha, hp⟩ ht hone,
      runScript_transmitted h ⟨ha, hp⟩ ht hl hev]

/-! ## A transaction (44_two_wire.md R94) -/

/-- The two data bytes, assigned and OR-ed in, are the big-endian 16-bit number (30_encoding.md R54). -/
theorem result_toNat (m l : Byte) :
    (resultLsb (resultMsb m) l).toNat = 256 * m.toNat + l.toNat := by
  have hm := m.isLt
  have hl := l.isLt
  have hmsb : (resultMsb m).toNat = m.toNat <<< 8 := by
    rw [resultMsb, BitVec.toNat_shiftLeft, BitVec.toNat_setWidth, Nat.mod_eq_of_lt (by omega),
      Nat.shiftLeft_eq]
    omega
  rw [resultLsb, BitVec.toNat_or, hmsb, BitVec.toNat_setWidth, Nat.mod_eq_of_lt (by omega),
    ← Nat.shiftLeft_add_eq_or_of_lt (by omega), Nat.shiftLeft_eq]
  omega

theorem result_eq_append (m l : Byte) :
    resultLsb (resultMsb m) l = ((m ++ l : BitVec 16)).setWidth 32 := by
  have hm := m.isLt
  have hl := l.isLt
  apply BitVec.eq_of_toNat_eq
  rw [result_toNat, BitVec.toNat_setWidth, BitVec.toNat_append,
    ← Nat.shiftLeft_add_eq_or_of_lt (by omega), Nat.shiftLeft_eq]
  omega

/-- The state in which a transaction polls for the measurement: the device addressed, the command
written, the read address issued once. -/
def State.polling (addr : Nat) (cmd : Byte) (s : State) : State :=
  { s.setCount s.cfg.twBlockDepth (s.countAt s.cfg.twBlockDepth + 1) with
    agent := .main, pwrDepth := 0
    tw := { s.tw with
      addr := BitVec.ofNat 7 addr, cmd := cmd, isRead := true, nbytes := 2, busBusy := true,
      state := .wack3 }
    twOut := s.twOut ++ [.start, .tx (addressByte (BitVec.ofNat 7 addr) false)] ++ [.tx cmd]
      ++ [.start, .tx (addressByte (BitVec.ofNat 7 addr) true)] }

theorem runScript_polling {addr : Nat} (cmd : Byte) (h : s.Unstopped) (hm : s.MainReady)
    (haddr : addr ≤ 0x7F) (hb : s.tw.busBusy = false) (hd : s.cfg.twBlockDepth < s.cfg.nDepths)
    (ho : s.em.opened = true) (hc : s.countAt s.cfg.twBlockDepth + 1 < s.cfg.emCeiling)
    (rest : List ScriptLine) :
    runScript (lineOf .main (.twStart addr cmd true 2) :: lineOf .twoWire .twAck
        :: lineOf .twoWire .twAck :: rest) s
      = runScript rest (s.polling addr cmd) := by
  have hstart := Completes.twStart (cmd := cmd)
    (s := { s with script := lineOf .twoWire .twAck :: lineOf .twoWire .twAck :: rest })
    hm haddr hb hd ho hc
  refine (runScript_completes_main h hm hstart).trans ?_
  refine runScript_trans ⟨h.valid, h.fault, h.refused⟩ (.twAckMeasure rfl rfl) ?_
  exact runScript_trans ⟨h.valid, h.fault, h.refused⟩ (.twAckRead rfl rfl) rfl

/-- The state the acknowledge, the two data bytes and the stop leave. -/
def State.measured (m l : Byte) (s : State) : State :=
  { s.setCount s.cfg.twBlockDepth (s.countAt s.cfg.twBlockDepth - 1) with
    script := [], agent := .main, pwrDepth := 0
    ev := { s.ev with mask := eventsAdd s.ev.mask s.cfg.evtTwDone }
    tw := { s.tw with
      busBusy := false, state := .endState, result := resultLsb (resultMsb m) l }
    twOut := s.twOut ++ [.ackCmd] ++ [.nackCmd, .stopCmd] }

theorem runScript_measured (m l : Byte) (h : s.Unstopped) (hs : s.tw.state = .wack3)
    (hd : s.cfg.twBlockDepth < s.cfg.nDepths) (ho : s.em.opened = true)
    (hc : 1 ≤ s.countAt s.cfg.twBlockDepth) (hev : s.ev.opened = true) :
    runScript [lineOf .twoWire .twAck, lineOf .twoWire (.twRxdatav m),
        lineOf .twoWire (.twRxdatav l), lineOf .twoWire .twMstop] s
      = .next (s.measured m l) := by
  refine runScript_trans h (.twAckWait rfl hs) ?_
  refine runScript_trans ⟨h.valid, h.fault, h.refused⟩ (.twDataHigh rfl rfl) ?_
  refine runScript_trans ⟨h.valid, h.fault, h.refused⟩ (.twDataLow rfl rfl) ?_
  refine runScript_trans ⟨h.valid, h.fault, h.refused⟩ (.twMstop rfl rfl hd ho hc hev) ?_
  refine congrArg Host.Outcome.next ?_
  simp only [State.measured, State.setCount, State.countAt, State.wake, State.returnToMain,
    State.twGoto, State.emitBus, State.setResult]
  rfl

/-- The whole transaction gives its block back. -/
theorem measured_em {addr : Nat} {cmd m l : Byte} (r : Nat)
    (hd : s.cfg.twBlockDepth < s.em.count.length) :
    (((s.polling addr cmd).retried r).measured m l).em = s.em := by
  have hcount : (s.polling addr cmd).countAt s.cfg.twBlockDepth
      = s.countAt s.cfg.twBlockDepth + 1 := countAt_setCount_self hd
  show ({ s.em with
    count := (s.em.count.set s.cfg.twBlockDepth (s.countAt s.cfg.twBlockDepth + 1)).set
      s.cfg.twBlockDepth ((s.polling addr cmd).countAt s.cfg.twBlockDepth - 1) } : EmUnit) = _
  rw [hcount, setCount_restore]

/-- Settles O58: the start and two acknowledges lead to the polling state, where the retries stay, and
the last four events measure. -/
theorem aTransactionYieldsTheBigEndianResult : Obligations.ATransactionYieldsTheBigEndianResult := by
  intro s addr r cmd m l hv hbetween hp ho hl hev hc hb haddr
  obtain ⟨ha, hf, hr⟩ := hbetween
  have h : s.Unstopped := ⟨hv, hf, hr⟩
  have hd : s.cfg.twBlockDepth < s.cfg.nDepths := by
    obtain ⟨-, -, -, -, -, -, -, -, hd, -⟩ := hv
    exact hd
  have hheld : (s.polling addr cmd).countAt s.cfg.twBlockDepth
      = s.countAt s.cfg.twBlockDepth + 1 := countAt_setCount_self (hl ▸ hd)
  refine ⟨((s.polling addr cmd).retried r).measured m l, ?_, result_eq_append m l,
    result_toNat m l, ?_, rfl, rfl, rfl, ?_⟩
  · rw [List.append_assoc]
    refine (runScript_polling cmd h ⟨ha, hp⟩ haddr hb hd ho hc _).trans ?_
    refine (runScript_nacks (s := s.polling addr cmd) r _ ⟨hv, hf, hr⟩ rfl rfl).trans ?_
    exact runScript_measured m l ⟨hv, hf, hr⟩ rfl hd ho
      (hheld.ge.trans' (Nat.le_add_left _ _)) hev
  · have hwrite : addressByte (BitVec.ofNat 7 addr) false = BitVec.ofNat 8 (2 * addr) := by
      rw [addressByte_write, twAddr_toNat haddr]
    have hread : addressByte (BitVec.ofNat 7 addr) true = BitVec.ofNat 8 (2 * addr + 1) := by
      rw [addressByte_read, twAddr_toNat haddr]
    simp only [State.measured, State.retried, State.polling, State.setCount, readAddress, hwrite,
      hread, List.replicate_succ, List.flatten_cons, List.append_assoc, List.cons_append,
      List.nil_append]
  · have hem := measured_em (addr := addr) (cmd := cmd) (m := m) (l := l) r (hl ▸ hd)
    calc ((s.polling addr cmd).retried r).measured m l
        = { ((s.polling addr cmd).retried r).measured m l with em := s.em } := by rw [← hem]
      _ = _ := by
        simp only [State.measured, State.retried, State.polling, State.setCount, ha, hp]

end Sys2Proof.Machine
end

section
/-! A received frame (43_serial_rx.md R86, 30_encoding.md R51). -/

namespace Sys2Proof.Machine

variable {s : State} {p : List Byte}

theorem writeList_concat (bs : List Byte) (i : Nat) (b : Byte) (m : Memory) :
    Memory.writeList i (bs ++ [b]) m = Memory.write (i + bs.length) b (Memory.writeList i bs m) := by
  induction bs generalizing i m with
  | nil => rfl
  | cons c bs ih =>
    rw [List.length_cons, Nat.add_comm bs.length, ← Nat.add_assoc]
    exact ih (i + 1) (Memory.write i c m)

/-- The line of a byte that arrives at the receiver. -/
abbrev rxByte (b : Byte) : ScriptLine := lineOf .serial (.rxLine b)

/-- The state of a receiver that has taken the start byte and the payload `p`. -/
def State.receiving (p : List Byte) (s : State) : State :=
  { s with
    agent := .main, pwrDepth := 0
    rx := { s.rx with
      block := false, buf := Memory.writeList 0 (s.rx.startByte :: p) s.rx.buf,
      idx := p.length + 1, state := if p = [] then .started else .receiving } }

/-- The state a received frame leaves. -/
def State.received (p : List Byte) (s : State) : State :=
  { s with
    script := [], agent := .main, pwrDepth := 0
    ev := { s.ev with mask := eventsAdd s.ev.mask s.cfg.evtRxDone }
    rx := { s.rx with
      block := true, buf := Memory.writeList 0 (s.rx.startByte :: p ++ [0]) s.rx.buf,
      idx := 0, state := .finished } }

theorem receiving_state_ne_init (p : List Byte) (s : State) :
    (s.receiving p).rx.state ≠ .init := by
  show (if p = [] then RxState.started else .receiving) ≠ .init
  split <;> simp

theorem completes_receiving {b : Byte} (rest : List ScriptLine) (hsig : b ≠ s.rx.sigByte)
    (hst : b ≠ s.rx.startByte) (hfit : p.length + 3 ≤ s.cfg.rxBufSize) :
    Completes { s.receiving p with script := rest, agent := .serial } (.rxLine b)
      { s.receiving (p ++ [b]) with script := rest } := by
  have hbuf : Memory.writeList 0 (s.rx.startByte :: (p ++ [b])) s.rx.buf
      = Memory.write (p.length + 1) b (Memory.writeList 0 (s.rx.startByte :: p) s.rx.buf) := by
    rw [← List.cons_append, writeList_concat, Nat.zero_add, List.length_cons]
  have hstep := Completes.rxRxdatav (s := { s.receiving p with script := rest, agent := .serial })
    (.inr ⟨rfl, hsig, hst⟩) rfl (receiving_state_ne_init p s) rfl hfit
  have hlen : (p ++ [b]).length = p.length + 1 := List.length_append
  simpa only [State.receiving, hbuf, hlen, List.append_eq_nil_iff, List.cons_ne_nil, and_false,
    if_false] using hstep

theorem runScript_receiving (h : s.Unstopped) (hs : s.rx.state ≠ .init) (hb : s.rx.block = true)
    (hp : ∀ b ∈ p, b ≠ s.rx.startByte ∧ b ≠ s.rx.sigByte) (hfit : p.length + 2 ≤ s.cfg.rxBufSize)
    (rest : List ScriptLine) :
    runScript (rxByte s.rx.startByte :: (p.map rxByte ++ rest)) s
      = runScript rest (s.receiving p) := by
  induction p using List.reverseRecOn generalizing rest with
  | nil => exact runScript_trans h (.rxStartf (.inr rfl) rfl hs hb (Nat.zero_lt_of_lt hfit)) rfl
  | append_singleton p b ih =>
    rw [List.length_append, List.length_singleton] at hfit
    obtain ⟨hst, hsig⟩ := hp b (by simp)
    rw [List.map_append, List.append_assoc,
      ih (fun c hc => hp c (List.mem_append_left _ hc)) (by omega)]
    exact runScript_trans ⟨h.valid, h.fault, h.refused⟩
      (completes_receiving rest hsig hst (by omega)) rfl

theorem runScript_received (h : s.Unstopped) (hev : s.ev.opened = true)
    (hfit : p.length + 2 ≤ s.cfg.rxBufSize) :
    runScript [rxByte s.rx.sigByte] (s.receiving p) = .next (s.received p) := by
  have hbuf : Memory.writeList 0 (s.rx.startByte :: p ++ [0]) s.rx.buf
      = Memory.write (p.length + 1) 0 (Memory.writeList 0 (s.rx.startByte :: p) s.rx.buf) := by
    rw [writeList_concat, Nat.zero_add, List.length_cons]
  have hroom : p.length + 1 < s.cfg.rxBufSize := by omega
  refine runScript_trans ⟨h.valid, h.fault, h.refused⟩
    (.rxSigf (.inr rfl) rfl (receiving_state_ne_init p s) rfl hroom hev) ?_
  rw [State.received, hbuf]
  rfl

/-- Settles O59. -/
theorem aReceivedFrameIsATerminatedString : Obligations.AReceivedFrameIsATerminatedString := by
  intro s p hv hbetween hev hinv hstate hp hfit
  obtain ⟨ha, hf, hr⟩ := hbetween
  have h : s.Unstopped := ⟨hv, hf, hr⟩
  have hs : s.rx.state ≠ .init := by
    obtain hs | hs := hstate <;> simp [hs]
  obtain ⟨hstart, hsig, hblock, -⟩ := hinv hs
  have hb : s.rx.block = true := by
    rw [hblock]
    obtain hs | hs := hstate <;> simp [hs]
  rw [← hstart, ← hsig] at hp ⊢
  refine ⟨s.received p, ?_, ?_, ?_, rfl, rfl, rfl, rfl, ?_⟩
  · rw [List.cons_append, List.map_cons, List.map_append]
    exact (runScript_receiving h hs hb hp hfit _).trans (runScript_received h hev hfit)
  · exact fun j hj => read_terminated (s.rx.startByte :: p) s.rx.buf hj
  · exact fun j hj => read_past_terminator (s.rx.startByte :: p) s.rx.buf hj
  · simp only [State.received, ha]

end Sys2Proof.Machine
end

section
/-! Ring traffic: strings pushed and popped in order (95_test_vectors.md P1, 41_ring_buffer.md R72). -/

namespace Sys2Proof.Machine

variable {s : State} {k : Nat} {p : List Byte} {ps qs : List (List Byte)}

/-- The ring bytes a string's frame takes (30_encoding.md R50). -/
def framesSize (ps : List (List Byte)) : Nat := (ps.map fun p => p.length + 1).sum

theorem framesSize_cons (p : List Byte) (ps : List (List Byte)) :
    framesSize (p :: ps) = framesSize ps + (p.length + 1) := by
  rw [framesSize, List.map_cons, List.sum_cons, Nat.add_comm]; rfl

/-- Pushes whose frames fit together leave the strings pending after the others, and write only the
ring's bytes and its write cursor. -/
theorem runScript_pushes (rest : List ScriptLine) (hu : s.Unstopped) (hm : s.MainReady)
    (hr : s.rb.ready = true) (h : s.rb.Holds s.cfg k ps) (hz : ∀ p ∈ qs, NoZeroByte p)
    (hfit : framesSize qs ≤ s.rb.space) :
    ∃ buf wr, RbUnit.Holds { s.rb with buf := buf, wr := wr } s.cfg k (ps ++ qs)
      ∧ runScript ((qs.map fun p => lineOf .main (.rbPush p)) ++ rest) s
        = runScript rest { s with rb := { s.rb with buf := buf, wr := wr } } := by
  induction qs generalizing s ps with
  | nil => exact ⟨s.rb.buf, s.rb.wr, by rw [List.append_nil]; exact h, rfl⟩
  | cons p qs ih =>
    rw [framesSize_cons] at hfit
    have hroom : p.length + 1 ≤ s.rb.space := le_of_add_le_right hfit
    obtain ⟨hzp, hzqs⟩ := List.forall_mem_cons.1 hz
    obtain ⟨buf, hw, -, -, hpush⟩ := h.push hzp hroom
    have hspace := h.space_push hroom hpush
    have hstep := Completes.rbPush
      (s := { s with script := (qs.map fun p => lineOf .main (.rbPush p)) ++ rest })
      hm hzp hr hroom hw
    obtain ⟨buf', wr', hholds, hrun⟩ := ih (s := { s with rb := { s.rb with
        buf := buf, wr := (s.rb.wr + (p.length + 1)) % 2 ^ k } })
      ⟨hu.valid, hu.fault, hu.refused⟩ hm hr hpush hzqs
        (Nat.le_of_add_le_add_right (hfit.trans hspace.ge))
    refine ⟨buf', wr', ?_, ?_⟩
    · rw [List.append_cons]; exact hholds
    · exact (runScript_completes_main hu hm hstep).trans hrun

/-- The state a pop in test mode leaves whose frame was `p` and ended at `c`. -/
def State.poppedToSlot (p : List Byte) (c : Nat) (s : State) : State :=
  (copyToTestSlot p (takeFrame p c s)).setRet (.popped .consumed)

/-- One pop in test mode of a ring whose oldest string is `p`. -/
theorem completes_poppedToSlot (hv : s.cfg.Valid) (hm : s.MainReady) (hr : s.rb.ready = true)
    (hb : s.tx.busy = false) (h : s.rb.Holds s.cfg k (p :: ps)) :
    Completes s (.rbPop true) (s.poppedToSlot p ((s.rb.rd + (p.length + 1)) % 2 ^ k)) :=
  .rbPopToSlot hm hr (fun he => List.cons_ne_nil _ _ (h.cursors_eq_iff.1 he)) hb (h.headFrame hv)

/-- Pops in test mode take the strings off in order; the last one is in the inspection slot. -/
theorem runScript_pops (hu : s.Unstopped) (hm : s.MainReady) (hr : s.rb.ready = true)
    (hb : s.tx.busy = false) (h : s.rb.Holds s.cfg k (qs ++ p :: ps)) :
    ∃ t, runScript (List.replicate (qs.length + 1) (lineOf .main (.rbPop true))) s = .next t
      ∧ t.ret = some (.popped .consumed) ∧ t.rb.frames = some ps
      ∧ ∀ j ≤ p.length, Memory.read t.rb.testSlot j = (p ++ [0])[j]? := by
  induction qs generalizing s with
  | nil =>
    have hstep := completes_poppedToSlot (s := { s with script := [] }) hu.valid hm hr hb h
    refine ⟨_, runScript_completes_main hu hm hstep, rfl, (h.pop _ _).frames, ?_⟩
    exact fun j hj => read_terminated p s.rb.testSlot hj
  | cons q qs ih =>
    have hstep := completes_poppedToSlot
      (s := { s with script := List.replicate (qs.length + 1) (lineOf .main (.rbPop true)) })
      hu.valid hm hr hb h
    obtain ⟨t, hrun, ht⟩ := ih (.of_completes (by exact ⟨hu.valid, hu.fault, hu.refused⟩) hstep)
      hm hr hb (h.pop _ _)
    exact ⟨t, (runScript_completes_main hu hm hstep).trans hrun, ht⟩

/-- Settles O60: the pushes leave the strings pending in order, and each pop takes the oldest. -/
theorem pushedStringsArePoppedInOrder : Obligations.PushedStringsArePoppedInOrder := by
  intro s ps hv hbetween hp hr hinv hframes hb hz hfit
  obtain ⟨ha, hf, href⟩ := hbetween
  have hu : s.Unstopped := ⟨hv, hf, href⟩
  obtain ⟨k, h⟩ := holds_of_frames hv hr hinv hframes
  have hused : s.rb.used = 0 := h.used_eq
  have hroom : framesSize ps ≤ s.rb.space := by
    rw [h.space_eq, hused, Nat.sub_zero, ← h.size]
    exact hfit
  refine ⟨?_, fun before after p hps => ?_⟩
  · obtain ⟨buf, wr, hholds, hrun⟩ := runScript_pushes [] hu ⟨ha, hp⟩ hr h hz hroom
    rw [List.append_nil] at hrun
    exact ⟨_, hrun, hholds.frames⟩
  · obtain ⟨buf, wr, hholds, hrun⟩ := runScript_pushes
      (List.replicate (before.length + 1) (lineOf .main (.rbPop true))) hu ⟨ha, hp⟩ hr h hz hroom
    rw [hrun]
    rw [List.nil_append, hps] at hholds
    exact runScript_pops (by exact ⟨hv, hf, href⟩) (by exact ⟨ha, hp⟩) hr hb hholds

end Sys2Proof.Machine
end
